-- ==== Sys2Proof/Word.lean ====
section
/-! DEFINITION. The byte and byte-sequence types of 00_scope.md R11. -/

namespace Sys2Proof

/-- A byte: an 8-bit unsigned value (R11). -/
abbrev Byte := BitVec 8

/-- A finite byte sequence of any length, index 0 first (R11). -/
abbrev Bytes := List Byte

/-- A sequence of exactly `n` bytes (R11). -/
abbrev BytesN (n : Nat) := Vector Byte n

end Sys2Proof
end

