-- ==== Sys2Proof/Machine/Bytes.lean ====
section
/-! DEFINITION. Byte-order helpers and buffer slices: 00_scope.md R12, R13, R15; 20_memory.md R53 to R55. -/

namespace Sys2Proof.Machine

/-- `zeros(n)`: `n` bytes of 0x00 (R12). -/
def zeros (n : Nat) : Bytes := List.replicate n 0

/-- The sum of `s[i] * 2^(8i)` over a byte sequence (R13). -/
def leNat : Bytes → Nat
  | [] => 0
  | b :: bs => b.toNat + 256 * leNat bs

/-- `leN(s)`: the `n`-bit value of a little-endian byte sequence (R13). -/
def leBits (n : Nat) (s : Bytes) : BitVec n := BitVec.ofNat n (leNat s)

/-- `le16(b0, b1)` (R13). -/
def le16 (b0 b1 : Byte) : BitVec 16 := leBits 16 [b0, b1]

/-- The first `n` bytes of a natural number, least significant byte first (R13). -/
def bytesLeNat : Nat → Nat → Bytes
  | 0, _ => []
  | n + 1, v => BitVec.ofNat 8 v :: bytesLeNat n (v / 256)

/-- `bytes_leN(v)` as a byte sequence: the bytes of an 8k-bit value, least significant first (R13). -/
def bytesLe (k : Nat) (v : BitVec (8 * k)) : Bytes := bytesLeNat k v.toNat

/-- `bytes_le32(v)` as exactly four bytes: the vector byte order of R54. -/
def bytesLe32 (v : BitVec 32) : BytesN 4 :=
  #v[v.extractLsb' 0 8, v.extractLsb' 8 8, v.extractLsb' 16 8, v.extractLsb' 24 8]

/-- `bytes_be64(v)`: the eight bytes of a 64-bit value, most significant first (R13, R55, R105). -/
def bytesBe64 (v : BitVec 64) : BytesN 8 :=
  #v[v.extractLsb' 56 8, v.extractLsb' 48 8, v.extractLsb' 40 8, v.extractLsb' 32 8,
     v.extractLsb' 24 8, v.extractLsb' 16 8, v.extractLsb' 8 8, v.extractLsb' 0 8]

/-- `MemRead(buf, a, n) = buf[a .. a+n)` (R15); its callers check `a + n ≤ |buf|`. -/
def memRead (buf : Bytes) (a n : Nat) : Bytes := (buf.drop a).take n

/-- `MemWrite(buf, a, |v|, v)`: the buffer with the bytes from `a` on replaced by `v` (R15). -/
def memWrite (buf : Bytes) (a : Nat) (v : Bytes) : Bytes :=
  buf.take a ++ v ++ buf.drop (a + v.length)

end Sys2Proof.Machine
end

