-- ==== Sys2Proof/Machine/Constants.lean ====
section
/-! DEFINITION. The numeric constants of 00_scope.md R10, each exactly as the spec states it (D49).
`VEC_BYTES_N`, `SECRET_BITS`, `KEY_BYTES` and `BLOCK_BYTES` stand in the types `BytesN 4`, `BitVec 64`, `BytesN 32`
and `BytesN 16`. -/

namespace Sys2Proof.Machine

/-- `CHUNK_FIRST`: length of the first keystream chunk. -/
abbrev chunkFirst : Nat := 1456

/-- `CHUNK_NEXT`: length of each later chunk. -/
abbrev chunkNext : Nat := 1460

/-- `KEY_STRIDE`: the secret bytes stand at every 4th key position. -/
abbrev keyStride : Nat := 4

/-- `ENC_OFFSET`: the session encrypts from this byte. -/
abbrev encOffset : Nat := 4

/-- `EXT_HDR_BYTES`: external header (routing tag) length. -/
abbrev extHdrBytes : Nat := 2

/-- `WR_DEFAULT_SIZE`: default writer buffer size. -/
abbrev wrDefaultSize : Nat := 64

/-- `WR_MIN_SIZE`: smallest caller-specified writer size. -/
abbrev wrMinSize : Nat := 6

/-- `WR_GROWTH`: writer growth increment. -/
abbrev wrGrowth : Nat := 64

/-- `STR_MAX`: longest length-prefixed string a writer accepts. -/
abbrev strMax : Nat := 65535

/-- `FRAME_HDR_BYTES`: frame header length. -/
abbrev frameHdrBytes : Nat := 4

/-- `HS_LEN_BYTES`: handshake length prefix. -/
abbrev hsLenBytes : Nat := 2

/-- `HS_CONTEXT_MIN`: the handshake carries a context byte when its length is at least this. -/
abbrev hsContextMin : Nat := 15

/-- The largest payload length a frame header can carry, 0xFFFF (45_session_framer.md R257, R259). -/
abbrev maxPayload : Nat := 65535

end Sys2Proof.Machine
end

