-- ==== Sys2Proof/Syntax.lean ====
section
/-! DEFINITION. The command interface: unit state types (10_state.md R24 to R30), host answers and events
(30_encoding.md R87, R88), operand and result values (R77, R78), commands, and the 55 instructions of
opcode_table.json with their operands typed. -/

namespace Sys2Proof

/-- Framing mode of a reader (R28, R86). -/
inductive Mode where
  | noHeader
  | staticHeader
  | dynamicHeader
deriving DecidableEq, Repr

/-- RollingVector state: no value, or four bytes (R24). -/
abbrev VecState := Option (BytesN 4)

/-- BlockTransform state (R25). -/
structure BtState where
  key : BytesN 32
deriving DecidableEq, Repr

/-- StreamCipher state (R26). -/
structure ScState where
  initialized : Bool
  vector : VecState
  bt : BtState
  gameVersion : Option (BitVec 16)
deriving DecidableEq, Repr

/-- Reader state (R28). -/
structure RdState where
  buf : Bytes
  pos : Nat
  mode : Mode
  tag : Option (BitVec 16)
deriving DecidableEq, Repr

/-- Writer state (R30). -/
structure WrState where
  buf : Bytes
  pos : Nat
  tag : Option (BitVec 16)
deriving DecidableEq, Repr

/-- The host's answer to a connect (R87). -/
inductive HostConnect where
  | opened
  | failed
deriving DecidableEq, Repr

/-- The host's answer to a socket read (R87). -/
inductive HostRead where
  | data (d : Bytes)
  | failed
deriving DecidableEq, Repr

/-- The host's answer to a socket write (R87). -/
inductive HostWrite where
  | allAccepted
  | failedAfter (k : Nat)
deriving DecidableEq, Repr

/-- The two notifications of the block (R88). -/
inductive Event where
  | handshake (version : BitVec 16) (subversion : Bytes) (subversionValue : Option Nat)
      (locale : Byte) (context : Option Byte)
  | packet (reader : RdState)
deriving DecidableEq, Repr

/-- The types of operands and results (R77, R78). -/
inductive Ty where
  | u8 | i8 | u16 | i16 | u32 | i32 | u64 | i64
  | nat | int | bool
  | bytes | bytes4 | bytes16
  | mode | optU16 | optInt
  | vec | bt | sc | rd | wr
  | hostConnect | hostRead | hostWrite
  | events
deriving DecidableEq, Repr

/-- An operand or result value under its type (R77). A signed value is the same bit vector as its unsigned twin
(R11). A `mode` operand is a number, because a record may hold one outside 0..2 (R86). -/
inductive Value where
  | u8 (v : BitVec 8) | i8 (v : BitVec 8)
  | u16 (v : BitVec 16) | i16 (v : BitVec 16)
  | u32 (v : BitVec 32) | i32 (v : BitVec 32)
  | u64 (v : BitVec 64) | i64 (v : BitVec 64)
  | nat (v : Nat) | int (v : Int) | bool (v : Bool)
  | bytes (v : Bytes) | bytes4 (v : BytesN 4) | bytes16 (v : BytesN 16)
  | mode (code : Nat) | optU16 (v : Option (BitVec 16)) | optInt (v : Option Int)
  | vec (v : VecState) | bt (v : BtState) | sc (v : ScState) | rd (v : RdState) | wr (v : WrState)
  | hostConnect (v : HostConnect) | hostRead (v : HostRead) | hostWrite (v : HostWrite)
  | events (v : List Event)
deriving DecidableEq, Repr

/-- A command as the host issues it: a 16-bit word and an operand record (R75, R77). -/
structure Command where
  word : BitVec 16
  operands : List Value
deriving DecidableEq, Repr

/-- The 55 commands named by a word alone (R78): the word identifies the command (R82). -/
inductive Opcode where
  | vecInit | vecBytes | vecHigh | vecShuffle
  | btNew | btBlock
  | scNew | scInit | scEncrypt | scDecrypt | scQuery
  | rdNew | rdI8 | rdU8 | rdI16 | rdU16 | rdI32 | rdU32 | rdI64 | rdU64
  | rdBool | rdBytes | rdStr | rdFstr | rdGoto | rdSkip | rdTowire | rdExthdr
  | rdPos | rdAbslen | rdDatalen | rdTag
  | wrNew | wrI8 | wrU8 | wrI16 | wrU16 | wrI32 | wrU32 | wrI64 | wrU64
  | wrBool | wrBytes | wrStr | wrFstr | wrTowire | wrPos | wrAbslen | wrDatalen
  | sesConnect | sesReceive | sesSend | sesFramehdr | sesClose | sesStatus
deriving DecidableEq, Repr

/-- The instructions: a command of R78 with its operand record assembled into typed operands, in the order of
R78. -/
inductive Instr where
  | vecInit (v : VecState) (raw : BitVec 32)
  | vecBytes (v : VecState)
  | vecHigh (v : VecState)
  | vecShuffle (v : VecState)
  | btNew (secret : BitVec 64)
  | btBlock (t : BtState) (block : BytesN 16)
  | scNew (secret : BitVec 64)
  | scInit (c : ScState) (iv : BitVec 32) (gameVersion : BitVec 16)
  | scEncrypt (c : ScState) (buf : Bytes) (payloadOffset : Nat)
  | scDecrypt (c : ScState) (buf : Bytes)
  | scQuery (c : ScState)
  | rdNew (buf : Bytes) (mode : Mode)
  | rdI8 (r : RdState)
  | rdU8 (r : RdState)
  | rdI16 (r : RdState)
  | rdU16 (r : RdState)
  | rdI32 (r : RdState)
  | rdU32 (r : RdState)
  | rdI64 (r : RdState)
  | rdU64 (r : RdState)
  | rdBool (r : RdState)
  | rdBytes (r : RdState) (n : Nat)
  | rdStr (r : RdState)
  | rdFstr (r : RdState) (n : Nat) (trim : Bool)
  | rdGoto (r : RdState) (index : Int)
  | rdSkip (r : RdState) (n : Int)
  | rdTowire (r : RdState)
  | rdExthdr (r : RdState)
  | rdPos (r : RdState)
  | rdAbslen (r : RdState)
  | rdDatalen (r : RdState)
  | rdTag (r : RdState)
  | wrNew (tag : Option Int) (size : Option Int)
  | wrI8 (w : WrState) (v : BitVec 8)
  | wrU8 (w : WrState) (v : BitVec 8)
  | wrI16 (w : WrState) (v : BitVec 16)
  | wrU16 (w : WrState) (v : BitVec 16)
  | wrI32 (w : WrState) (v : BitVec 32)
  | wrU32 (w : WrState) (v : BitVec 32)
  | wrI64 (w : WrState) (v : BitVec 64)
  | wrU64 (w : WrState) (v : BitVec 64)
  | wrBool (w : WrState) (v : Bool)
  | wrBytes (w : WrState) (b : Bytes)
  | wrStr (w : WrState) (t : Bytes)
  | wrFstr (w : WrState) (t : Bytes) (n : Nat)
  | wrTowire (w : WrState)
  | wrPos (w : WrState)
  | wrAbslen (w : WrState)
  | wrDatalen (w : WrState)
  | sesConnect (endpoint : Bytes) (h : HostConnect)
  | sesReceive (h : HostRead)
  | sesSend (w : WrState) (h : HostWrite)
  | sesFramehdr (buf : Bytes) (payloadLength : Nat)
  | sesClose
  | sesStatus
deriving DecidableEq, Repr

end Sys2Proof
end

