-- ==== Sys2Proof/Machine/Operands.lean ====
section
/-! DEFINITION. Operand records: the types of R78, the `Mode` encoding of R86, the invariants that belong to the
unit state types (10_state.md R26, R28, R30), and the record of zero values. -/

namespace Sys2Proof.Machine

/-- The type a value carries. -/
def valueTy : Value → Ty
  | .u8 _ => .u8
  | .i8 _ => .i8
  | .u16 _ => .u16
  | .i16 _ => .i16
  | .u32 _ => .u32
  | .i32 _ => .i32
  | .u64 _ => .u64
  | .i64 _ => .i64
  | .nat _ => .nat
  | .int _ => .int
  | .bool _ => .bool
  | .bytes _ => .bytes
  | .bytes4 _ => .bytes4
  | .bytes16 _ => .bytes16
  | .mode _ => .mode
  | .optU16 _ => .optU16
  | .optInt _ => .optInt
  | .vec _ => .vec
  | .bt _ => .bt
  | .sc _ => .sc
  | .rd _ => .rd
  | .wr _ => .wr
  | .hostConnect _ => .hostConnect
  | .hostRead _ => .hostRead
  | .hostWrite _ => .hostWrite
  | .events _ => .events

/-- The operand types of each command, in the order of R78. -/
def operandTypes : Opcode → List Ty
  | .vecInit => [.vec, .u32]
  | .vecBytes => [.vec]
  | .vecHigh => [.vec]
  | .vecShuffle => [.vec]
  | .btNew => [.u64]
  | .btBlock => [.bt, .bytes16]
  | .scNew => [.u64]
  | .scInit => [.sc, .u32, .u16]
  | .scEncrypt => [.sc, .bytes, .nat]
  | .scDecrypt => [.sc, .bytes]
  | .scQuery => [.sc]
  | .rdNew => [.bytes, .mode]
  | .rdI8 => [.rd]
  | .rdU8 => [.rd]
  | .rdI16 => [.rd]
  | .rdU16 => [.rd]
  | .rdI32 => [.rd]
  | .rdU32 => [.rd]
  | .rdI64 => [.rd]
  | .rdU64 => [.rd]
  | .rdBool => [.rd]
  | .rdBytes => [.rd, .nat]
  | .rdStr => [.rd]
  | .rdFstr => [.rd, .nat, .bool]
  | .rdGoto => [.rd, .int]
  | .rdSkip => [.rd, .int]
  | .rdTowire => [.rd]
  | .rdExthdr => [.rd]
  | .rdPos => [.rd]
  | .rdAbslen => [.rd]
  | .rdDatalen => [.rd]
  | .rdTag => [.rd]
  | .wrNew => [.optInt, .optInt]
  | .wrI8 => [.wr, .i8]
  | .wrU8 => [.wr, .u8]
  | .wrI16 => [.wr, .i16]
  | .wrU16 => [.wr, .u16]
  | .wrI32 => [.wr, .i32]
  | .wrU32 => [.wr, .u32]
  | .wrI64 => [.wr, .i64]
  | .wrU64 => [.wr, .u64]
  | .wrBool => [.wr, .bool]
  | .wrBytes => [.wr, .bytes]
  | .wrStr => [.wr, .bytes]
  | .wrFstr => [.wr, .bytes, .nat]
  | .wrTowire => [.wr]
  | .wrPos => [.wr]
  | .wrAbslen => [.wr]
  | .wrDatalen => [.wr]
  | .sesConnect => [.bytes, .hostConnect]
  | .sesReceive => [.hostRead]
  | .sesSend => [.wr, .hostWrite]
  | .sesFramehdr => [.bytes, .nat]
  | .sesClose => []
  | .sesStatus => []

/-- The result types of each command that ends `Ok`, in the order of R78 (R85). -/
def resultTypes : Opcode → List Ty
  | .vecInit => [.vec]
  | .vecBytes => [.bytes4]
  | .vecHigh => [.u16]
  | .vecShuffle => [.vec]
  | .btNew => [.bt]
  | .btBlock => [.bytes16]
  | .scNew => [.sc]
  | .scInit => [.sc]
  | .scEncrypt => [.sc, .bytes]
  | .scDecrypt => [.sc, .bytes]
  | .scQuery => [.bool, .vec, .optU16]
  | .rdNew => [.rd]
  | .rdI8 => [.rd, .i8]
  | .rdU8 => [.rd, .u8]
  | .rdI16 => [.rd, .i16]
  | .rdU16 => [.rd, .u16]
  | .rdI32 => [.rd, .i32]
  | .rdU32 => [.rd, .u32]
  | .rdI64 => [.rd, .i64]
  | .rdU64 => [.rd, .u64]
  | .rdBool => [.rd, .bool]
  | .rdBytes => [.rd, .bytes]
  | .rdStr => [.rd, .bytes]
  | .rdFstr => [.rd, .bytes]
  | .rdGoto => [.rd]
  | .rdSkip => [.rd]
  | .rdTowire => [.bytes]
  | .rdExthdr => [.u16]
  | .rdPos => [.nat]
  | .rdAbslen => [.nat]
  | .rdDatalen => [.nat]
  | .rdTag => [.optU16]
  | .wrNew => [.wr]
  | .wrI8 => [.wr]
  | .wrU8 => [.wr]
  | .wrI16 => [.wr]
  | .wrU16 => [.wr]
  | .wrI32 => [.wr]
  | .wrU32 => [.wr]
  | .wrI64 => [.wr]
  | .wrU64 => [.wr]
  | .wrBool => [.wr]
  | .wrBytes => [.wr]
  | .wrStr => [.wr]
  | .wrFstr => [.wr]
  | .wrTowire => [.wr, .bytes]
  | .wrPos => [.nat]
  | .wrAbslen => [.nat]
  | .wrDatalen => [.nat]
  | .sesConnect => []
  | .sesReceive => [.events]
  | .sesSend => [.bytes]
  | .sesFramehdr => [.bytes]
  | .sesClose => []
  | .sesStatus => [.u32, .nat, .sc, .sc]

/-- The mode a code stands for; any code but 0, 1 and 2 has none (R86). -/
def modeOfCode : Nat → Option Mode
  | 0 => some .noHeader
  | 1 => some .staticHeader
  | 2 => some .dynamicHeader
  | _ => none

/-- The code of a mode (R86). -/
def modeCode : Mode → Nat
  | .noHeader => 0
  | .staticHeader => 1
  | .dynamicHeader => 2

/-- The invariant of `ScState`: initialized exactly when the vector and the version hold a value (R26). -/
def scOk (c : ScState) : Bool :=
  c.initialized == (c.vector.isSome && c.gameVersion.isSome)

/-- The invariants of `RdState` (R28). -/
def rdOk (r : RdState) : Bool :=
  decide (r.pos ≤ r.buf.length) &&
  match r.mode with
  | .noHeader => r.tag == none
  | .staticHeader =>
      decide (extHdrBytes ≤ r.pos) && decide (extHdrBytes ≤ r.buf.length)
        && r.tag == some (leBits 16 (memRead r.buf 0 2))
  | .dynamicHeader =>
      decide (extHdrBytes ≤ r.pos) && decide (extHdrBytes ≤ r.buf.length) && r.tag == none

/-- The invariants of `WrState` (R30): a tagged writer keeps its reserved region and its tag. DESIGN CHOICE (log 17):
bytes at and past `pos` are not constrained. Every writer the block makes holds 0x00 there, as R30 says of a byte not
yet written; a writer the host made up with other bytes there is accepted, and the command runs on it. -/
def wrOk (w : WrState) : Bool :=
  decide (w.pos ≤ w.buf.length) &&
  match w.tag with
  | none => true
  | some t =>
      decide (wrMinSize ≤ w.pos) && memRead w.buf 0 4 == zeros 4 && memRead w.buf 4 2 == bytesLe 2 t

/-- An event's reader meets its invariants (R28, R88). -/
def eventOk : Event → Bool
  | .handshake _ _ _ _ _ => true
  | .packet r => rdOk r

/-- Whether a value belongs to its type: a unit state meets the invariants of the type. DESIGN CHOICE (log 11): a
value that breaks them is no value of the type. -/
def valueOk : Value → Bool
  | .sc c => scOk c
  | .rd r => rdOk r
  | .wr w => wrOk w
  | .events evs => evs.all eventOk
  | _ => true

/-- The all-zero transform state. -/
def zeroBt : BtState := ⟨Vector.replicate 32 0⟩

/-- The all-zero cipher state. -/
def zeroSc : ScState := ⟨false, none, zeroBt, none⟩

/-- The all-zero reader state. -/
def zeroRd : RdState := ⟨[], 0, .noHeader, none⟩

/-- The all-zero writer state. -/
def zeroWr : WrState := ⟨[], 0, none⟩

/-- The zero value of each type. DESIGN CHOICE (log 3): what stands for operand words of zeros. -/
def zeroValue : Ty → Value
  | .u8 => .u8 0
  | .i8 => .i8 0
  | .u16 => .u16 0
  | .i16 => .i16 0
  | .u32 => .u32 0
  | .i32 => .i32 0
  | .u64 => .u64 0
  | .i64 => .i64 0
  | .nat => .nat 0
  | .int => .int 0
  | .bool => .bool false
  | .bytes => .bytes []
  | .bytes4 => .bytes4 (Vector.replicate 4 0)
  | .bytes16 => .bytes16 (Vector.replicate 16 0)
  | .mode => .mode 0
  | .optU16 => .optU16 none
  | .optInt => .optInt none
  | .vec => .vec none
  | .bt => .bt zeroBt
  | .sc => .sc zeroSc
  | .rd => .rd zeroRd
  | .wr => .wr zeroWr
  | .hostConnect => .hostConnect .opened
  | .hostRead => .hostRead (.data [])
  | .hostWrite => .hostWrite .allAccepted
  | .events => .events []

end Sys2Proof.Machine
end

