-- ==== Sys2Proof/WellFormed.lean ====
section
/-! DEFINITION. Well-formed instructions: every unit state among the operands meets the invariants of its type
(10_state.md R26, R28, R30; log 11). Every other operand type admits all its values (R11, R79). -/

namespace Sys2Proof

open Sys2Proof.Machine in
/-- Whether the operands of an instruction are values of the types R78 lists for it. -/
def Instr.wf : Instr → Bool
  | .vecInit _ _ => true
  | .vecBytes _ => true
  | .vecHigh _ => true
  | .vecShuffle _ => true
  | .btNew _ => true
  | .btBlock _ _ => true
  | .scNew _ => true
  | .scInit c _ _ => scOk c
  | .scEncrypt c _ _ => scOk c
  | .scDecrypt c _ => scOk c
  | .scQuery c => scOk c
  | .rdNew _ _ => true
  | .rdI8 r => rdOk r
  | .rdU8 r => rdOk r
  | .rdI16 r => rdOk r
  | .rdU16 r => rdOk r
  | .rdI32 r => rdOk r
  | .rdU32 r => rdOk r
  | .rdI64 r => rdOk r
  | .rdU64 r => rdOk r
  | .rdBool r => rdOk r
  | .rdBytes r _ => rdOk r
  | .rdStr r => rdOk r
  | .rdFstr r _ _ => rdOk r
  | .rdGoto r _ => rdOk r
  | .rdSkip r _ => rdOk r
  | .rdTowire r => rdOk r
  | .rdExthdr r => rdOk r
  | .rdPos r => rdOk r
  | .rdAbslen r => rdOk r
  | .rdDatalen r => rdOk r
  | .rdTag r => rdOk r
  | .wrNew _ _ => true
  | .wrI8 w _ => wrOk w
  | .wrU8 w _ => wrOk w
  | .wrI16 w _ => wrOk w
  | .wrU16 w _ => wrOk w
  | .wrI32 w _ => wrOk w
  | .wrU32 w _ => wrOk w
  | .wrI64 w _ => wrOk w
  | .wrU64 w _ => wrOk w
  | .wrBool w _ => wrOk w
  | .wrBytes w _ => wrOk w
  | .wrStr w _ => wrOk w
  | .wrFstr w _ _ => wrOk w
  | .wrTowire w => wrOk w
  | .wrPos w => wrOk w
  | .wrAbslen w => wrOk w
  | .wrDatalen w => wrOk w
  | .sesConnect _ _ => true
  | .sesReceive _ => true
  | .sesSend w _ => wrOk w
  | .sesFramehdr _ _ => true
  | .sesClose => true
  | .sesStatus => true

end Sys2Proof
end

