-- ==== Sys2Proof/Decode.lean ====
section
/-! DEFINITION. The decoder of 30_encoding.md R75 to R86, total on any word and any operand record, rejecting by
name; then the encoder, written from the same table. -/

namespace Sys2Proof

open Sys2Proof.Machine

/-- Why a command does not decode. Every one of them is the error `ILLEGAL` (R80, R77, R86, R282). -/
inductive DecodeError where
  /-- The `UNIT` field is 0x00 or 0x07..0xFF (R80). -/
  | reservedUnit
  /-- The `FUNC` field is not listed for the unit (R80). -/
  | reservedFunc
  /-- The operand record has the wrong number of operands (R77). -/
  | operandCount
  /-- An operand has another type than R78 lists (R77). -/
  | operandType
  /-- A `Mode` operand lies outside 0..2 (R86). -/
  | modeRange
  /-- A unit state operand breaks the invariants of its type (log 11). -/
  | operandInvariant
deriving DecidableEq, Repr

/-- The words of unit VEC (R78). -/
def vecWords : List (BitVec 16 × Opcode) :=
  [(0x0101, .vecInit), (0x0102, .vecBytes), (0x0103, .vecHigh), (0x0104, .vecShuffle)]

/-- The words of unit BT (R78). -/
def btWords : List (BitVec 16 × Opcode) :=
  [(0x0201, .btNew), (0x0202, .btBlock)]

/-- The words of unit SC (R78). -/
def scWords : List (BitVec 16 × Opcode) :=
  [(0x0301, .scNew), (0x0302, .scInit), (0x0303, .scEncrypt), (0x0304, .scDecrypt),
   (0x0305, .scQuery)]

/-- The words of unit RD (R78). -/
def rdWords : List (BitVec 16 × Opcode) :=
  [(0x0401, .rdNew), (0x0410, .rdI8), (0x0411, .rdU8), (0x0412, .rdI16),
   (0x0413, .rdU16), (0x0414, .rdI32), (0x0415, .rdU32), (0x0416, .rdI64),
   (0x0417, .rdU64), (0x0418, .rdBool), (0x0419, .rdBytes), (0x041A, .rdStr),
   (0x041B, .rdFstr), (0x0420, .rdGoto), (0x0421, .rdSkip), (0x0430, .rdTowire),
   (0x0431, .rdExthdr), (0x0440, .rdPos), (0x0441, .rdAbslen), (0x0442, .rdDatalen),
   (0x0443, .rdTag)]

/-- The words of unit WR (R78). -/
def wrWords : List (BitVec 16 × Opcode) :=
  [(0x0501, .wrNew), (0x0510, .wrI8), (0x0511, .wrU8), (0x0512, .wrI16),
   (0x0513, .wrU16), (0x0514, .wrI32), (0x0515, .wrU32), (0x0516, .wrI64),
   (0x0517, .wrU64), (0x0518, .wrBool), (0x0519, .wrBytes), (0x051A, .wrStr),
   (0x051B, .wrFstr), (0x0530, .wrTowire), (0x0540, .wrPos), (0x0541, .wrAbslen),
   (0x0542, .wrDatalen)]

/-- The words of unit SES (R78). -/
def sesWords : List (BitVec 16 × Opcode) :=
  [(0x0601, .sesConnect), (0x0602, .sesReceive), (0x0603, .sesSend), (0x0604, .sesFramehdr),
   (0x0605, .sesClose), (0x0610, .sesStatus)]

/-- The opcode map of R78, unit by unit; every row is selected by the whole word (R76). -/
def opcodeTable : List (BitVec 16 × Opcode) :=
  vecWords ++ btWords ++ scWords ++ rdWords ++ wrWords ++ sesWords

/-- The `UNIT` field of a command word (R76). -/
def unitField (w : BitVec 16) : BitVec 8 := w.extractLsb' 8 8

/-- The `FUNC` field of a command word (R76). -/
def funcField (w : BitVec 16) : BitVec 8 := w.extractLsb' 0 8

/-- The row of the opcode map that a word selects. -/
def lookupWord (w : BitVec 16) : List (BitVec 16 × Opcode) → Option Opcode
  | [] => none
  | (v, op) :: rest => if v = w then some op else lookupWord w rest

/-- The command a word identifies (R82), or the reserved field that makes it illegal (R80). -/
def decodeWord (w : BitVec 16) : Except DecodeError Opcode :=
  match lookupWord w opcodeTable with
  | some op => .ok op
  | none =>
    if 1 ≤ (unitField w).toNat ∧ (unitField w).toNat ≤ 6 then .error .reservedFunc
    else .error .reservedUnit

/-- The instruction an operand record gives under a command: each operand taken whole (R79). -/
def assemble (op : Opcode) (ops : List Value) : Except DecodeError Instr :=
  match op with
  | .vecInit =>
    match ops with
    | [.vec v, .u32 raw] => .ok (.vecInit v raw)
    | _ => .error .operandType
  | .vecBytes =>
    match ops with
    | [.vec v] => .ok (.vecBytes v)
    | _ => .error .operandType
  | .vecHigh =>
    match ops with
    | [.vec v] => .ok (.vecHigh v)
    | _ => .error .operandType
  | .vecShuffle =>
    match ops with
    | [.vec v] => .ok (.vecShuffle v)
    | _ => .error .operandType
  | .btNew =>
    match ops with
    | [.u64 secret] => .ok (.btNew secret)
    | _ => .error .operandType
  | .btBlock =>
    match ops with
    | [.bt t, .bytes16 block] => .ok (.btBlock t block)
    | _ => .error .operandType
  | .scNew =>
    match ops with
    | [.u64 secret] => .ok (.scNew secret)
    | _ => .error .operandType
  | .scInit =>
    match ops with
    | [.sc c, .u32 iv, .u16 gameVersion] => .ok (.scInit c iv gameVersion)
    | _ => .error .operandType
  | .scEncrypt =>
    match ops with
    | [.sc c, .bytes buf, .nat payloadOffset] => .ok (.scEncrypt c buf payloadOffset)
    | _ => .error .operandType
  | .scDecrypt =>
    match ops with
    | [.sc c, .bytes buf] => .ok (.scDecrypt c buf)
    | _ => .error .operandType
  | .scQuery =>
    match ops with
    | [.sc c] => .ok (.scQuery c)
    | _ => .error .operandType
  | .rdNew =>
    match ops with
    | [.bytes buf, .mode code] =>
        match modeOfCode code with
        | some m => .ok (.rdNew buf m)
        | none => .error .modeRange
    | _ => .error .operandType
  | .rdI8 =>
    match ops with
    | [.rd r] => .ok (.rdI8 r)
    | _ => .error .operandType
  | .rdU8 =>
    match ops with
    | [.rd r] => .ok (.rdU8 r)
    | _ => .error .operandType
  | .rdI16 =>
    match ops with
    | [.rd r] => .ok (.rdI16 r)
    | _ => .error .operandType
  | .rdU16 =>
    match ops with
    | [.rd r] => .ok (.rdU16 r)
    | _ => .error .operandType
  | .rdI32 =>
    match ops with
    | [.rd r] => .ok (.rdI32 r)
    | _ => .error .operandType
  | .rdU32 =>
    match ops with
    | [.rd r] => .ok (.rdU32 r)
    | _ => .error .operandType
  | .rdI64 =>
    match ops with
    | [.rd r] => .ok (.rdI64 r)
    | _ => .error .operandType
  | .rdU64 =>
    match ops with
    | [.rd r] => .ok (.rdU64 r)
    | _ => .error .operandType
  | .rdBool =>
    match ops with
    | [.rd r] => .ok (.rdBool r)
    | _ => .error .operandType
  | .rdBytes =>
    match ops with
    | [.rd r, .nat n] => .ok (.rdBytes r n)
    | _ => .error .operandType
  | .rdStr =>
    match ops with
    | [.rd r] => .ok (.rdStr r)
    | _ => .error .operandType
  | .rdFstr =>
    match ops with
    | [.rd r, .nat n, .bool trim] => .ok (.rdFstr r n trim)
    | _ => .error .operandType
  | .rdGoto =>
    match ops with
    | [.rd r, .int index] => .ok (.rdGoto r index)
    | _ => .error .operandType
  | .rdSkip =>
    match ops with
    | [.rd r, .int n] => .ok (.rdSkip r n)
    | _ => .error .operandType
  | .rdTowire =>
    match ops with
    | [.rd r] => .ok (.rdTowire r)
    | _ => .error .operandType
  | .rdExthdr =>
    match ops with
    | [.rd r] => .ok (.rdExthdr r)
    | _ => .error .operandType
  | .rdPos =>
    match ops with
    | [.rd r] => .ok (.rdPos r)
    | _ => .error .operandType
  | .rdAbslen =>
    match ops with
    | [.rd r] => .ok (.rdAbslen r)
    | _ => .error .operandType
  | .rdDatalen =>
    match ops with
    | [.rd r] => .ok (.rdDatalen r)
    | _ => .error .operandType
  | .rdTag =>
    match ops with
    | [.rd r] => .ok (.rdTag r)
    | _ => .error .operandType
  | .wrNew =>
    match ops with
    | [.optInt tag, .optInt size] => .ok (.wrNew tag size)
    | _ => .error .operandType
  | .wrI8 =>
    match ops with
    | [.wr w, .i8 v] => .ok (.wrI8 w v)
    | _ => .error .operandType
  | .wrU8 =>
    match ops with
    | [.wr w, .u8 v] => .ok (.wrU8 w v)
    | _ => .error .operandType
  | .wrI16 =>
    match ops with
    | [.wr w, .i16 v] => .ok (.wrI16 w v)
    | _ => .error .operandType
  | .wrU16 =>
    match ops with
    | [.wr w, .u16 v] => .ok (.wrU16 w v)
    | _ => .error .operandType
  | .wrI32 =>
    match ops with
    | [.wr w, .i32 v] => .ok (.wrI32 w v)
    | _ => .error .operandType
  | .wrU32 =>
    match ops with
    | [.wr w, .u32 v] => .ok (.wrU32 w v)
    | _ => .error .operandType
  | .wrI64 =>
    match ops with
    | [.wr w, .i64 v] => .ok (.wrI64 w v)
    | _ => .error .operandType
  | .wrU64 =>
    match ops with
    | [.wr w, .u64 v] => .ok (.wrU64 w v)
    | _ => .error .operandType
  | .wrBool =>
    match ops with
    | [.wr w, .bool v] => .ok (.wrBool w v)
    | _ => .error .operandType
  | .wrBytes =>
    match ops with
    | [.wr w, .bytes b] => .ok (.wrBytes w b)
    | _ => .error .operandType
  | .wrStr =>
    match ops with
    | [.wr w, .bytes t] => .ok (.wrStr w t)
    | _ => .error .operandType
  | .wrFstr =>
    match ops with
    | [.wr w, .bytes t, .nat n] => .ok (.wrFstr w t n)
    | _ => .error .operandType
  | .wrTowire =>
    match ops with
    | [.wr w] => .ok (.wrTowire w)
    | _ => .error .operandType
  | .wrPos =>
    match ops with
    | [.wr w] => .ok (.wrPos w)
    | _ => .error .operandType
  | .wrAbslen =>
    match ops with
    | [.wr w] => .ok (.wrAbslen w)
    | _ => .error .operandType
  | .wrDatalen =>
    match ops with
    | [.wr w] => .ok (.wrDatalen w)
    | _ => .error .operandType
  | .sesConnect =>
    match ops with
    | [.bytes endpoint, .hostConnect h] => .ok (.sesConnect endpoint h)
    | _ => .error .operandType
  | .sesReceive =>
    match ops with
    | [.hostRead h] => .ok (.sesReceive h)
    | _ => .error .operandType
  | .sesSend =>
    match ops with
    | [.wr w, .hostWrite h] => .ok (.sesSend w h)
    | _ => .error .operandType
  | .sesFramehdr =>
    match ops with
    | [.bytes buf, .nat payloadLength] => .ok (.sesFramehdr buf payloadLength)
    | _ => .error .operandType
  | .sesClose =>
    match ops with
    | [] => .ok (.sesClose)
    | _ => .error .operandType
  | .sesStatus =>
    match ops with
    | [] => .ok (.sesStatus)
    | _ => .error .operandType

/-- Decode a command (R81, R282): the word, then the count and the types of the operand record, then the `Mode`
encoding, then the invariants of the unit state types. -/
def decode (c : Command) : Except DecodeError Instr :=
  match decodeWord c.word with
  | .error e => .error e
  | .ok op =>
    if c.operands.length ≠ (operandTypes op).length then .error .operandCount
    else if c.operands.map valueTy ≠ operandTypes op then .error .operandType
    else
      match assemble op c.operands with
      | .error e => .error e
      | .ok i => if i.wf then .ok i else .error .operandInvariant

/-- The command an instruction is an instance of. -/
def Instr.opcode : Instr → Opcode
  | .vecInit _ _ => .vecInit
  | .vecBytes _ => .vecBytes
  | .vecHigh _ => .vecHigh
  | .vecShuffle _ => .vecShuffle
  | .btNew _ => .btNew
  | .btBlock _ _ => .btBlock
  | .scNew _ => .scNew
  | .scInit _ _ _ => .scInit
  | .scEncrypt _ _ _ => .scEncrypt
  | .scDecrypt _ _ => .scDecrypt
  | .scQuery _ => .scQuery
  | .rdNew _ _ => .rdNew
  | .rdI8 _ => .rdI8
  | .rdU8 _ => .rdU8
  | .rdI16 _ => .rdI16
  | .rdU16 _ => .rdU16
  | .rdI32 _ => .rdI32
  | .rdU32 _ => .rdU32
  | .rdI64 _ => .rdI64
  | .rdU64 _ => .rdU64
  | .rdBool _ => .rdBool
  | .rdBytes _ _ => .rdBytes
  | .rdStr _ => .rdStr
  | .rdFstr _ _ _ => .rdFstr
  | .rdGoto _ _ => .rdGoto
  | .rdSkip _ _ => .rdSkip
  | .rdTowire _ => .rdTowire
  | .rdExthdr _ => .rdExthdr
  | .rdPos _ => .rdPos
  | .rdAbslen _ => .rdAbslen
  | .rdDatalen _ => .rdDatalen
  | .rdTag _ => .rdTag
  | .wrNew _ _ => .wrNew
  | .wrI8 _ _ => .wrI8
  | .wrU8 _ _ => .wrU8
  | .wrI16 _ _ => .wrI16
  | .wrU16 _ _ => .wrU16
  | .wrI32 _ _ => .wrI32
  | .wrU32 _ _ => .wrU32
  | .wrI64 _ _ => .wrI64
  | .wrU64 _ _ => .wrU64
  | .wrBool _ _ => .wrBool
  | .wrBytes _ _ => .wrBytes
  | .wrStr _ _ => .wrStr
  | .wrFstr _ _ _ => .wrFstr
  | .wrTowire _ => .wrTowire
  | .wrPos _ => .wrPos
  | .wrAbslen _ => .wrAbslen
  | .wrDatalen _ => .wrDatalen
  | .sesConnect _ _ => .sesConnect
  | .sesReceive _ => .sesReceive
  | .sesSend _ _ => .sesSend
  | .sesFramehdr _ _ => .sesFramehdr
  | .sesClose => .sesClose
  | .sesStatus => .sesStatus

/-- The operand record of an instruction, in the order of R78. -/
def Instr.operands : Instr → List Value
  | .vecInit v raw => [.vec v, .u32 raw]
  | .vecBytes v => [.vec v]
  | .vecHigh v => [.vec v]
  | .vecShuffle v => [.vec v]
  | .btNew secret => [.u64 secret]
  | .btBlock t block => [.bt t, .bytes16 block]
  | .scNew secret => [.u64 secret]
  | .scInit c iv gameVersion => [.sc c, .u32 iv, .u16 gameVersion]
  | .scEncrypt c buf payloadOffset => [.sc c, .bytes buf, .nat payloadOffset]
  | .scDecrypt c buf => [.sc c, .bytes buf]
  | .scQuery c => [.sc c]
  | .rdNew buf mode => [.bytes buf, .mode (modeCode mode)]
  | .rdI8 r => [.rd r]
  | .rdU8 r => [.rd r]
  | .rdI16 r => [.rd r]
  | .rdU16 r => [.rd r]
  | .rdI32 r => [.rd r]
  | .rdU32 r => [.rd r]
  | .rdI64 r => [.rd r]
  | .rdU64 r => [.rd r]
  | .rdBool r => [.rd r]
  | .rdBytes r n => [.rd r, .nat n]
  | .rdStr r => [.rd r]
  | .rdFstr r n trim => [.rd r, .nat n, .bool trim]
  | .rdGoto r index => [.rd r, .int index]
  | .rdSkip r n => [.rd r, .int n]
  | .rdTowire r => [.rd r]
  | .rdExthdr r => [.rd r]
  | .rdPos r => [.rd r]
  | .rdAbslen r => [.rd r]
  | .rdDatalen r => [.rd r]
  | .rdTag r => [.rd r]
  | .wrNew tag size => [.optInt tag, .optInt size]
  | .wrI8 w v => [.wr w, .i8 v]
  | .wrU8 w v => [.wr w, .u8 v]
  | .wrI16 w v => [.wr w, .i16 v]
  | .wrU16 w v => [.wr w, .u16 v]
  | .wrI32 w v => [.wr w, .i32 v]
  | .wrU32 w v => [.wr w, .u32 v]
  | .wrI64 w v => [.wr w, .i64 v]
  | .wrU64 w v => [.wr w, .u64 v]
  | .wrBool w v => [.wr w, .bool v]
  | .wrBytes w b => [.wr w, .bytes b]
  | .wrStr w t => [.wr w, .bytes t]
  | .wrFstr w t n => [.wr w, .bytes t, .nat n]
  | .wrTowire w => [.wr w]
  | .wrPos w => [.wr w]
  | .wrAbslen w => [.wr w]
  | .wrDatalen w => [.wr w]
  | .sesConnect endpoint h => [.bytes endpoint, .hostConnect h]
  | .sesReceive h => [.hostRead h]
  | .sesSend w h => [.wr w, .hostWrite h]
  | .sesFramehdr buf payloadLength => [.bytes buf, .nat payloadLength]
  | .sesClose => []
  | .sesStatus => []

/-- The word of a command (R78). -/
def Opcode.word : Opcode → BitVec 16
  | .vecInit => 0x0101
  | .vecBytes => 0x0102
  | .vecHigh => 0x0103
  | .vecShuffle => 0x0104
  | .btNew => 0x0201
  | .btBlock => 0x0202
  | .scNew => 0x0301
  | .scInit => 0x0302
  | .scEncrypt => 0x0303
  | .scDecrypt => 0x0304
  | .scQuery => 0x0305
  | .rdNew => 0x0401
  | .rdI8 => 0x0410
  | .rdU8 => 0x0411
  | .rdI16 => 0x0412
  | .rdU16 => 0x0413
  | .rdI32 => 0x0414
  | .rdU32 => 0x0415
  | .rdI64 => 0x0416
  | .rdU64 => 0x0417
  | .rdBool => 0x0418
  | .rdBytes => 0x0419
  | .rdStr => 0x041A
  | .rdFstr => 0x041B
  | .rdGoto => 0x0420
  | .rdSkip => 0x0421
  | .rdTowire => 0x0430
  | .rdExthdr => 0x0431
  | .rdPos => 0x0440
  | .rdAbslen => 0x0441
  | .rdDatalen => 0x0442
  | .rdTag => 0x0443
  | .wrNew => 0x0501
  | .wrI8 => 0x0510
  | .wrU8 => 0x0511
  | .wrI16 => 0x0512
  | .wrU16 => 0x0513
  | .wrI32 => 0x0514
  | .wrU32 => 0x0515
  | .wrI64 => 0x0516
  | .wrU64 => 0x0517
  | .wrBool => 0x0518
  | .wrBytes => 0x0519
  | .wrStr => 0x051A
  | .wrFstr => 0x051B
  | .wrTowire => 0x0530
  | .wrPos => 0x0540
  | .wrAbslen => 0x0541
  | .wrDatalen => 0x0542
  | .sesConnect => 0x0601
  | .sesReceive => 0x0602
  | .sesSend => 0x0603
  | .sesFramehdr => 0x0604
  | .sesClose => 0x0605
  | .sesStatus => 0x0610

/-- Encode an instruction: its word and its operand record. -/
def encode (i : Instr) : Command := ⟨i.opcode.word, i.operands⟩

/-- The command of a table word: the word with the operand record of zero values that R78 gives it. DESIGN CHOICE
(log 3). A reserved word gets an empty record. -/
def tableCommand (w : Nat) : Command :=
  ⟨BitVec.ofNat 16 w,
   match lookupWord (BitVec.ofNat 16 w) opcodeTable with
   | some op => (operandTypes op).map zeroValue
   | none => []⟩

/-- The instruction the decoder reads from a row of the opcode table: every row has 16 bits (R82). -/
def decodeTableWord (nbits w : Nat) : Option Instr :=
  if nbits = 16 ∧ w < 2 ^ 16 then
    match decode (tableCommand w) with
    | .ok i => some i
    | .error _ => none
  else none

end Sys2Proof
end

