-- ==== Sys2Proof/Config.lean ====
section
/-! DEFINITION. The four implementation parameters of 00_scope.md R5. The spec leaves each of them open and has
the model take it as an argument: every operation below takes a `Params`, and the machine runs under
`Config.params`, made of constants that have no body. -/

namespace Sys2Proof

/-- The vector bytes `04 03 02 01`, at which `SHUFFLE` has its one named property (R6). -/
def shuffleWitness : BytesN 4 := #v[0x04, 0x03, 0x02, 0x01]

/-- The parameters of a block instance (R5), with what the spec requires of them (R6, R9). -/
structure Params where
  /-- `SHUFFLE : Bytes4 → Bytes4` (R6). -/
  shuffle : BytesN 4 → BytesN 4
  /-- `BLOCK_ENCRYPT : Bytes32 → Bytes16 → Bytes16` (R7). -/
  blockEncrypt : BytesN 32 → BytesN 16 → BytesN 16
  /-- `SECRET`, 64 bits (R8). -/
  secret : BitVec 64
  /-- `RECV_CAPACITY`, in bytes (R9). -/
  recvCapacity : Nat
  /-- The one property assumed of `SHUFFLE` (R6). -/
  shuffle_ne : shuffle shuffleWitness ≠ shuffleWitness
  /-- `RECV_CAPACITY ≥ 6` (R9). -/
  capacity_ge : 6 ≤ recvCapacity

/-- DESIGN CHOICE (log 6), safe: an uninterpreted function from which `Config.shuffle` is made. -/
opaque Config.freeShuffle : BytesN 4 → BytesN 4

/-- DESIGN CHOICE (log 6), safe: an uninterpreted vector, used only where `freeShuffle` would fix the witness. -/
opaque Config.freeVector : BytesN 4

/-- DESIGN CHOICE (log 7), safe: `BLOCK_ENCRYPT` is uninterpreted (R7). -/
opaque Config.blockEncrypt : BytesN 32 → BytesN 16 → BytesN 16

/-- DESIGN CHOICE (log 8), safe: `SECRET` is uninterpreted (R8). -/
opaque Config.secret : BitVec 64

/-- DESIGN CHOICE (log 9), safe: how far `RECV_CAPACITY` lies above its lower bound (R9). -/
opaque Config.extraCapacity : Nat

/-- `SHUFFLE`: any function at all, but for its value at `04 03 02 01`, which is any vector other than
`04 03 02 01` (R6; log 6). -/
def Config.shuffle (b : BytesN 4) : BytesN 4 :=
  if b = shuffleWitness ∧ Config.freeShuffle b = shuffleWitness then
    if Config.freeVector = shuffleWitness then #v[0, 0, 0, 0] else Config.freeVector
  else Config.freeShuffle b

/-- The one property R6 names. -/
theorem Config.shuffle_ne : Config.shuffle shuffleWitness ≠ shuffleWitness := by
  unfold Config.shuffle
  split
  · split
    · decide
    · assumption
  · rename_i h
    simpa using h

/-- The parameters the machine runs under (R5): nothing is known of them but `shuffle_ne` and `capacity_ge`. -/
def Config.params : Params where
  shuffle := Config.shuffle
  blockEncrypt := Config.blockEncrypt
  secret := Config.secret
  recvCapacity := 6 + Config.extraCapacity
  shuffle_ne := Config.shuffle_ne
  capacity_ge := Nat.le_add_right 6 _

end Sys2Proof
end

