-- ==== Sys2Proof/Machine/Errors.lean ====
section
/-! DEFINITION. The error kinds and codes of 60_exceptions.md R272. -/

namespace Sys2Proof.Machine

/-- The eight error kinds (R272). An error is a result of a command, not a stop of the machine (R270). -/
inductive ErrCode where
  | bounds
  | uninit
  | conn
  | framing
  | validation
  | state
  | handshake
  | illegal
deriving DecidableEq, Repr

/-- The 8-bit code of each kind (R272). -/
def ErrCode.code : ErrCode → BitVec 8
  | .bounds => 1
  | .uninit => 2
  | .conn => 3
  | .framing => 4
  | .validation => 5
  | .state => 6
  | .handshake => 7
  | .illegal => 8

end Sys2Proof.Machine
end

