-- ==== Sys2Proof/Machine/VectorOps.lean ====
section
/-! DEFINITION. The operations of units VEC and BT on their values: 41_vector_transform.md. -/

namespace Sys2Proof.Machine

/-- The vector that holds the bytes of `raw` (R100, R54). -/
def vecOfRaw (raw : BitVec 32) : VecState := some (bytesLe32 raw)

/-- The vector's four bytes, or `UNINIT` (R101). -/
def vecBytes : VecState → Except ErrCode (BytesN 4)
  | none => .error .uninit
  | some b => .ok b

/-- The high-order 16 bits of the vector's value, or `UNINIT` (R102). -/
def vecHigh : VecState → Except ErrCode (BitVec 16)
  | none => .error .uninit
  | some b => .ok (le16 b[2] b[3])

/-- The vector after one shuffle, or `UNINIT` (R103). -/
def vecShuffle (p : Params) : VecState → Except ErrCode VecState
  | none => .error .uninit
  | some b => .ok (some (p.shuffle b))

/-- `expand_key`: byte `i` of the reversed secret stands at key position `4i`, every other byte is 0 (R105, R106). -/
def expandKey (secret : BitVec 64) : BytesN 32 :=
  Vector.ofFn fun j : Fin 32 =>
    if j.val % keyStride = 0 then (bytesBe64 secret)[j.val / 4] else 0

/-- A block transform keyed from a secret (R107). -/
def btNew (secret : BitVec 64) : BtState := ⟨expandKey secret⟩

/-- One block encrypted under the transform's key (R108). -/
def btBlock (p : Params) (t : BtState) (block : BytesN 16) : BytesN 16 := p.blockEncrypt t.key block

/-- `tile(b)`: the vector's bytes four times (R109). -/
def tile (b : BytesN 4) : BytesN 16 := b ++ b ++ b ++ b

/-- `E_K^j(x)`: the block cipher iterated `j` times (R109). -/
def iterBlock (p : Params) (key : BytesN 32) : Nat → BytesN 16 → BytesN 16
  | 0, x => x
  | j + 1, x => p.blockEncrypt key (iterBlock p key j x)

end Sys2Proof.Machine
end

