-- ==== Sys2Proof/Machine/CipherOps.lean ====
section
/-! DEFINITION. The operations of unit SC on its values: 42_stream_cipher.md. -/

namespace Sys2Proof.Machine

/-- A cipher keyed from a secret and not initialized (R120, R27). -/
def scNew (secret : BitVec 64) : ScState :=
  { initialized := false, vector := none, bt := btNew secret, gameVersion := none }

/-- The cipher seeded with a vector and a version (R121). -/
def scInit (c : ScState) (iv : BitVec 32) (gameVersion : BitVec 16) : ScState :=
  { c with vector := vecOfRaw iv, gameVersion := some gameVersion, initialized := true }

/-- One chunk from chunk position `i` on, with working block `w`: at every position that is a multiple of 16 the
working block is encrypted first, then the byte is XORed with the block's byte at that position (R124). -/
def cryptChunk (p : Params) (key : BytesN 32) : BytesN 16 → Nat → Bytes → Bytes
  | _, _, [] => []
  | w, i, x :: xs =>
    let w' := if i % 16 = 0 then p.blockEncrypt key w else w
    (x ^^^ w'[i % 16]'(Nat.mod_lt i (by decide))) :: cryptChunk p key w' (i + 1) xs

/-- The chunk loop of `crypt` over the bytes of the range: a first chunk of at most 1456 bytes, later chunks of at
most 1460, each from a working block tiled anew (R122, R123, R124, R126). The first argument bounds the number of
chunks; the number of bytes is enough. -/
def cryptRange (p : Params) (key : BytesN 32) (v : BytesN 4) : Nat → Bool → Bytes → Bytes
  | 0, _, _ => []
  | k + 1, first, data =>
    if data.isEmpty then []
    else
      let n := min data.length (if first then chunkFirst else chunkNext)
      cryptChunk p key (tile v) 0 (data.take n) ++ cryptRange p key v k false (data.drop n)

/-- `crypt` (R126): the bytes of `[offset, offset + amount)` XORed with the keystream, all others unchanged, and the
vector shuffled once, whatever the amount (R125). A cipher without a vector has no keystream: `UNINIT`, in a state
that 10_state.md R26 rules out (log 14). -/
def crypt (p : Params) (c : ScState) (buf : Bytes) (offset amount : Nat) :
    Except ErrCode (ScState × Bytes) :=
  match c.vector with
  | none => .error .uninit
  | some v =>
    .ok ({ c with vector := some (p.shuffle v) },
      buf.take offset
        ++ cryptRange p c.bt.key v amount true (memRead buf offset amount)
        ++ buf.drop (offset + amount))

/-- `SC_ENCRYPT`: `UNINIT` first, then `BOUNDS`, then `crypt` from the offset to the end (R127). -/
def scEncrypt (p : Params) (c : ScState) (buf : Bytes) (payloadOffset : Nat) :
    Except ErrCode (ScState × Bytes) :=
  if c.initialized = false then .error .uninit
  else if payloadOffset > buf.length then .error .bounds
  else crypt p c buf payloadOffset (buf.length - payloadOffset)

/-- `SC_DECRYPT`: `UNINIT`, then `crypt` over the whole buffer (R128). -/
def scDecrypt (p : Params) (c : ScState) (buf : Bytes) : Except ErrCode (ScState × Bytes) :=
  if c.initialized = false then .error .uninit
  else crypt p c buf 0 buf.length

/-- The keystream byte at range offset `q`, in closed form (R130). -/
def keystream (p : Params) (key : BytesN 32) (v : BytesN 4) (q : Nat) : Byte :=
  let i := if q < chunkFirst then q else (q - chunkFirst) % chunkNext
  (iterBlock p key (i / 16 + 1) (tile v))[i % 16]'(Nat.mod_lt i (by decide))

end Sys2Proof.Machine
end

