-- ==== Sys2Proof/Machine/Memory.lean ====
section
/-! DEFINITION. The cells of a byte space as a list of (address, byte) pairs in one canonical form: addresses
strictly rising, and a cell that holds no value is not listed (10_state.md R32, R33; 20_memory.md R51). -/

namespace Sys2Proof.Machine

/-- The listed cells, lowest address first. -/
abbrev Memory := List Host.Cell

/-- The canonical form: addresses strictly rising. -/
def Memory.wf : Memory → Bool
  | [] => true
  | [_] => true
  | c :: d :: rest => decide (c.1 < d.1) && Memory.wf (d :: rest)

/-- What the cell at an address holds: an unlisted cell holds no value (10_state.md R37; log 10). -/
def Memory.read : Memory → Nat → Option Byte
  | [], _ => none
  | (a, b) :: rest, x => if a = x then some b else Memory.read rest x

/-- Write a byte at an address, keeping the canonical form. -/
def Memory.write : Memory → Nat → Byte → Memory
  | [], x, v => [(x, v)]
  | (a, b) :: rest, x, v =>
    if x < a then (x, v) :: (a, b) :: rest
    else if x = a then (x, v) :: rest
    else (a, b) :: Memory.write rest x v

/-- Write a sequence of bytes at rising addresses. -/
def Memory.store : Memory → Nat → Bytes → Memory
  | m, _, [] => m
  | m, a, b :: bs => Memory.store (Memory.write m a b) (a + 1) bs

end Sys2Proof.Machine
end

