-- ==== Sys2Proof/Machine/State.lean ====
section
/-! DEFINITION. The state of a block instance (10_state.md), the outcome of a command (00_scope.md R14), the reasons
a step can stop, and the state after reset (70_reset_and_hazards.md R310). -/

namespace Sys2Proof.Machine

/-- The modes of a session (R32). -/
inductive SesMode where
  | disconnected
  | connected
  | closed
deriving DecidableEq, Repr

/-- The session state `S` (R32). -/
structure SesState where
  /-- Whether the host's connection stands (R32, R230). -/
  mode : SesMode
  /-- Set once, by the handshake (R34). -/
  handshaken : Bool
  /-- The receive buffer: `RECV_CAPACITY` cells, each with a byte or no value (R32; log 10). -/
  rx : Memory
  /-- How many bytes were received and not yet framed (R32). -/
  fill : Nat
  /-- The cipher of the sending direction (R23, R236). -/
  outbound : ScState
  /-- The cipher of the receiving direction (R23, R236). -/
  inbound : ScState
deriving DecidableEq, Repr

/-- How a command ended (00_scope.md R14, 30_encoding.md R85): its results in the order of R78, or an error code with
the events emitted before the failure, which only `SES_RECEIVE` has. -/
inductive Response where
  | ok (results : List Value)
  | err (code : ErrCode) (events : List Event)
deriving DecidableEq, Repr

/-- The state of a block instance. -/
structure State where
  /-- The session state (R23). -/
  ses : SesState
  /-- The model's own: the commands the host has issued and the block has not yet run, in order (log 1). -/
  pending : List Command
  /-- The model's own: how the most recent command ended, none before the first (log 4). -/
  response : Option Response
  /-- The transmit stream: the bytes the socket has accepted, in order (20_memory.md R51; log 5). -/
  tx : Bytes
deriving DecidableEq, Repr

/-- The faults of the model. The spec has none: a command that detects an error ends with an error result. -/
inductive Fault where
  /-- Raised by `SES_RECEIVE` when a cell of `[0, fill)` holds no value. Safe: R33 item 2 rules it out, and no run
  from reset meets it. -/
  | rxNoValue
  /-- Raised by `SES_RECEIVE` on a receive-buffer cell at or past `RECV_CAPACITY`. Safe: the cell does not exist
  (20_memory.md R51), and no run from reset meets it. -/
  | rxOutOfRange
deriving DecidableEq, Repr

/-- The refusals of the model. -/
inductive Refusal where
  /-- Raised by `exec` for an instruction that has no meaning yet. Safe: the machine stops. No arm raises it now. -/
  | notModelled (mnemonic : String)
deriving DecidableEq, Repr

/-- The session state after reset (R37, R236, R237, R310). -/
def SesState.reset (p : Params) : SesState where
  mode := .disconnected
  handshaken := false
  rx := []
  fill := 0
  outbound := scNew p.secret
  inbound := scNew p.secret

/-- The machine right after reset (R310): the session state of R37, no command issued, nothing sent. -/
def State.reset : State where
  ses := SesState.reset Config.params
  pending := []
  response := none
  tx := []

end Sys2Proof.Machine
end

