-- ==== Sys2Proof/Machine/Ops.lean ====
section
/-! DEFINITION. How a command is fetched and how it ends. Raising an error is the block's only analogue of an
exception (60_exceptions.md R270, R280, R285, R291): `State.raise` for a non-fatal error, `State.raiseFatal` for a
fatal one. There is no return from an error (R291). -/

namespace Sys2Proof.Machine

/-- The outcome of a step of this machine. -/
abbrev Result := Host.Outcome State Fault Refusal

/-- Take the next command the host issued (30_encoding.md R75; log 1). -/
def State.fetch (s : State) : Option (Command × State) :=
  match s.pending with
  | [] => none
  | c :: rest => some (c, { s with pending := rest })

/-- `teardown()` (45_session_framer.md R231). -/
def SesState.teardown (t : SesState) : SesState :=
  { t with mode := .closed, fill := 0, rx := [] }

/-- End a command with `Ok` and its results (00_scope.md R14, R15). -/
def State.succeed (s : State) (results : List Value) : State :=
  { s with response := some (.ok results) }

/-- End a command with a non-fatal error: nothing but the response changes (60_exceptions.md R280 item 1). -/
def State.raise (s : State) (e : ErrCode) : State :=
  { s with response := some (.err e []) }

/-- End a command with a fatal error: the session as the command left it is torn down, and the events emitted before
the failure are returned with the error (60_exceptions.md R280 item 2, R285). -/
def State.raiseFatal (s : State) (e : ErrCode) (t : SesState) (evs : List Event) : State :=
  { s with ses := t.teardown, response := some (.err e evs) }

/-- End a command that acts on values only: results or a non-fatal error (10_state.md R23). -/
def finish (s : State) : Except ErrCode (List Value) → Result
  | .ok results => .next (s.succeed results)
  | .error e => .next (s.raise e)

/-- How a session command ends. -/
inductive SesEnd where
  /-- `Ok`: the new session state, the results, and the bytes the socket accepted. -/
  | done (t : SesState) (results : List Value) (sent : Bytes)
  /-- A non-fatal error. -/
  | raised (e : ErrCode)
  /-- A fatal error: the session state before its teardown, the events emitted, and the bytes the socket accepted. -/
  | fatal (e : ErrCode) (t : SesState) (evs : List Event) (sent : Bytes)
  /-- The model stops. -/
  | fault (f : Fault)
deriving DecidableEq, Repr

/-- End a session command (00_scope.md R15, 60_exceptions.md R280). -/
def finishSes (s : State) : SesEnd → Result
  | .done t results sent => .next ({ s with ses := t, tx := s.tx ++ sent }.succeed results)
  | .raised e => .next (s.raise e)
  | .fatal e t evs sent => .next ({ s with tx := s.tx ++ sent }.raiseFatal e t evs)
  | .fault f => .fault f

end Sys2Proof.Machine
end

