-- ==== Sys2Proof/Machine/Bt.lean ====
section
/-! DEFINITION. The meanings of the commands of unit BT: 41_vector_transform.md. -/

namespace Sys2Proof.Machine

/-- `BT_NEW` (R107): a transform with the expanded key. -/
def execBtNew (secret : BitVec 64) (s : State) : Result :=
  finish s (.ok [.bt (btNew secret)])

/-- `BT_BLOCK` (R108): one block encrypted, the transform unchanged. -/
def execBtBlock (t : BtState) (block : BytesN 16) (s : State) : Result :=
  finish s (.ok [.bytes16 (btBlock Config.params t block)])

end Sys2Proof.Machine
end

