-- ==== Sys2Proof/Machine/ReaderOps.lean ====
section
/-! DEFINITION. The operations of unit RD on reader values: 43_reader.md. A failing operation returns no reader, so
the caller's reader stands (R167). -/

namespace Sys2Proof.Machine

/-- `ext_header(b) = le16(b[0], b[1])` (R164), or `BOUNDS` on fewer than 2 bytes (R173). -/
def extHeader : Bytes → Except ErrCode (BitVec 16)
  | b0 :: b1 :: _ => .ok (le16 b0 b1)
  | _ => .error .bounds

/-- `RD_NEW` (R150). -/
def rdNew (buf : Bytes) : Mode → Except ErrCode RdState
  | .noHeader => .ok { buf := buf, pos := 0, mode := .noHeader, tag := none }
  | .staticHeader =>
    match extHeader buf with
    | .ok t => .ok { buf := buf, pos := extHdrBytes, mode := .staticHeader, tag := some t }
    | .error e => .error e
  | .dynamicHeader =>
    match extHeader buf with
    | .ok _ => .ok { buf := buf, pos := extHdrBytes, mode := .dynamicHeader, tag := none }
    | .error e => .error e

/-- `fits(r, n)`: at least `n` bytes remain (R151). -/
def rdFits (r : RdState) (n : Nat) : Bool := decide (r.pos + n ≤ r.buf.length)

/-- `take(r, n)`: the next `n` bytes, or `BOUNDS` (R152). -/
def rdTake (r : RdState) (n : Nat) : Except ErrCode (RdState × Bytes) :=
  if rdFits r n then .ok ({ r with pos := r.pos + n }, memRead r.buf r.pos n)
  else .error .bounds

/-- A little-endian field of `k` bytes (R153 to R160). -/
def rdBits (k : Nat) (r : RdState) : Except ErrCode (RdState × BitVec (8 * k)) :=
  match rdTake r k with
  | .ok (r', x) => .ok (r', leBits (8 * k) x)
  | .error e => .error e

/-- A boolean: one byte, true when it is not 0x00 (R161). -/
def rdBool (r : RdState) : Except ErrCode (RdState × Bool) :=
  match rdBits 1 r with
  | .ok (r', x) => .ok (r', x != 0)
  | .error e => .error e

/-- A length-prefixed string (R163): both steps check their bounds. -/
def rdStr (r : RdState) : Except ErrCode (RdState × Bytes) :=
  match rdBits 2 r with
  | .ok (r', n) => rdTake r' n.toNat
  | .error e => .error e

/-- The sequence without its trailing 0x00 bytes (R165). -/
def trimNul (x : Bytes) : Bytes := x.rdropWhile (· == 0)

/-- A fixed-length string, with the optional trailing NUL trim (R165). -/
def rdFstr (r : RdState) (n : Nat) (trim : Bool) : Except ErrCode (RdState × Bytes) :=
  match rdTake r n with
  | .ok (r', x) => .ok (r', if trim then trimNul x else x)
  | .error e => .error e

/-- `RD_GOTO` (R176): the range is checked first, then the offset is clamped to 2 in a header mode. -/
def rdGoto (r : RdState) (index : Int) : Except ErrCode RdState :=
  if index < 0 ∨ index > r.buf.length then .error .bounds
  else
    .ok { r with pos := if r.mode ≠ .noHeader ∧ index.toNat < extHdrBytes then extHdrBytes else index.toNat }

/-- `RD_SKIP` (R177). -/
def rdSkip (r : RdState) (n : Int) : Except ErrCode RdState :=
  if n < 1 then .error .bounds
  else if r.pos + n > r.buf.length then .error .bounds
  else .ok { r with pos := r.pos + n.toNat }

/-- `RD_TOWIRE` (R178). -/
def rdToWire (r : RdState) : Bytes :=
  if r.mode = .noHeader then r.buf.take r.pos else r.buf.drop extHdrBytes

/-- `data_length = max(|buf| - 2, 0)`, of readers and writers (R29, R31, R181, R209). -/
def dataLength (buf : Bytes) : Nat := buf.length - 2

end Sys2Proof.Machine
end

