-- ==== Sys2Proof/Machine/Rd.lean ====
section
/-! DEFINITION. The meanings of the commands of unit RD: 43_reader.md. -/

namespace Sys2Proof.Machine

/-- `RD_NEW` (R150): a reader over the buffer. -/
def execRdNew (buf : Bytes) (mode : Mode) (s : State) : Result :=
  finish s ((rdNew buf mode).map fun r => [.rd r])

/-- `RD_I8` (R153): a little-endian i8. -/
def execRdI8 (r : RdState) (s : State) : Result :=
  finish s ((rdBits 1 r).map fun q => [.rd q.1, .i8 q.2])

/-- `RD_U8` (R154): a little-endian u8. -/
def execRdU8 (r : RdState) (s : State) : Result :=
  finish s ((rdBits 1 r).map fun q => [.rd q.1, .u8 q.2])

/-- `RD_I16` (R155): a little-endian i16. -/
def execRdI16 (r : RdState) (s : State) : Result :=
  finish s ((rdBits 2 r).map fun q => [.rd q.1, .i16 q.2])

/-- `RD_U16` (R156): a little-endian u16. -/
def execRdU16 (r : RdState) (s : State) : Result :=
  finish s ((rdBits 2 r).map fun q => [.rd q.1, .u16 q.2])

/-- `RD_I32` (R157): a little-endian i32. -/
def execRdI32 (r : RdState) (s : State) : Result :=
  finish s ((rdBits 4 r).map fun q => [.rd q.1, .i32 q.2])

/-- `RD_U32` (R158): a little-endian u32. -/
def execRdU32 (r : RdState) (s : State) : Result :=
  finish s ((rdBits 4 r).map fun q => [.rd q.1, .u32 q.2])

/-- `RD_I64` (R159): a little-endian i64. -/
def execRdI64 (r : RdState) (s : State) : Result :=
  finish s ((rdBits 8 r).map fun q => [.rd q.1, .i64 q.2])

/-- `RD_U64` (R160): a little-endian u64. -/
def execRdU64 (r : RdState) (s : State) : Result :=
  finish s ((rdBits 8 r).map fun q => [.rd q.1, .u64 q.2])

/-- `RD_BOOL` (R161): any nonzero byte is true. -/
def execRdBool (r : RdState) (s : State) : Result :=
  finish s ((rdBool r).map fun q => [.rd q.1, .bool q.2])

/-- `RD_BYTES` (R162): the next `n` bytes. -/
def execRdBytes (r : RdState) (n : Nat) (s : State) : Result :=
  finish s ((rdTake r n).map fun q => [.rd q.1, .bytes q.2])

/-- `RD_STR` (R163): a length-prefixed string. -/
def execRdStr (r : RdState) (s : State) : Result :=
  finish s ((rdStr r).map fun q => [.rd q.1, .bytes q.2])

/-- `RD_FSTR` (R165): a fixed-length string. -/
def execRdFstr (r : RdState) (n : Nat) (trim : Bool) (s : State) : Result :=
  finish s ((rdFstr r n trim).map fun q => [.rd q.1, .bytes q.2])

/-- `RD_GOTO` (R176): moves the cursor to an offset. -/
def execRdGoto (r : RdState) (index : Int) (s : State) : Result :=
  finish s ((rdGoto r index).map fun r' => [.rd r'])

/-- `RD_SKIP` (R177): moves the cursor forward. -/
def execRdSkip (r : RdState) (n : Int) (s : State) : Result :=
  finish s ((rdSkip r n).map fun r' => [.rd r'])

/-- `RD_TOWIRE` (R178): the wire bytes. -/
def execRdTowire (r : RdState) (s : State) : Result :=
  finish s (.ok [.bytes (rdToWire r)])

/-- `RD_EXTHDR` (R173): the external header, the cursor unmoved. -/
def execRdExthdr (r : RdState) (s : State) : Result :=
  finish s ((extHeader r.buf).map fun x => [.u16 x])

/-- `RD_POS` (R179): the cursor. -/
def execRdPos (r : RdState) (s : State) : Result :=
  finish s (.ok [.nat r.pos])

/-- `RD_ABSLEN` (R180): `absolute_length`. -/
def execRdAbslen (r : RdState) (s : State) : Result :=
  finish s (.ok [.nat r.buf.length])

/-- `RD_DATALEN` (R181): `data_length`. -/
def execRdDatalen (r : RdState) (s : State) : Result :=
  finish s (.ok [.nat (dataLength r.buf)])

/-- `RD_TAG` (R182): the routing tag. -/
def execRdTag (r : RdState) (s : State) : Result :=
  finish s (.ok [.optU16 r.tag])

end Sys2Proof.Machine
end

