-- ==== Sys2Proof/Machine/Sc.lean ====
section
/-! DEFINITION. The meanings of the commands of unit SC: 42_stream_cipher.md. -/

namespace Sys2Proof.Machine

/-- `SC_NEW` (R120): an uninitialized cipher. -/
def execScNew (secret : BitVec 64) (s : State) : Result :=
  finish s (.ok [.sc (scNew secret)])

/-- `SC_INIT` (R121): seeds the vector and records the version. -/
def execScInit (c : ScState) (iv : BitVec 32) (gameVersion : BitVec 16) (s : State) : Result :=
  finish s (.ok [.sc (scInit c iv gameVersion)])

/-- `SC_ENCRYPT` (R127): encrypts from the offset to the end and shuffles once. -/
def execScEncrypt (c : ScState) (buf : Bytes) (payloadOffset : Nat) (s : State) : Result :=
  finish s ((scEncrypt Config.params c buf payloadOffset).map fun q => [.sc q.1, .bytes q.2])

/-- `SC_DECRYPT` (R128): decrypts the whole buffer and shuffles once. -/
def execScDecrypt (c : ScState) (buf : Bytes) (s : State) : Result :=
  finish s ((scDecrypt Config.params c buf).map fun q => [.sc q.1, .bytes q.2])

/-- `SC_QUERY` (R129): reports the state, without a shuffle. -/
def execScQuery (c : ScState) (s : State) : Result :=
  finish s (.ok [.bool c.initialized, .vec c.vector, .optU16 c.gameVersion])

end Sys2Proof.Machine
end

