-- ==== Sys2Proof/Machine/Flags.lean ====
section
/-! DEFINITION. The session's flags and status word: 10_state.md R34, R35. The block has no arithmetic condition
codes (R34). -/

namespace Sys2Proof.Machine

/-- `mode_code` (45_session_framer.md R265). -/
def sesModeCode : SesMode → BitVec 32
  | .disconnected => 0
  | .connected => 1
  | .closed => 2

/-- A flag as a 32-bit value. -/
def flagBit (b : Bool) : BitVec 32 := if b then 1 else 0

/-- `STATUS`: MODE in bits 1:0, HS in bit 2, OUTI in bit 3, INI in bit 4, the rest 0 (R35, R265). -/
def statusWord (t : SesState) : BitVec 32 :=
  sesModeCode t.mode ||| flagBit t.handshaken <<< 2 ||| flagBit t.outbound.initialized <<< 3
    ||| flagBit t.inbound.initialized <<< 4

end Sys2Proof.Machine
end

