-- ==== Sys2Proof/Machine/WriterOps.lean ====
section
/-! DEFINITION. The operations of unit WR on writer values: 44_writer.md. A failing operation returns no writer, so
the caller's writer stands (R211). -/

namespace Sys2Proof.Machine

/-- `WR_NEW` (R190): the tag is checked first, then the size. -/
def wrNew (tag : Option Int) (size : Option Int) : Except ErrCode WrState :=
  if tag.any (fun t : Int => decide (t < 0 ∨ t > 0xFFFF)) then .error .validation
  else if size.any (fun n : Int => decide (n < (wrMinSize : Int))) then .error .bounds
  else
    let cap := match size with
      | some n => n.toNat
      | none => wrDefaultSize
    match tag with
    | none => .ok { buf := zeros cap, pos := 0, tag := none }
    | some t =>
      .ok { buf := memWrite (zeros cap) 4 (bytesLe 2 (BitVec.ofInt 16 t)), pos := 6,
            tag := some (BitVec.ofInt 16 t) }

/-- The buffer grown in 64-byte steps while it is shorter than `need` (R191). The first argument bounds the number
of steps; `need` is enough. -/
def growLoop : Nat → Nat → Bytes → Bytes
  | 0, _, buf => buf
  | k + 1, need, buf =>
    if buf.length < need then growLoop k need (buf ++ zeros wrGrowth) else buf

/-- `ensure(w, n)`: room for `n` bytes at the cursor (R191). -/
def wrEnsure (w : WrState) (n : Nat) : WrState :=
  { w with buf := growLoop (w.pos + n) (w.pos + n) w.buf }

/-- `put(w, x)`: grow, write at the cursor, advance the cursor (R192). -/
def wrPut (w : WrState) (x : Bytes) : WrState :=
  { wrEnsure w x.length with
    buf := memWrite (wrEnsure w x.length).buf w.pos x
    pos := w.pos + x.length }

/-- The byte that stands for a boolean (R202). -/
def boolByte (v : Bool) : Byte := if v then 0x01 else 0x00

/-- `WR_STR` (R204). -/
def wrStr (w : WrState) (t : Bytes) : Except ErrCode WrState :=
  if t.length > strMax then .error .bounds
  else .ok (wrPut w (bytesLe 2 (BitVec.ofNat 16 t.length) ++ t))

/-- `WR_FSTR` (R205). -/
def wrFstr (w : WrState) (t : Bytes) (n : Nat) : Except ErrCode WrState :=
  if t.length > n then .error .bounds
  else .ok (wrPut w (t ++ zeros (n - t.length)))

/-- `WR_TOWIRE` (R206): the writer trimmed to its cursor, and its bytes past the frame-header reservation. -/
def wrToWire (w : WrState) : WrState × Bytes :=
  ({ w with buf := w.buf.take w.pos },
   match w.tag with
   | none => w.buf.take w.pos
   | some _ => (w.buf.take w.pos).drop frameHdrBytes)

end Sys2Proof.Machine
end

