-- ==== Sys2Proof/Machine/SessionOps.lean ====
section
/-! DEFINITION. The operations of unit SES on the session state: 45_session_framer.md. -/

namespace Sys2Proof.Machine

/-- The bytes of the cells `[a, a + n)` of the receive buffer, every one of which must hold a value (R250, R33). -/
def rxLoad (capacity : Nat) (m : Memory) : Nat → Nat → Except Fault Bytes
  | _, 0 => .ok []
  | a, n + 1 =>
    if capacity ≤ a then .error .rxOutOfRange
    else
      match m.read a with
      | none => .error .rxNoValue
      | some b =>
        match rxLoad capacity m (a + 1) n with
        | .ok bs => .ok (b :: bs)
        | .error f => .error f

/-- Write bytes into the receive buffer from cell `a` on (R250). -/
def rxStore (capacity : Nat) (m : Memory) (a : Nat) (d : Bytes) : Except Fault Memory :=
  if capacity < a + d.length then .error .rxOutOfRange else .ok (m.store a d)

/-- `SES_CONNECT` (R240). The endpoint is opaque to the block. -/
def sesConnect (t : SesState) (h : HostConnect) : SesEnd :=
  if t.mode ≠ .disconnected then .raised .state
  else
    match h with
    | .failed => .raised .conn
    | .opened => .done { t with mode := .connected } [] []

/-- An ASCII digit 0x30..0x39 (R247). -/
def isDigit (b : Byte) : Bool := decide (0x30 ≤ b.toNat ∧ b.toNat ≤ 0x39)

/-- The decimal number a sequence of ASCII digits spells (R247). -/
def decimalValue (s : Bytes) : Nat := s.foldl (fun n b => 10 * n + (b.toNat - 0x30)) 0

/-- `subversion_value` (R247). -/
def subversionValue (s : Bytes) : Option Nat :=
  if s ≠ [] ∧ s.all isDigit then some (decimalValue s) else none

/-- The fields of a handshake (R245). -/
structure HsFields where
  version : BitVec 16
  subversion : Bytes
  localVector : BitVec 32
  remoteVector : BitVec 32
  locale : Byte
  context : Option Byte
deriving DecidableEq, Repr

/-- `parse_handshake` (R245): the `NoHeader` reads of the handshake packet `hs`. The context byte is read exactly when
the packet is at least 15 bytes long, whatever the sub-version's length. -/
def parseHandshake (hs : Bytes) : Except ErrCode HsFields := do
  let r ← rdNew hs .noHeader
  let (r, version) ← rdBits 2 r
  let (r, subversion) ← rdStr r
  let (r, localVector) ← rdBits 4 r
  let (r, remoteVector) ← rdBits 4 r
  let (r, locale) ← rdBits 1 r
  if hs.length ≥ hsContextMin then
    let (_, x) ← rdBits 1 r
    return { version, subversion, localVector, remoteVector, locale, context := some x }
  else
    return { version, subversion, localVector, remoteVector, locale, context := none }

/-- The `Handshake` event of a parsed handshake (R246, R88). -/
def hsEvent (f : HsFields) : Event :=
  .handshake f.version f.subversion (subversionValue f.subversion) f.locale f.context

/-- The session after a handshake (R246): the local vector seeds the outbound cipher, the remote vector the inbound. -/
def commitHandshake (t : SesState) (f : HsFields) : SesState :=
  { t with
    outbound := scInit t.outbound f.localVector f.version
    inbound := scInit t.inbound f.remoteVector f.version
    handshaken := true }

/-- Why the frame loop ended. -/
inductive FrameStop where
  /-- Fewer than 4 bytes, or an incomplete frame: these bytes remain (R253). -/
  | wait (rest : Bytes)
  /-- A frame longer than the buffer or shorter than 2 bytes (R251). -/
  | badLength
  /-- A frame could not be decrypted; `handshaken` rules it out (R250; log 14). -/
  | failed (e : ErrCode)
deriving DecidableEq, Repr

/-- What the frame loop leaves: the inbound cipher, the events in stream order, and why it ended. -/
structure FrameScan where
  inbound : ScState
  events : List Event
  stop : FrameStop
deriving DecidableEq, Repr

/-- The payload length a frame header gives (R71, R251): `word0 XOR word1`. `word0` is not checked. -/
def frameLength (b0 b1 b2 b3 : Byte) : Nat := (le16 b0 b1 ^^^ le16 b2 b3).toNat

/-- The frame loop over the unconsumed bytes (R250, R251, R252). The first argument bounds the number of frames; the
number of bytes is enough. -/
def frameLoop (p : Params) : Nat → ScState → Bytes → FrameScan
  | 0, c, data => ⟨c, [], .wait data⟩
  | k + 1, c, data =>
    match data with
    | b0 :: b1 :: b2 :: b3 :: body =>
      let n := frameLength b0 b1 b2 b3
      if frameHdrBytes + n > p.recvCapacity then ⟨c, [], .badLength⟩
      else if n < extHdrBytes then ⟨c, [], .badLength⟩
      else if body.length < n then ⟨c, [], .wait data⟩
      else
        match scDecrypt p c (body.take n) with
        | .error e => ⟨c, [], .failed e⟩
        | .ok (c', payload) =>
          match rdNew payload .dynamicHeader with
          | .error e => ⟨c, [], .failed e⟩
          | .ok r =>
            let rest := frameLoop p k c' (body.drop n)
            { rest with events := .packet r :: rest.events }
    | short => ⟨c, [], .wait short⟩

/-- `compact` (R253): the unconsumed tail stands at the front of the buffer, every other cell holds no value. -/
def SesState.compact (t : SesState) (tail : Bytes) : SesState :=
  { t with rx := Memory.store [] 0 tail, fill := tail.length }

/-- The frame part of `SES_RECEIVE` (R250), after the events already emitted. -/
def receiveFrames (p : Params) (t : SesState) (evs : List Event) (data : Bytes) : SesEnd :=
  let scan := frameLoop p data.length t.inbound data
  match scan.stop with
  | .wait rest => .done ({ t with inbound := scan.inbound }.compact rest) [.events (evs ++ scan.events)] []
  | .badLength => .fatal .framing { t with inbound := scan.inbound } (evs ++ scan.events) []
  | .failed e => .raised e

/-- The extraction part of `SES_RECEIVE` (R248, R250) over all the bytes received and not yet framed. -/
def receiveBytes (p : Params) (t : SesState) (data : Bytes) : SesEnd :=
  if t.handshaken then receiveFrames p t [] data
  else
    match data with
    | l0 :: l1 :: rest =>
      let n := (le16 l0 l1).toNat
      if hsLenBytes + n > p.recvCapacity then .fatal .framing t [] []
      else if rest.length < n then .done { t with fill := data.length } [.events []] []
      else
        match parseHandshake (rest.take n) with
        | .error _ => .fatal .handshake t [] []
        | .ok f => receiveFrames p (commitHandshake t f) [hsEvent f] (rest.drop n)
    | _ => .done { t with fill := data.length } [.events []] []

/-- `SES_RECEIVE` (R250). -/
def sesReceive (p : Params) (t : SesState) (h : HostRead) : SesEnd :=
  if t.mode ≠ .connected then .raised .state
  else
    match h with
    | .failed => .fatal .conn t [] []
    | .data d =>
      if d.length > p.recvCapacity - t.fill then .raised .illegal
      else if d.length = 0 then .done t [.events []] []
      else
        match rxStore p.recvCapacity t.rx t.fill d with
        | .error f => .fault f
        | .ok rx =>
          match rxLoad p.recvCapacity rx 0 (t.fill + d.length) with
          | .error f => .fault f
          | .ok data => receiveBytes p { t with rx := rx } data

/-- `SES_FRAMEHDR` under a cipher (R257): `word0 = game_version XOR high word`, `word1 = word0 XOR (length - 4)`. -/
def frameHeader (c : ScState) (buf : Bytes) (payloadLength : Nat) : Except ErrCode Bytes :=
  if c.initialized = false then .error .uninit
  else if buf.length < frameHdrBytes ∨ payloadLength < frameHdrBytes ∨ payloadLength - frameHdrBytes > maxPayload then
    .error .bounds
  else
    match c.gameVersion, vecHigh c.vector with
    | some g, .ok hi =>
      let w0 := g ^^^ hi
      let w1 := w0 ^^^ BitVec.ofNat 16 (payloadLength - frameHdrBytes)
      .ok (memWrite (memWrite buf 0 (bytesLe 2 w0)) 2 (bytesLe 2 w1))
    | _, _ => .error .uninit

/-- The frame a writer yields, before its header and its encryption (R258). -/
def frameOf (w : WrState) : Bytes := w.buf.take w.pos

/-- `SES_SEND` (R259): the checks in order, the header from the vector before the send, the encryption, and the
host's answer. -/
def sesSend (p : Params) (t : SesState) (w : WrState) (h : HostWrite) : SesEnd :=
  if t.mode ≠ .connected then .raised .state
  else if w.tag = none then .raised .state
  else if t.outbound.initialized = false then .raised .uninit
  else if (frameOf w).length - frameHdrBytes > maxPayload then .raised .bounds
  else
    match frameHeader t.outbound (frameOf w) (frameOf w).length with
    | .error e => .raised e
    | .ok framed =>
      match scEncrypt p t.outbound framed encOffset with
      | .error e => .raised e
      | .ok (c, frame) =>
        match h with
        | .allAccepted => .done { t with outbound := c } [.bytes frame] frame
        | .failedAfter k => .fatal .conn { t with outbound := c } [] (frame.take k)

end Sys2Proof.Machine
end

