-- ==== Sys2Proof/Machine/Ses.lean ====
section
/-! DEFINITION. The meanings of the commands of unit SES: 45_session_framer.md. -/

namespace Sys2Proof.Machine

/-- `SES_CONNECT` (R240): opens the connection. -/
def execSesConnect (_endpoint : Bytes) (h : HostConnect) (s : State) : Result :=
  finishSes s (sesConnect s.ses h)

/-- `SES_RECEIVE` (R250) of an instance with the given parameters (00_scope.md R5). -/
def receiveUnder (p : Params) (h : HostRead) (s : State) : Result :=
  finishSes s (sesReceive p s.ses h)

/-- `SES_RECEIVE` (R250): takes in one socket read and extracts every complete frame. -/
def execSesReceive (h : HostRead) (s : State) : Result :=
  receiveUnder Config.params h s

/-- `SES_SEND` (R259) of an instance with the given parameters (00_scope.md R5). -/
def sendUnder (p : Params) (w : WrState) (h : HostWrite) (s : State) : Result :=
  finishSes s (sesSend p s.ses w h)

/-- `SES_SEND` (R259): frames, encrypts and transmits one packet. -/
def execSesSend (w : WrState) (h : HostWrite) (s : State) : Result :=
  sendUnder Config.params w h s

/-- `SES_FRAMEHDR` (R257): the frame header written into the buffer; the session is unchanged. -/
def execSesFramehdr (buf : Bytes) (payloadLength : Nat) (s : State) : Result :=
  finish s ((frameHeader s.ses.outbound buf payloadLength).map fun b => [.bytes b])

/-- `SES_CLOSE` (R263): tears the session down, from every state. -/
def execSesClose (s : State) : Result :=
  finishSes s (.done s.ses.teardown [] [])

/-- `SES_STATUS` (R265): reports the session; legal in every state. -/
def execSesStatus (s : State) : Result :=
  finish s (.ok [.u32 (statusWord s.ses), .nat s.ses.fill, .sc s.ses.outbound, .sc s.ses.inbound])

end Sys2Proof.Machine
end

