-- ==== Sys2Proof/Machine/Vec.lean ====
section
/-! DEFINITION. The meanings of the commands of unit VEC: 41_vector_transform.md. -/

namespace Sys2Proof.Machine

/-- `VEC_INIT` (R100): the vector operand is ignored and overwritten. -/
def execVecInit (_v : VecState) (raw : BitVec 32) (s : State) : Result :=
  finish s (.ok [.vec (vecOfRaw raw)])

/-- `VEC_BYTES` (R101): the full 4-byte view, unshuffled. -/
def execVecBytes (v : VecState) (s : State) : Result :=
  finish s ((vecBytes v).map fun b => [.bytes4 b])

/-- `VEC_HIGH` (R102): the high-order 16 bits. -/
def execVecHigh (v : VecState) (s : State) : Result :=
  finish s ((vecHigh v).map fun x => [.u16 x])

/-- `VEC_SHUFFLE` (R103): `SHUFFLE` of the vector bytes. -/
def execVecShuffle (v : VecState) (s : State) : Result :=
  finish s ((vecShuffle Config.params v).map fun v' => [.vec v'])

end Sys2Proof.Machine
end

