-- ==== Sys2Proof/Machine/Wr.lean ====
section
/-! DEFINITION. The meanings of the commands of unit WR: 44_writer.md. -/

namespace Sys2Proof.Machine

/-- `WR_NEW` (R190): a writer over a zeroed buffer. -/
def execWrNew (tag : Option Int) (size : Option Int) (s : State) : Result :=
  finish s ((wrNew tag size).map fun w => [.wr w])

/-- `WR_I8` (R194): writes a little-endian i8. -/
def execWrI8 (w : WrState) (v : BitVec 8) (s : State) : Result :=
  finish s (.ok [.wr (wrPut w (bytesLe 1 v))])

/-- `WR_U8` (R195): writes a little-endian u8. -/
def execWrU8 (w : WrState) (v : BitVec 8) (s : State) : Result :=
  finish s (.ok [.wr (wrPut w (bytesLe 1 v))])

/-- `WR_I16` (R196): writes a little-endian i16. -/
def execWrI16 (w : WrState) (v : BitVec 16) (s : State) : Result :=
  finish s (.ok [.wr (wrPut w (bytesLe 2 v))])

/-- `WR_U16` (R197): writes a little-endian u16. -/
def execWrU16 (w : WrState) (v : BitVec 16) (s : State) : Result :=
  finish s (.ok [.wr (wrPut w (bytesLe 2 v))])

/-- `WR_I32` (R198): writes a little-endian i32. -/
def execWrI32 (w : WrState) (v : BitVec 32) (s : State) : Result :=
  finish s (.ok [.wr (wrPut w (bytesLe 4 v))])

/-- `WR_U32` (R199): writes a little-endian u32. -/
def execWrU32 (w : WrState) (v : BitVec 32) (s : State) : Result :=
  finish s (.ok [.wr (wrPut w (bytesLe 4 v))])

/-- `WR_I64` (R200): writes a little-endian i64. -/
def execWrI64 (w : WrState) (v : BitVec 64) (s : State) : Result :=
  finish s (.ok [.wr (wrPut w (bytesLe 8 v))])

/-- `WR_U64` (R201): writes a little-endian u64. -/
def execWrU64 (w : WrState) (v : BitVec 64) (s : State) : Result :=
  finish s (.ok [.wr (wrPut w (bytesLe 8 v))])

/-- `WR_BOOL` (R202): writes 0x01 or 0x00. -/
def execWrBool (w : WrState) (v : Bool) (s : State) : Result :=
  finish s (.ok [.wr (wrPut w [boolByte v])])

/-- `WR_BYTES` (R203): writes the bytes. -/
def execWrBytes (w : WrState) (b : Bytes) (s : State) : Result :=
  finish s (.ok [.wr (wrPut w b)])

/-- `WR_STR` (R204): writes a length-prefixed string. -/
def execWrStr (w : WrState) (t : Bytes) (s : State) : Result :=
  finish s ((wrStr w t).map fun w' => [.wr w'])

/-- `WR_FSTR` (R205): writes a zero-padded field. -/
def execWrFstr (w : WrState) (t : Bytes) (n : Nat) (s : State) : Result :=
  finish s ((wrFstr w t n).map fun w' => [.wr w'])

/-- `WR_TOWIRE` (R206): trims and returns the wire bytes. -/
def execWrTowire (w : WrState) (s : State) : Result :=
  finish s (.ok [.wr (wrToWire w).1, .bytes (wrToWire w).2])

/-- `WR_POS` (R207): the cursor. -/
def execWrPos (w : WrState) (s : State) : Result :=
  finish s (.ok [.nat w.pos])

/-- `WR_ABSLEN` (R208): `absolute_length`, the capacity. -/
def execWrAbslen (w : WrState) (s : State) : Result :=
  finish s (.ok [.nat w.buf.length])

/-- `WR_DATALEN` (R209): `data_length`. -/
def execWrDatalen (w : WrState) (s : State) : Result :=
  finish s (.ok [.nat (dataLength w.buf)])

end Sys2Proof.Machine
end

