-- ==== Sys2Proof/Machine/Dispatch.lean ====
section
/-! DEFINITION. Every instruction to its meaning, one arm each. -/

namespace Sys2Proof.Machine

/-- What an instruction does (30_encoding.md R78). -/
def exec (i : Instr) (s : State) : Host.Outcome State Fault Refusal :=
  match i with
  | .vecInit v raw => Sys2Proof.Machine.execVecInit v raw s
  | .vecBytes v => Sys2Proof.Machine.execVecBytes v s
  | .vecHigh v => Sys2Proof.Machine.execVecHigh v s
  | .vecShuffle v => Sys2Proof.Machine.execVecShuffle v s
  | .btNew secret => Sys2Proof.Machine.execBtNew secret s
  | .btBlock t block => Sys2Proof.Machine.execBtBlock t block s
  | .scNew secret => Sys2Proof.Machine.execScNew secret s
  | .scInit c iv gameVersion => Sys2Proof.Machine.execScInit c iv gameVersion s
  | .scEncrypt c buf payloadOffset => Sys2Proof.Machine.execScEncrypt c buf payloadOffset s
  | .scDecrypt c buf => Sys2Proof.Machine.execScDecrypt c buf s
  | .scQuery c => Sys2Proof.Machine.execScQuery c s
  | .rdNew buf mode => Sys2Proof.Machine.execRdNew buf mode s
  | .rdI8 r => Sys2Proof.Machine.execRdI8 r s
  | .rdU8 r => Sys2Proof.Machine.execRdU8 r s
  | .rdI16 r => Sys2Proof.Machine.execRdI16 r s
  | .rdU16 r => Sys2Proof.Machine.execRdU16 r s
  | .rdI32 r => Sys2Proof.Machine.execRdI32 r s
  | .rdU32 r => Sys2Proof.Machine.execRdU32 r s
  | .rdI64 r => Sys2Proof.Machine.execRdI64 r s
  | .rdU64 r => Sys2Proof.Machine.execRdU64 r s
  | .rdBool r => Sys2Proof.Machine.execRdBool r s
  | .rdBytes r n => Sys2Proof.Machine.execRdBytes r n s
  | .rdStr r => Sys2Proof.Machine.execRdStr r s
  | .rdFstr r n trim => Sys2Proof.Machine.execRdFstr r n trim s
  | .rdGoto r index => Sys2Proof.Machine.execRdGoto r index s
  | .rdSkip r n => Sys2Proof.Machine.execRdSkip r n s
  | .rdTowire r => Sys2Proof.Machine.execRdTowire r s
  | .rdExthdr r => Sys2Proof.Machine.execRdExthdr r s
  | .rdPos r => Sys2Proof.Machine.execRdPos r s
  | .rdAbslen r => Sys2Proof.Machine.execRdAbslen r s
  | .rdDatalen r => Sys2Proof.Machine.execRdDatalen r s
  | .rdTag r => Sys2Proof.Machine.execRdTag r s
  | .wrNew tag size => Sys2Proof.Machine.execWrNew tag size s
  | .wrI8 w v => Sys2Proof.Machine.execWrI8 w v s
  | .wrU8 w v => Sys2Proof.Machine.execWrU8 w v s
  | .wrI16 w v => Sys2Proof.Machine.execWrI16 w v s
  | .wrU16 w v => Sys2Proof.Machine.execWrU16 w v s
  | .wrI32 w v => Sys2Proof.Machine.execWrI32 w v s
  | .wrU32 w v => Sys2Proof.Machine.execWrU32 w v s
  | .wrI64 w v => Sys2Proof.Machine.execWrI64 w v s
  | .wrU64 w v => Sys2Proof.Machine.execWrU64 w v s
  | .wrBool w v => Sys2Proof.Machine.execWrBool w v s
  | .wrBytes w b => Sys2Proof.Machine.execWrBytes w b s
  | .wrStr w t => Sys2Proof.Machine.execWrStr w t s
  | .wrFstr w t n => Sys2Proof.Machine.execWrFstr w t n s
  | .wrTowire w => Sys2Proof.Machine.execWrTowire w s
  | .wrPos w => Sys2Proof.Machine.execWrPos w s
  | .wrAbslen w => Sys2Proof.Machine.execWrAbslen w s
  | .wrDatalen w => Sys2Proof.Machine.execWrDatalen w s
  | .sesConnect endpoint h => Sys2Proof.Machine.execSesConnect endpoint h s
  | .sesReceive h => Sys2Proof.Machine.execSesReceive h s
  | .sesSend w h => Sys2Proof.Machine.execSesSend w h s
  | .sesFramehdr buf payloadLength => Sys2Proof.Machine.execSesFramehdr buf payloadLength s
  | .sesClose => Sys2Proof.Machine.execSesClose s
  | .sesStatus => Sys2Proof.Machine.execSesStatus s

end Sys2Proof.Machine
end

