-- ==== Sys2Proof/Machine/Step.lean ====
section
/-! DEFINITION. One step of the machine: the next command the host issued, decoded and run. -/

namespace Sys2Proof.Machine

/-- One step (00_scope.md R14, 20_memory.md R64). With no command issued, nothing happens (DESIGN CHOICE, log 2). A
command that does not decode raises `ILLEGAL` before any other check and changes no state (30_encoding.md R80,
60_exceptions.md R282). -/
def step (s : State) : Host.Outcome State Fault Refusal :=
  match s.fetch with
  | none => .next s
  | some (c, s') =>
    match decode c with
    | .error _ => .next (s'.raise .illegal)
    | .ok i => exec i s'

/-- The state with the command of a table word issued next (logs 1 and 3). Every row has 16 bits. -/
def State.withFetchWord (s : State) (_nbits w : Nat) : State :=
  { s with pending := tableCommand w :: s.pending }

end Sys2Proof.Machine
end

