-- ==== Sys2Proof/Safety.lean ====
section
/-! DEFINITION. What a good state is (10_state.md R33), which session transitions exist (45_session_framer.md R230),
and the terms in which the statements speak of sequences of calls. -/

namespace Sys2Proof.Machine

/-- The invariants of the session state: R33, with the cells past `fill` empty (D39), R26 and R236 for both ciphers,
and R231 for a closed session. -/
structure SesInv (p : Params) (t : SesState) : Prop where
  /-- R33 item 1. -/
  fill_lt : t.fill < p.recvCapacity
  /-- The cells are in canonical form (log 10). -/
  rx_wf : t.rx.wf = true
  /-- R33 item 2: the cells received hold a value. -/
  rx_some : ∀ i, i < t.fill → (t.rx.read i).isSome = true
  /-- R33 item 2, D39: the cells past them hold none. -/
  rx_none : ∀ i, t.fill ≤ i → t.rx.read i = none
  /-- R33 item 3. -/
  ready : t.handshaken = true →
    t.outbound.initialized = true ∧ t.inbound.initialized = true ∧ t.outbound.gameVersion = t.inbound.gameVersion
  /-- R34: only the handshake initializes the session's ciphers. -/
  unready : t.handshaken = false → t.outbound.initialized = false ∧ t.inbound.initialized = false
  /-- R26 for the outbound cipher. -/
  outbound_ok : scOk t.outbound = true
  /-- R26 for the inbound cipher. -/
  inbound_ok : scOk t.inbound = true
  /-- R25, R236: the outbound key. -/
  outbound_key : t.outbound.bt = btNew p.secret
  /-- R25, R236: the inbound key. -/
  inbound_key : t.inbound.bt = btNew p.secret
  /-- R33 item 6. -/
  disconnected : t.mode = .disconnected → t.handshaken = false ∧ t.fill = 0
  /-- R231. -/
  closed : t.mode = .closed → t.fill = 0

/-- Every value a response carries belongs to its type: the unit states it returns meet their invariants (R26, R28,
R30). -/
def responseOk : Response → Bool
  | .ok results => results.all valueOk
  | .err _ evs => evs.all eventOk

/-- A good state: the session's invariants, and a response that carries only good values. -/
structure StateInv (s : State) : Prop where
  ses : SesInv Config.params s.ses
  response : ∀ r, s.response = some r → responseOk r = true

/-- The session transitions one command can make, as `(mode, handshaken)` before and after: the rows of R230, and the
two rows that one `SES_RECEIVE` can take together, a handshake and then a fatal error. -/
def sesMoves (t t' : SesState) : Prop :=
  (t'.mode = t.mode ∧ t'.handshaken = t.handshaken) ∨
  (t.mode = .disconnected ∧ t'.mode = .connected ∧ t'.handshaken = t.handshaken) ∨
  (t.mode = .connected ∧ t.handshaken = false ∧ t'.mode = .connected ∧ t'.handshaken = true) ∨
  (t'.mode = .closed ∧ t'.handshaken = t.handshaken) ∨
  (t.mode = .connected ∧ t.handshaken = false ∧ t'.mode = .closed ∧ t'.handshaken = true)

/-- The commands of unit SES that may write the session state. -/
def sessionWriters : List Opcode := [.sesConnect, .sesReceive, .sesSend, .sesClose]

/-- Which commands may raise each error kind (60_exceptions.md R274 to R282, R292), once decoded. -/
def mayRaise : ErrCode → List Opcode
  | .bounds => [.rdI8, .rdU8, .rdI16, .rdU16, .rdI32, .rdU32, .rdI64, .rdU64, .rdBool, .rdBytes, .rdStr, .rdFstr,
      .rdNew, .rdExthdr, .rdGoto, .rdSkip, .wrNew, .wrStr, .wrFstr, .scEncrypt, .sesFramehdr, .sesSend]
  | .uninit => [.scEncrypt, .scDecrypt, .sesFramehdr, .sesSend, .vecBytes, .vecHigh, .vecShuffle]
  | .conn => [.sesConnect, .sesReceive, .sesSend]
  | .framing => [.sesReceive]
  | .validation => [.wrNew]
  | .state => [.sesConnect, .sesReceive, .sesSend]
  | .handshake => [.sesReceive]
  | .illegal => [.sesReceive]

/-- Whether an error that a command raised is fatal (60_exceptions.md R272, R276). -/
def isFatal (op : Opcode) : ErrCode → Bool
  | .conn => op != .sesConnect
  | .framing => true
  | .handshake => true
  | _ => false

/-- A call on a standalone cipher. -/
inductive CipherCall where
  | encrypt (buf : Bytes) (offset : Nat)
  | decrypt (buf : Bytes)
deriving DecidableEq, Repr

/-- The instruction of a call on a cipher. -/
def callInstr (c : ScState) : CipherCall → Instr
  | .encrypt buf offset => .scEncrypt c buf offset
  | .decrypt buf => .scDecrypt c buf

/-- The cipher that a sequence of calls leaves, each call on the cipher the one before returned, when every one of
them ends `Ok`. -/
def runCalls (s : State) (c : ScState) : List CipherCall → Option ScState
  | [] => some c
  | k :: ks =>
    match exec (callInstr c k) s with
    | .next s' =>
      match s'.response with
      | some (.ok [.sc c', .bytes _]) => runCalls s c' ks
      | _ => none
    | _ => none

/-- A sequence of socket reads taken in one after another, with no other command between: the events of each read, and
the state after the last, when every one of them ends `Ok`. -/
def runReceives (p : Params) (s : State) : List Bytes → Option (List (List Event) × State)
  | [] => some ([], s)
  | d :: ds =>
    match receiveUnder p (.data d) s with
    | .next s' =>
      match s'.response with
      | some (.ok [.events evs]) => (runReceives p s' ds).map fun q => (evs :: q.1, q.2)
      | _ => none
    | _ => none

/-- A typed write of rules R194 to R205. -/
inductive WriteOp where
  | i8 (v : BitVec 8) | u8 (v : BitVec 8)
  | i16 (v : BitVec 16) | u16 (v : BitVec 16)
  | i32 (v : BitVec 32) | u32 (v : BitVec 32)
  | i64 (v : BitVec 64) | u64 (v : BitVec 64)
  | bool (v : Bool)
  | bytes (b : Bytes)
  | str (t : Bytes)
  | fstr (t : Bytes) (n : Nat) (trim : Bool)
deriving DecidableEq, Repr

/-- The write command of an operation. -/
def WriteOp.writeInstr (w : WrState) : WriteOp → Instr
  | .i8 v => .wrI8 w v | .u8 v => .wrU8 w v
  | .i16 v => .wrI16 w v | .u16 v => .wrU16 w v
  | .i32 v => .wrI32 w v | .u32 v => .wrU32 w v
  | .i64 v => .wrI64 w v | .u64 v => .wrU64 w v
  | .bool v => .wrBool w v
  | .bytes b => .wrBytes w b
  | .str t => .wrStr w t
  | .fstr t n _ => .wrFstr w t n

/-- The read command that matches an operation (R210). -/
def WriteOp.readInstr (r : RdState) : WriteOp → Instr
  | .i8 _ => .rdI8 r | .u8 _ => .rdU8 r
  | .i16 _ => .rdI16 r | .u16 _ => .rdU16 r
  | .i32 _ => .rdI32 r | .u32 _ => .rdU32 r
  | .i64 _ => .rdI64 r | .u64 _ => .rdU64 r
  | .bool _ => .rdBool r
  | .bytes b => .rdBytes r b.length
  | .str _ => .rdStr r
  | .fstr _ n trim => .rdFstr r n trim

/-- The value the matching read returns (R210). -/
def WriteOp.readValue : WriteOp → Value
  | .i8 v => .i8 v | .u8 v => .u8 v
  | .i16 v => .i16 v | .u16 v => .u16 v
  | .i32 v => .i32 v | .u32 v => .u32 v
  | .i64 v => .i64 v | .u64 v => .u64 v
  | .bool v => .bool v
  | .bytes b => .bytes b
  | .str t => .bytes t
  | .fstr t n trim => .bytes (if trim then trimNul t else t ++ zeros (n - t.length))

/-- The writer that a sequence of typed writes leaves, when every one of them ends `Ok`. -/
def runWrites (s : State) (w : WrState) : List WriteOp → Option WrState
  | [] => some w
  | k :: ks =>
    match exec (k.writeInstr w) s with
    | .next s' =>
      match s'.response with
      | some (.ok [.wr w']) => runWrites s w' ks
      | _ => none
    | _ => none

/-- The values that the matching reads return in order, when every one of them ends `Ok`. -/
def runReads (s : State) (r : RdState) : List WriteOp → Option (List Value)
  | [] => some []
  | k :: ks =>
    match exec (k.readInstr r) s with
    | .next s' =>
      match s'.response with
      | some (.ok [.rd r', v]) => (runReads s r' ks).map (v :: ·)
      | _ => none
    | _ => none

end Sys2Proof.Machine
end

