-- ==== Sys2Proof/Certificates/Slice0/Obligations.lean ====
section
/-! DEFINITION. The statements for the provers. Each docstring names the rule of spec/ it formalises; a next state is
always written out whole, so every statement of a result is also its frame. -/

open Sys2Proof Sys2Proof.Machine

/-! ## Decoding and stepping -/

/-- R75, R78, R282: when the next command decodes, the step is the meaning of its instruction on the state without
that command. How commands arrive (`pending`) is the model's choice, log 1. -/
def Obligations.StepRunsDecodedCommand : Prop :=
  ∀ (s : State) (c : Command) (rest : List Command) (i : Instr),
    s.pending = c :: rest → decode c = .ok i → step s = exec i { s with pending := rest }

/-- R80: a reserved word raises `ILLEGAL` and changes no state, whatever its operand record. -/
def Obligations.ReservedWordIsIllegal : Prop :=
  ∀ (s : State) (w : BitVec 16) (ops : List Value) (rest : List Command),
    s.pending = ⟨w, ops⟩ :: rest →
    (w.toNat / 256 = 0 ∨ 7 ≤ w.toNat / 256 ∨ ∀ op : Opcode, op.word ≠ w) →
    step s = .next { s with pending := rest, response := some (.err .illegal []) }

/-- R81: every word decodes to exactly one command or to none, and no two commands match one word. -/
def Obligations.EveryWordIsOneCommandOrIllegal : Prop :=
  (∀ w : BitVec 16,
    (∃ op, decodeWord w = .ok op ∧ ∀ op' : Opcode, op'.word = w ↔ op' = op) ∨
    (∃ e, decodeWord w = .error e ∧ ∀ op' : Opcode, op'.word ≠ w)) ∧
  ∀ op op' : Opcode, op.word = op'.word → op = op'

/-- R82: the word alone identifies the command. -/
def Obligations.WordAloneIdentifiesCommand : Prop :=
  ∀ (w : BitVec 16) (ops ops' : List Value) (i i' : Instr),
    decode ⟨w, ops⟩ = .ok i → decode ⟨w, ops'⟩ = .ok i' → i.opcode = i'.opcode

/-- Decode and encode agree: every well-formed instruction, with every operand at every value of its type. That a
unit state breaking R26, R28 or R30 is no value of its type, so not well formed, is the model's choice, log 11. -/
def Obligations.DecodeOfEncodeIsTheInstruction : Prop :=
  ∀ i : Instr, i.wf = true → decode (encode i) = .ok i

/-- Encode and decode agree: a command that decodes is the encoding of a well-formed instruction. The clause
`i.wf = true` says that a record with a unit state breaking R26, R28 or R30 never decodes: that is the model's choice
(DESIGN CHOICE, log 11), not a rule of the spec. -/
def Obligations.EncodeOfDecodeIsTheCommand : Prop :=
  ∀ (c : Command) (i : Instr), decode c = .ok i → encode i = c ∧ i.wf = true

/-- Words written out from R78, one a family, and three that R80, R77 and R86 make illegal. -/
def Obligations.WrittenWordsDecode : Prop :=
  decode ⟨0x0101, [.vec none, .u32 0x01020304]⟩ = .ok (.vecInit none 0x01020304) ∧
  decode ⟨0x0202, [.bt zeroBt, .bytes16 (Vector.replicate 16 7)]⟩ = .ok (.btBlock zeroBt (Vector.replicate 16 7)) ∧
  decode ⟨0x0303, [.sc zeroSc, .bytes [1, 2], .nat 2]⟩ = .ok (.scEncrypt zeroSc [1, 2] 2) ∧
  decode ⟨0x0401, [.bytes [0x14, 0], .mode 1]⟩ = .ok (.rdNew [0x14, 0] .staticHeader) ∧
  decode ⟨0x0501, [.optInt (some 20), .optInt none]⟩ = .ok (.wrNew (some 20) none) ∧
  decode ⟨0x0610, []⟩ = .ok .sesStatus ∧
  decode ⟨0x0606, []⟩ = .error .reservedFunc ∧
  decode ⟨0x0303, [.sc zeroSc, .bytes []]⟩ = .error .operandCount ∧
  decode ⟨0x0401, [.bytes [], .mode 3]⟩ = .error .modeRange

/-- R77, R282: an operand record that does not match its command in count or type raises `ILLEGAL` and changes no
state. What counts as a type is the model's choice (DEDUCED and DESIGN CHOICE, log 15): a Nat is not an Int, Bytes is
not Bytes16, a u8 is not an i8, and Option Int is a type. -/
def Obligations.OperandMismatchIsIllegal : Prop :=
  ∀ (s : State) (op : Opcode) (ops : List Value) (rest : List Command),
    s.pending = ⟨op.word, ops⟩ :: rest → ops.map valueTy ≠ operandTypes op →
    step s = .next { s with pending := rest, response := some (.err .illegal []) }

/-- R86: the codes 0, 1 and 2 are the three modes, and any other value raises `ILLEGAL`. -/
def Obligations.ModeOperandCodes : Prop :=
  ∀ (s : State) (buf : Bytes) (k : Nat) (rest : List Command),
    s.pending = ⟨0x0401, [.bytes buf, .mode k]⟩ :: rest →
    (k = 0 → step s = exec (.rdNew buf .noHeader) { s with pending := rest }) ∧
    (k = 1 → step s = exec (.rdNew buf .staticHeader) { s with pending := rest }) ∧
    (k = 2 → step s = exec (.rdNew buf .dynamicHeader) { s with pending := rest }) ∧
    (3 ≤ k → step s = .next { s with pending := rest, response := some (.err .illegal []) })

/-! ## Vector, transform and cipher -/

/-- R100 to R103: the four vector commands. `SHUFFLE` is the parameter, with its one property (R6). -/
def Obligations.VectorCommands : Prop :=
  ∀ (s : State) (v : VecState) (raw : BitVec 32) (b : BytesN 4),
    exec (.vecInit v raw) s = .next { s with response := some (.ok [.vec (some
      #v[raw.extractLsb' 0 8, raw.extractLsb' 8 8, raw.extractLsb' 16 8, raw.extractLsb' 24 8])]) } ∧
    exec (.vecBytes (some b)) s = .next { s with response := some (.ok [.bytes4 b]) } ∧
    exec (.vecBytes none) s = .next { s with response := some (.err .uninit []) } ∧
    exec (.vecHigh (some b)) s = .next { s with response := some (.ok [.u16 (b[3] ++ b[2])]) } ∧
    exec (.vecHigh none) s = .next { s with response := some (.err .uninit []) } ∧
    exec (.vecShuffle (some b)) s = .next { s with response := some (.ok [.vec (some (Config.params.shuffle b))]) } ∧
    exec (.vecShuffle none) s = .next { s with response := some (.err .uninit []) } ∧
    Config.params.shuffle #v[0x04, 0x03, 0x02, 0x01] ≠ #v[0x04, 0x03, 0x02, 0x01] ∧
    Opcode.vecInit.word = 0x0101 ∧ Opcode.vecBytes.word = 0x0102 ∧ Opcode.vecHigh.word = 0x0103 ∧
    Opcode.vecShuffle.word = 0x0104

/-- R105 to R107: byte `i` of the big-endian secret stands at key position `4i`, and every other key byte is 0. -/
def Obligations.KeyExpansionPlacesSecretBytes : Prop :=
  ∀ (s : State) (secret : BitVec 64),
    Opcode.btNew.word = 0x0201 ∧
    ∃ t : BtState, exec (.btNew secret) s = .next { s with response := some (.ok [.bt t]) } ∧
      ∀ j : Fin 32, t.key[j] =
        if j.val % 4 = 0 then secret.extractLsb' (56 - 8 * (j.val / 4)) 8 else 0

/-- R108: one block under the transform's key. -/
def Obligations.BlockTransformEncryptsOneBlock : Prop :=
  ∀ (s : State) (t : BtState) (block : BytesN 16),
    Opcode.btBlock.word = 0x0202 ∧
    exec (.btBlock t block) s =
      .next { s with response := some (.ok [.bytes16 (Config.params.blockEncrypt t.key block)]) }

/-- R120, R121, R129: construction, seeding and query of a cipher. -/
def Obligations.CipherConstructionSeedingQuery : Prop :=
  ∀ (s : State) (c : ScState) (secret : BitVec 64) (iv : BitVec 32) (g : BitVec 16),
    exec (.scNew secret) s =
      .next { s with response := some (.ok [.sc ⟨false, none, ⟨expandKey secret⟩, none⟩]) } ∧
    exec (.scInit c iv g) s = .next { s with response := some (.ok [.sc ⟨true, some
      #v[iv.extractLsb' 0 8, iv.extractLsb' 8 8, iv.extractLsb' 16 8, iv.extractLsb' 24 8], c.bt, some g⟩]) } ∧
    exec (.scQuery c) s =
      .next { s with response := some (.ok [.bool c.initialized, .vec c.vector, .optU16 c.gameVersion]) } ∧
    Opcode.scNew.word = 0x0301 ∧ Opcode.scInit.word = 0x0302 ∧ Opcode.scQuery.word = 0x0305

/-- R127 with R122 to R126 and R130: `UNINIT` first, then `BOUNDS`; else every byte from the offset on is XORed with
the keystream of R130, every byte before it is unchanged, and the vector is shuffled once, an empty range included. -/
def Obligations.EncryptXorsKeystream : Prop :=
  ∀ (s : State) (c : ScState) (buf : Bytes) (offset : Nat),
    Opcode.scEncrypt.word = 0x0303 ∧
    (c.initialized = false →
      exec (.scEncrypt c buf offset) s = .next { s with response := some (.err .uninit []) }) ∧
    (c.initialized = true → buf.length < offset →
      exec (.scEncrypt c buf offset) s = .next { s with response := some (.err .bounds []) }) ∧
    (∀ v : BytesN 4, c.initialized = true → c.vector = some v → offset ≤ buf.length →
      ∃ out : Bytes,
        exec (.scEncrypt c buf offset) s = .next { s with response := some (.ok
          [.sc { c with vector := some (Config.params.shuffle v) }, .bytes out]) } ∧
        out.length = buf.length ∧ out.take offset = buf.take offset ∧
        ∀ q x, buf[offset + q]? = some x →
          out[offset + q]? = some (x ^^^ keystream Config.params c.bt.key v q))

/-- R128 with R122 to R126 and R130: `UNINIT`; else every byte is XORed with the keystream of R130 and the vector is
shuffled once, an empty buffer included. -/
def Obligations.DecryptXorsKeystream : Prop :=
  ∀ (s : State) (c : ScState) (buf : Bytes),
    Opcode.scDecrypt.word = 0x0304 ∧
    (c.initialized = false →
      exec (.scDecrypt c buf) s = .next { s with response := some (.err .uninit []) }) ∧
    (∀ v : BytesN 4, c.initialized = true → c.vector = some v →
      ∃ out : Bytes,
        exec (.scDecrypt c buf) s = .next { s with response := some (.ok
          [.sc { c with vector := some (Config.params.shuffle v) }, .bytes out]) } ∧
        out.length = buf.length ∧
        ∀ (q : Nat) (x : Byte), buf[q]? = some x → out[q]? = some (x ^^^ keystream Config.params c.bt.key v q))

/-- R131: decrypting the encrypted payload with a cipher in the same start state gives back the plaintext and the same
end state. -/
def Obligations.DecryptInvertsEncrypt : Prop :=
  ∀ (s : State) (c : ScState) (h x : Bytes), scOk c = true → c.initialized = true → h.length = 4 →
    ∃ (c1 : ScState) (y : Bytes),
      exec (.scEncrypt c (h ++ x) 4) s = .next { s with response := some (.ok [.sc c1, .bytes y]) } ∧
      exec (.scDecrypt c (y.drop 4)) s = .next { s with response := some (.ok [.sc c1, .bytes x]) }

/-- R132: after `n` calls that end `Ok`, the vector is the start vector shuffled `n` times, whatever the buffers. -/
def Obligations.VectorAfterCallsIsIteratedShuffle : Prop :=
  ∀ (s : State) (c c' : ScState) (v : BytesN 4) (calls : List CipherCall),
    c.vector = some v → runCalls s c calls = some c' →
    c'.vector = some (Config.params.shuffle^[calls.length] v) ∧ c'.bt = c.bt

/-! ## Reader -/

/-- R150: the three construction modes. -/
def Obligations.ReaderConstruction : Prop :=
  ∀ (s : State) (buf : Bytes) (b0 b1 : Byte) (rest : Bytes),
    Opcode.rdNew.word = 0x0401 ∧
    exec (.rdNew buf .noHeader) s = .next { s with response := some (.ok [.rd ⟨buf, 0, .noHeader, none⟩]) } ∧
    exec (.rdNew (b0 :: b1 :: rest) .staticHeader) s = .next { s with response := some (.ok
      [.rd ⟨b0 :: b1 :: rest, 2, .staticHeader, some (b1 ++ b0)⟩]) } ∧
    exec (.rdNew (b0 :: b1 :: rest) .dynamicHeader) s = .next { s with response := some (.ok
      [.rd ⟨b0 :: b1 :: rest, 2, .dynamicHeader, none⟩]) } ∧
    (buf.length < 2 →
      exec (.rdNew buf .staticHeader) s = .next { s with response := some (.err .bounds []) } ∧
      exec (.rdNew buf .dynamicHeader) s = .next { s with response := some (.err .bounds []) })

/-- R153 to R160: a typed integer read gives the little-endian bits at the cursor, the most significant byte last, and
moves the cursor by its width; a signed read gives the same bits as its unsigned twin; with fewer bytes left, `BOUNDS`,
and nothing else changes. -/
def Obligations.TypedReadsAreLittleEndian : Prop :=
  ∀ (s : State) (r : RdState) (b0 b1 b2 b3 b4 b5 b6 b7 : Byte) (tail : Bytes),
    (r.buf.drop r.pos = b0 :: tail →
      exec (.rdI8 r) s = .next { s with response := some (.ok [.rd { r with pos := r.pos + 1 }, .i8 b0]) } ∧
      exec (.rdU8 r) s = .next { s with response := some (.ok [.rd { r with pos := r.pos + 1 }, .u8 b0]) }) ∧
    (r.buf.drop r.pos = b0 :: b1 :: tail →
      exec (.rdI16 r) s = .next { s with response := some (.ok
        [.rd { r with pos := r.pos + 2 }, .i16 (b1 ++ b0)]) } ∧
      exec (.rdU16 r) s = .next { s with response := some (.ok
        [.rd { r with pos := r.pos + 2 }, .u16 (b1 ++ b0)]) }) ∧
    (r.buf.drop r.pos = b0 :: b1 :: b2 :: b3 :: tail →
      exec (.rdI32 r) s = .next { s with response := some (.ok
        [.rd { r with pos := r.pos + 4 }, .i32 (b3 ++ b2 ++ b1 ++ b0)]) } ∧
      exec (.rdU32 r) s = .next { s with response := some (.ok
        [.rd { r with pos := r.pos + 4 }, .u32 (b3 ++ b2 ++ b1 ++ b0)]) }) ∧
    (r.buf.drop r.pos = b0 :: b1 :: b2 :: b3 :: b4 :: b5 :: b6 :: b7 :: tail →
      exec (.rdI64 r) s = .next { s with response := some (.ok
        [.rd { r with pos := r.pos + 8 }, .i64 (b7 ++ b6 ++ b5 ++ b4 ++ b3 ++ b2 ++ b1 ++ b0)]) } ∧
      exec (.rdU64 r) s = .next { s with response := some (.ok
        [.rd { r with pos := r.pos + 8 }, .u64 (b7 ++ b6 ++ b5 ++ b4 ++ b3 ++ b2 ++ b1 ++ b0)]) }) ∧
    (r.buf.length < r.pos + 1 →
      exec (.rdI8 r) s = .next { s with response := some (.err .bounds []) } ∧
      exec (.rdU8 r) s = .next { s with response := some (.err .bounds []) }) ∧
    (r.buf.length < r.pos + 2 →
      exec (.rdI16 r) s = .next { s with response := some (.err .bounds []) } ∧
      exec (.rdU16 r) s = .next { s with response := some (.err .bounds []) }) ∧
    (r.buf.length < r.pos + 4 →
      exec (.rdI32 r) s = .next { s with response := some (.err .bounds []) } ∧
      exec (.rdU32 r) s = .next { s with response := some (.err .bounds []) }) ∧
    (r.buf.length < r.pos + 8 →
      exec (.rdI64 r) s = .next { s with response := some (.err .bounds []) } ∧
      exec (.rdU64 r) s = .next { s with response := some (.err .bounds []) }) ∧
    Opcode.rdI8.word = 0x0410 ∧ Opcode.rdU8.word = 0x0411 ∧ Opcode.rdI16.word = 0x0412 ∧
    Opcode.rdU16.word = 0x0413 ∧ Opcode.rdI32.word = 0x0414 ∧ Opcode.rdU32.word = 0x0415 ∧
    Opcode.rdI64.word = 0x0416 ∧ Opcode.rdU64.word = 0x0417

/-- R161, R162: a boolean is one byte, true when nonzero; an array is the next `n` bytes, none for `n = 0`;
with fewer bytes left, `BOUNDS`. -/
def Obligations.BooleanAndArrayReads : Prop :=
  ∀ (s : State) (r : RdState) (b : Byte) (x tail : Bytes) (n : Nat),
    (r.buf.drop r.pos = b :: tail →
      exec (.rdBool r) s = .next { s with response := some (.ok
        [.rd { r with pos := r.pos + 1 }, .bool (decide (b ≠ 0))]) }) ∧
    (r.pos ≤ r.buf.length → r.buf.drop r.pos = x ++ tail →
      exec (.rdBytes r x.length) s = .next { s with response := some (.ok
        [.rd { r with pos := r.pos + x.length }, .bytes x]) }) ∧
    (r.buf.length < r.pos + 1 →
      exec (.rdBool r) s = .next { s with response := some (.err .bounds []) }) ∧
    (r.buf.length < r.pos + n →
      exec (.rdBytes r n) s = .next { s with response := some (.err .bounds []) }) ∧
    Opcode.rdBool.word = 0x0418 ∧ Opcode.rdBytes.word = 0x0419

/-- R163: the prefix counts the bytes that follow; when fewer remain, `BOUNDS`, and nothing is consumed. -/
def Obligations.StringRead : Prop :=
  ∀ (s : State) (r : RdState) (b0 b1 : Byte) (tail : Bytes),
    Opcode.rdStr.word = 0x041A ∧
    (r.buf.length < r.pos + 2 → exec (.rdStr r) s = .next { s with response := some (.err .bounds []) }) ∧
    (r.buf.drop r.pos = b0 :: b1 :: tail → b0.toNat + 256 * b1.toNat ≤ tail.length →
      exec (.rdStr r) s = .next { s with response := some (.ok
        [.rd { r with pos := r.pos + 2 + (b0.toNat + 256 * b1.toNat) },
         .bytes (tail.take (b0.toNat + 256 * b1.toNat))]) }) ∧
    (r.buf.drop r.pos = b0 :: b1 :: tail → tail.length < b0.toNat + 256 * b1.toNat →
      exec (.rdStr r) s = .next { s with response := some (.err .bounds []) })

/-- R165: the field without its trailing 0x00 bytes when trimmed, whole otherwise; the cursor moves by `n` either
way. -/
def Obligations.FixedStringRead : Prop :=
  ∀ (s : State) (r : RdState) (n : Nat) (y tail : Bytes) (k : Nat) (trim : Bool),
    Opcode.rdFstr.word = 0x041B ∧
    (r.buf.length < r.pos + n →
      exec (.rdFstr r n trim) s = .next { s with response := some (.err .bounds []) }) ∧
    (r.pos ≤ r.buf.length → r.buf.drop r.pos = y ++ List.replicate k 0 ++ tail → y.getLast? ≠ some 0 →
      exec (.rdFstr r (y.length + k) true) s = .next { s with response := some (.ok
        [.rd { r with pos := r.pos + (y.length + k) }, .bytes y]) } ∧
      exec (.rdFstr r (y.length + k) false) s = .next { s with response := some (.ok
        [.rd { r with pos := r.pos + (y.length + k) }, .bytes (y ++ List.replicate k 0)]) })

/-- R176, R177: the range is checked, then an offset into the header is clamped to 2 in the header modes; a skip moves
forward by at least 1 and not past the end. -/
def Obligations.CursorMoves : Prop :=
  ∀ (s : State) (r : RdState) (i : Int) (p : Nat),
    Opcode.rdGoto.word = 0x0420 ∧ Opcode.rdSkip.word = 0x0421 ∧
    (i < 0 ∨ (r.buf.length : Int) < i →
      exec (.rdGoto r i) s = .next { s with response := some (.err .bounds []) }) ∧
    (p ≤ r.buf.length → r.mode = .noHeader ∨ 2 ≤ p →
      exec (.rdGoto r p) s = .next { s with response := some (.ok [.rd { r with pos := p }]) }) ∧
    (p ≤ r.buf.length → r.mode ≠ .noHeader → p < 2 →
      exec (.rdGoto r p) s = .next { s with response := some (.ok [.rd { r with pos := 2 }]) }) ∧
    (i < 1 ∨ (r.buf.length : Int) < r.pos + i →
      exec (.rdSkip r i) s = .next { s with response := some (.err .bounds []) }) ∧
    (1 ≤ p → r.pos + p ≤ r.buf.length →
      exec (.rdSkip r p) s = .next { s with response := some (.ok [.rd { r with pos := r.pos + p }]) })

/-- R173, R178 to R182: the wire bytes, the external header and the four queries; the reader is unchanged. -/
def Obligations.ReaderQueries : Prop :=
  ∀ (s : State) (r : RdState) (b0 b1 : Byte) (rest : Bytes),
    (r.mode = .noHeader →
      exec (.rdTowire r) s = .next { s with response := some (.ok [.bytes (r.buf.take r.pos)]) }) ∧
    (r.mode ≠ .noHeader →
      exec (.rdTowire r) s = .next { s with response := some (.ok [.bytes (r.buf.drop 2)]) }) ∧
    (r.buf = b0 :: b1 :: rest →
      exec (.rdExthdr r) s = .next { s with response := some (.ok [.u16 (b1 ++ b0)]) }) ∧
    (r.buf.length < 2 → exec (.rdExthdr r) s = .next { s with response := some (.err .bounds []) }) ∧
    exec (.rdPos r) s = .next { s with response := some (.ok [.nat r.pos]) } ∧
    exec (.rdAbslen r) s = .next { s with response := some (.ok [.nat r.buf.length]) } ∧
    exec (.rdDatalen r) s = .next { s with response := some (.ok [.nat (r.buf.length - 2)]) } ∧
    exec (.rdTag r) s = .next { s with response := some (.ok [.optU16 r.tag]) } ∧
    Opcode.rdTowire.word = 0x0430 ∧ Opcode.rdExthdr.word = 0x0431 ∧ Opcode.rdPos.word = 0x0440 ∧
    Opcode.rdAbslen.word = 0x0441 ∧ Opcode.rdDatalen.word = 0x0442 ∧ Opcode.rdTag.word = 0x0443

/-! ## Writer -/

/-- R190: the tag is checked first, then the size; a tagged writer reserves 4 bytes and stores its tag. -/
def Obligations.WriterConstruction : Prop :=
  ∀ (s : State) (tag size : Option Int) (t : Int) (cap : Nat),
    Opcode.wrNew.word = 0x0501 ∧
    (t < 0 ∨ 0xFFFF < t →
      exec (.wrNew (some t) size) s = .next { s with response := some (.err .validation []) }) ∧
    ((tag = none ∨ (tag = some t ∧ 0 ≤ t ∧ t ≤ 0xFFFF)) → (∃ n, size = some n ∧ n < 6) →
      exec (.wrNew tag size) s = .next { s with response := some (.err .bounds []) }) ∧
    ((size = none ∧ cap = 64) ∨ (size = some (cap : Int) ∧ 6 ≤ cap) →
      exec (.wrNew none size) s = .next { s with response := some (.ok
        [.wr ⟨List.replicate cap 0, 0, none⟩]) } ∧
      (0 ≤ t → t ≤ 0xFFFF →
        exec (.wrNew (some t) size) s = .next { s with response := some (.ok
          [.wr ⟨[0, 0, 0, 0, BitVec.ofInt 8 t, BitVec.ofInt 8 (t / 256)] ++ List.replicate (cap - 6) 0, 6,
            some (BitVec.ofInt 16 t)⟩]) }))

/-- R191, R192, R203: a write grows the buffer by the least number of 64-byte steps that fit it, keeps every byte
outside the bytes written, fills what is new with 0x00, and moves the cursor by the bytes written. -/
def Obligations.WriteGrowsByLeastSteps : Prop :=
  ∀ (s : State) (w : WrState) (x : Bytes), w.pos ≤ w.buf.length →
    Opcode.wrBytes.word = 0x0519 ∧
    exec (.wrBytes w x) s = .next { s with response := some (.ok [.wr (wrPut w x)]) } ∧
    (wrPut w x).pos = w.pos + x.length ∧ (wrPut w x).tag = w.tag ∧
    (∃ k, (wrPut w x).buf.length = w.buf.length + 64 * k ∧
      x.length ≤ w.buf.length + 64 * k - w.pos ∧ ∀ j, j < k → w.buf.length + 64 * j - w.pos < x.length) ∧
    (∀ i, i < w.pos → (wrPut w x).buf[i]? = w.buf[i]?) ∧
    (∀ i, i < x.length → (wrPut w x).buf[w.pos + i]? = x[i]?) ∧
    (∀ i, w.pos + x.length ≤ i → i < (wrPut w x).buf.length → (wrPut w x).buf[i]? = some (w.buf.getD i 0))

/-- R193 to R202: a typed write puts its bits, least significant byte first; a signed and an unsigned write of one
width put the same bytes; `true` is 0x01. -/
def Obligations.TypedWritesPutLittleEndianBytes : Prop :=
  ∀ (s : State) (w : WrState) (v8 : BitVec 8) (v16 : BitVec 16) (v32 : BitVec 32) (v64 : BitVec 64),
    exec (.wrI8 w v8) s = .next { s with response := some (.ok [.wr (wrPut w [v8])]) } ∧
    exec (.wrU8 w v8) s = .next { s with response := some (.ok [.wr (wrPut w [v8])]) } ∧
    exec (.wrI16 w v16) s = .next { s with response := some (.ok
      [.wr (wrPut w [v16.extractLsb' 0 8, v16.extractLsb' 8 8])]) } ∧
    exec (.wrU16 w v16) s = .next { s with response := some (.ok
      [.wr (wrPut w [v16.extractLsb' 0 8, v16.extractLsb' 8 8])]) } ∧
    exec (.wrI32 w v32) s = .next { s with response := some (.ok [.wr (wrPut w
      [v32.extractLsb' 0 8, v32.extractLsb' 8 8, v32.extractLsb' 16 8, v32.extractLsb' 24 8])]) } ∧
    exec (.wrU32 w v32) s = .next { s with response := some (.ok [.wr (wrPut w
      [v32.extractLsb' 0 8, v32.extractLsb' 8 8, v32.extractLsb' 16 8, v32.extractLsb' 24 8])]) } ∧
    exec (.wrI64 w v64) s = .next { s with response := some (.ok [.wr (wrPut w
      [v64.extractLsb' 0 8, v64.extractLsb' 8 8, v64.extractLsb' 16 8, v64.extractLsb' 24 8,
       v64.extractLsb' 32 8, v64.extractLsb' 40 8, v64.extractLsb' 48 8, v64.extractLsb' 56 8])]) } ∧
    exec (.wrU64 w v64) s = .next { s with response := some (.ok [.wr (wrPut w
      [v64.extractLsb' 0 8, v64.extractLsb' 8 8, v64.extractLsb' 16 8, v64.extractLsb' 24 8,
       v64.extractLsb' 32 8, v64.extractLsb' 40 8, v64.extractLsb' 48 8, v64.extractLsb' 56 8])]) } ∧
    exec (.wrBool w true) s = .next { s with response := some (.ok [.wr (wrPut w [0x01])]) } ∧
    exec (.wrBool w false) s = .next { s with response := some (.ok [.wr (wrPut w [0x00])]) } ∧
    Opcode.wrI8.word = 0x0510 ∧ Opcode.wrU8.word = 0x0511 ∧ Opcode.wrI16.word = 0x0512 ∧
    Opcode.wrU16.word = 0x0513 ∧ Opcode.wrI32.word = 0x0514 ∧ Opcode.wrU32.word = 0x0515 ∧
    Opcode.wrI64.word = 0x0516 ∧ Opcode.wrU64.word = 0x0517 ∧ Opcode.wrBool.word = 0x0518

/-- R204, R205: a string too long raises `BOUNDS`; else a length-prefixed string is its 16-bit length and its bytes,
and a fixed string its bytes and zeros up to the field size. -/
def Obligations.StringWrites : Prop :=
  ∀ (s : State) (w : WrState) (t : Bytes) (n : Nat),
    Opcode.wrStr.word = 0x051A ∧ Opcode.wrFstr.word = 0x051B ∧
    (65535 < t.length → exec (.wrStr w t) s = .next { s with response := some (.err .bounds []) }) ∧
    (t.length ≤ 65535 → exec (.wrStr w t) s = .next { s with response := some (.ok
      [.wr (wrPut w ([BitVec.ofNat 8 t.length, BitVec.ofNat 8 (t.length / 256)] ++ t))]) }) ∧
    (n < t.length → exec (.wrFstr w t n) s = .next { s with response := some (.err .bounds []) }) ∧
    (t.length ≤ n → exec (.wrFstr w t n) s = .next { s with response := some (.ok
      [.wr (wrPut w (t ++ List.replicate (n - t.length) 0))]) })

/-- R206 to R209: finalizing trims the buffer to the cursor and returns the bytes, past the 4 reserved ones for a
tagged writer; the three queries. -/
def Obligations.WriterFinalizationAndQueries : Prop :=
  ∀ (s : State) (w : WrState),
    (w.tag = none → exec (.wrTowire w) s = .next { s with response := some (.ok
      [.wr { w with buf := w.buf.take w.pos }, .bytes (w.buf.take w.pos)]) }) ∧
    (w.tag ≠ none → exec (.wrTowire w) s = .next { s with response := some (.ok
      [.wr { w with buf := w.buf.take w.pos }, .bytes ((w.buf.take w.pos).drop 4)]) }) ∧
    exec (.wrPos w) s = .next { s with response := some (.ok [.nat w.pos]) } ∧
    exec (.wrAbslen w) s = .next { s with response := some (.ok [.nat w.buf.length]) } ∧
    exec (.wrDatalen w) s = .next { s with response := some (.ok [.nat (w.buf.length - 2)]) } ∧
    Opcode.wrTowire.word = 0x0530 ∧ Opcode.wrPos.word = 0x0540 ∧ Opcode.wrAbslen.word = 0x0541 ∧
    Opcode.wrDatalen.word = 0x0542

/-- R210: for a fresh writer and any sequence of typed writes that end `Ok`, the matching reads over the finalized
bytes return the values written, and `RD_TAG` of a `StaticHeader` reader returns the writer's tag. A fixed string reads
back with its padding, or trimmed, which is the string written exactly when that does not end in 0x00. -/
def Obligations.WriterReaderRoundTrip : Prop :=
  (∀ t : Bytes, trimNul t = t ↔ t.getLast? ≠ some 0) ∧
  ∀ (s s1 : State) (tag size : Option Int) (w0 w : WrState) (ops : List WriteOp),
    exec (.wrNew tag size) s = .next s1 → s1.response = some (.ok [.wr w0]) → runWrites s w0 ops = some w →
    ∃ (s2 : State) (w' : WrState) (x : Bytes),
      exec (.wrTowire w) s = .next s2 ∧ s2.response = some (.ok [.wr w', .bytes x]) ∧
      ∀ m : Mode, (tag = none ↔ m = .noHeader) →
        ∃ (s3 : State) (r : RdState),
          exec (.rdNew x m) s = .next s3 ∧ s3.response = some (.ok [.rd r]) ∧
          (m = .staticHeader → exec (.rdTag r) s = .next { s with response := some (.ok
            [.optU16 (tag.map (BitVec.ofInt 16))]) }) ∧
          runReads s r ops = some (ops.map WriteOp.readValue)

/-! ## Session -/

/-- R37, R237, R310: the session state at reset. -/
def Obligations.ResetSessionState : Prop :=
  State.reset.ses.mode = .disconnected ∧ State.reset.ses.handshaken = false ∧ State.reset.ses.fill = 0 ∧
  (∀ i, State.reset.ses.rx.read i = none) ∧
  State.reset.ses.outbound = ⟨false, none, ⟨expandKey Config.params.secret⟩, none⟩ ∧
  State.reset.ses.inbound = ⟨false, none, ⟨expandKey Config.params.secret⟩, none⟩

/-- R240: connecting, from every mode and with either answer. -/
def Obligations.ConnectFollowsItsRule : Prop :=
  ∀ (s : State) (endpoint : Bytes) (h : HostConnect),
    Opcode.sesConnect.word = 0x0601 ∧
    (s.ses.mode ≠ .disconnected →
      exec (.sesConnect endpoint h) s = .next { s with response := some (.err .state []) }) ∧
    (s.ses.mode = .disconnected →
      exec (.sesConnect endpoint .failed) s = .next { s with response := some (.err .conn []) } ∧
      exec (.sesConnect endpoint .opened) s =
        .next { s with ses := { s.ses with mode := .connected }, response := some (.ok []) })

/-- R231, R263: closing, from every state. -/
def Obligations.CloseTearsDown : Prop :=
  ∀ s : State,
    Opcode.sesClose.word = 0x0605 ∧
    exec .sesClose s =
      .next { s with ses := { s.ses with mode := .closed, fill := 0, rx := [] }, response := some (.ok []) }

/-- R35, R265: the status command returns the status word, `fill` and both ciphers, and changes nothing; the word
holds the mode in bits 1:0, the three flags in bits 2, 3 and 4, and zeros above. -/
def Obligations.StatusReportsSession : Prop :=
  ∀ s : State, Opcode.sesStatus.word = 0x0610 ∧
    ∃ st : BitVec 32,
      exec .sesStatus s = .next { s with response := some (.ok
        [.u32 st, .nat s.ses.fill, .sc s.ses.outbound, .sc s.ses.inbound]) } ∧
      (s.ses.mode = .disconnected → st.extractLsb' 0 2 = 0) ∧
      (s.ses.mode = .connected → st.extractLsb' 0 2 = 1) ∧
      (s.ses.mode = .closed → st.extractLsb' 0 2 = 2) ∧
      st.getLsbD 2 = s.ses.handshaken ∧ st.getLsbD 3 = s.ses.outbound.initialized ∧
      st.getLsbD 4 = s.ses.inbound.initialized ∧ st.extractLsb' 5 27 = 0

/-- R257: the checks in order, and the header from the version, the high half of the outbound vector and the length;
the session is unchanged, in every mode. -/
def Obligations.FrameHeaderFollowsItsRule : Prop :=
  ∀ (s : State) (buf : Bytes) (n : Nat),
    Opcode.sesFramehdr.word = 0x0604 ∧
    (s.ses.outbound.initialized = false →
      exec (.sesFramehdr buf n) s = .next { s with response := some (.err .uninit []) }) ∧
    (s.ses.outbound.initialized = true → buf.length < 4 ∨ n < 4 ∨ 0xFFFF < n - 4 →
      exec (.sesFramehdr buf n) s = .next { s with response := some (.err .bounds []) }) ∧
    (∀ (g w0 w1 : BitVec 16) (b : BytesN 4), s.ses.outbound.initialized = true →
      s.ses.outbound.gameVersion = some g → s.ses.outbound.vector = some b →
      4 ≤ buf.length → 4 ≤ n → n - 4 ≤ 0xFFFF →
      w0 = g ^^^ (b[3] ++ b[2]) → w1 = w0 ^^^ BitVec.ofNat 16 (n - 4) →
      exec (.sesFramehdr buf n) s = .next { s with response := some (.ok
        [.bytes ([w0.extractLsb' 0 8, w0.extractLsb' 8 8, w1.extractLsb' 0 8, w1.extractLsb' 8 8]
          ++ buf.drop 4)]) })

/-- R259 with R257, R258, R262: the checks in order; else the frame is the header of the vector before the send and
the writer's bytes XORed with its keystream, the outbound vector is shuffled once, and the socket has the whole frame,
or its first `k` bytes and the session is torn down. -/
def Obligations.SendFollowsItsRule : Prop :=
  ∀ (s : State) (w : WrState) (h : HostWrite), wrOk w = true →
    Opcode.sesSend.word = 0x0603 ∧
    (s.ses.mode ≠ .connected →
      exec (.sesSend w h) s = .next { s with response := some (.err .state []) }) ∧
    (s.ses.mode = .connected → w.tag = none →
      exec (.sesSend w h) s = .next { s with response := some (.err .state []) }) ∧
    (s.ses.mode = .connected → w.tag ≠ none → s.ses.outbound.initialized = false →
      exec (.sesSend w h) s = .next { s with response := some (.err .uninit []) }) ∧
    (s.ses.mode = .connected → w.tag ≠ none → s.ses.outbound.initialized = true → 0xFFFF < w.pos - 4 →
      exec (.sesSend w h) s = .next { s with response := some (.err .bounds []) }) ∧
    (∀ (g w0 w1 : BitVec 16) (b : BytesN 4), s.ses.mode = .connected → w.tag ≠ none →
      s.ses.outbound.initialized = true → s.ses.outbound.gameVersion = some g → s.ses.outbound.vector = some b →
      w.pos - 4 ≤ 0xFFFF →
      w0 = g ^^^ (b[3] ++ b[2]) → w1 = w0 ^^^ BitVec.ofNat 16 (w.pos - 4) →
      ∃ frame : Bytes,
        frame.length = w.pos ∧
        frame.take 4 = [w0.extractLsb' 0 8, w0.extractLsb' 8 8, w1.extractLsb' 0 8, w1.extractLsb' 8 8] ∧
        (∀ q x, 4 + q < w.pos → w.buf[4 + q]? = some x →
          frame[4 + q]? = some (x ^^^ keystream Config.params s.ses.outbound.bt.key b q)) ∧
        exec (.sesSend w .allAccepted) s = .next { s with
          ses := { s.ses with outbound := { s.ses.outbound with vector := some (Config.params.shuffle b) } }
          response := some (.ok [.bytes frame])
          tx := s.tx ++ frame } ∧
        ∀ k, exec (.sesSend w (.failedAfter k)) s = .next { s with
          ses := { s.ses with
            mode := .closed, fill := 0, rx := []
            outbound := { s.ses.outbound with vector := some (Config.params.shuffle b) } }
          response := some (.err .conn [])
          tx := s.tx ++ frame.take k })

/-- R250: the word of `SES_RECEIVE`, what it checks before it takes any byte in, in order, and the empty read. -/
def Obligations.ReceiveChecksAndEmptyRead : Prop :=
  ∀ (s : State) (h : HostRead) (d : Bytes),
    Opcode.sesReceive.word = 0x0602 ∧
    (s.ses.mode ≠ .connected →
      exec (.sesReceive h) s = .next { s with response := some (.err .state []) }) ∧
    (s.ses.mode = .connected →
      exec (.sesReceive .failed) s = .next { s with
        ses := { s.ses with mode := .closed, fill := 0, rx := [] }, response := some (.err .conn []) } ∧
      exec (.sesReceive (.data [])) s = .next { s with response := some (.ok [.events []]) } ∧
      (Config.params.recvCapacity - s.ses.fill < d.length →
        exec (.sesReceive (.data d)) s = .next { s with response := some (.err .illegal []) }))

/-- R250, R251, R252: one whole frame in one read, on a handshaken session with nothing waiting, gives exactly one
`Packet` event over the decrypted payload, shuffles the inbound vector once, and leaves the buffer empty. -/
def Obligations.WholeFrameGivesOnePacket : Prop :=
  ∀ (s : State) (b0 b1 b2 b3 : Byte) (payload : Bytes) (v : BytesN 4),
    s.ses.mode = .connected → s.ses.handshaken = true → s.ses.fill = 0 →
    s.ses.inbound.initialized = true → s.ses.inbound.vector = some v →
    payload.length = ((b1 ++ b0) ^^^ (b3 ++ b2)).toNat → 2 ≤ payload.length →
    4 + payload.length ≤ Config.params.recvCapacity →
    ∃ plain : Bytes,
      plain.length = payload.length ∧
      (∀ (q : Nat) (x : Byte), payload[q]? = some x →
        plain[q]? = some (x ^^^ keystream Config.params s.ses.inbound.bt.key v q)) ∧
      exec (.sesReceive (.data (b0 :: b1 :: b2 :: b3 :: payload))) s = .next { s with
        ses := { s.ses with
          rx := [], fill := 0
          inbound := { s.ses.inbound with vector := some (Config.params.shuffle v) } }
        response := some (.ok [.events [.packet ⟨plain, 2, .dynamicHeader, none⟩]]) }

/-- R5, R38: `SES_RECEIVE` and `SES_SEND` run under the parameters of the instance; the statements below hold of an
instance with any parameters. -/
def Obligations.SessionRunsUnderInstanceParameters : Prop :=
  ∀ (s : State) (r : HostRead) (w : WrState) (a : HostWrite),
    exec (.sesReceive r) s = receiveUnder Config.params r s ∧ exec (.sesSend w a) s = sendUnder Config.params w a s

/-- R247: a non-empty string of ASCII digits is worth the decimal number it spells; any other string has no value. -/
def Obligations.SubversionValueIsDecimal : Prop :=
  (∀ ds : List Nat, ds ≠ [] → (∀ d ∈ ds, d < 10) →
    subversionValue (ds.map fun d => BitVec.ofNat 8 (0x30 + d)) = some (Nat.ofDigits 10 ds.reverse)) ∧
  (∀ (x y : Bytes) (b : Byte), (b.toNat < 0x30 ∨ 0x39 < b.toNat) → subversionValue (x ++ b :: y) = none) ∧
  subversionValue [] = none

/-- R245, R246: a whole handshake in one read. With room for the context byte, or with a packet shorter than 15 bytes,
both ciphers are seeded, the local vector outbound and the remote vector inbound, and one `Handshake` event is
returned; a packet of 15 bytes or more without a byte after the locale is a fatal `HANDSHAKE`. -/
def Obligations.HandshakeSeedsBothCiphers : Prop :=
  ∀ (p : Params) (s : State) (version : BitVec 16) (sub extra packet : Bytes) (lv rv : BitVec 32) (locale : Byte),
    s.ses.mode = .connected → s.ses.handshaken = false → s.ses.fill = 0 →
    packet = bytesLe 2 version ++ bytesLe 2 (BitVec.ofNat 16 sub.length) ++ sub ++ bytesLe 4 lv ++ bytesLe 4 rv
      ++ [locale] ++ extra →
    packet.length ≤ 0xFFFF → 2 + packet.length ≤ p.recvCapacity →
    (packet.length < 15 ∨ extra ≠ [] →
      receiveUnder p (.data (bytesLe 2 (BitVec.ofNat 16 packet.length) ++ packet)) s = .next { s with
        ses := { s.ses with
          handshaken := true, rx := [], fill := 0
          outbound := ⟨true, some (bytesLe32 lv), s.ses.outbound.bt, some version⟩
          inbound := ⟨true, some (bytesLe32 rv), s.ses.inbound.bt, some version⟩ }
        response := some (.ok [.events [.handshake version sub (subversionValue sub) locale
          (if packet.length < 15 then none else extra.head?)]]) }) ∧
    (15 ≤ packet.length → extra = [] →
      receiveUnder p (.data (bytesLe 2 (BitVec.ofNat 16 packet.length) ++ packet)) s = .next { s with
        ses := { s.ses with mode := .closed, rx := [], fill := 0 }
        response := some (.err .handshake []) })

/-- R245, R250, R281: a handshake packet whose fields do not fit in its `L` bytes is a fatal `HANDSHAKE`, whatever
follows it in the read: one that ends before or inside the version or the sub-version's length prefix, one with fewer
bytes after that prefix than the sub-version, the two vectors and the locale take, and one of 15 bytes or more without
the context byte. Neither cipher is seeded, and no event is returned. -/
def Obligations.MalformedHandshakeIsFatal : Prop :=
  ∀ (p : Params) (s : State) (packet tail : Bytes),
    s.ses.mode = .connected → s.ses.handshaken = false → s.ses.fill = 0 →
    packet.length ≤ 0xFFFF → 2 + packet.length + tail.length ≤ p.recvCapacity →
    (packet.length < 4 ∨ ∃ (v0 v1 n0 n1 : Byte) (fields : Bytes), packet = v0 :: v1 :: n0 :: n1 :: fields ∧
      (fields.length < (n1 ++ n0).toNat + 4 + 4 + 1 ∨
       15 ≤ packet.length ∧ fields.length < (n1 ++ n0).toNat + 4 + 4 + 1 + 1)) →
    receiveUnder p (.data (bytesLe 2 (BitVec.ofNat 16 packet.length) ++ packet ++ tail)) s = .next { s with
      ses := { s.ses with mode := .closed, rx := [], fill := 0 }
      response := some (.err .handshake []) }

/-- R248, R277: while fewer than 2, or fewer than `2 + L`, bytes have arrived, the block keeps them and returns no
event; a length that can never fit is a fatal `FRAMING`. -/
def Obligations.HandshakeWaitsOrIsTooLong : Prop :=
  ∀ (p : Params) (s : State) (l0 l1 : Byte) (tail : Bytes),
    s.ses.mode = .connected → s.ses.handshaken = false → s.ses.fill = 0 →
    (receiveUnder p (.data [l0]) s = .next { s with
      ses := { s.ses with rx := s.ses.rx.store 0 [l0], fill := 1 }, response := some (.ok [.events []]) }) ∧
    (2 + tail.length ≤ p.recvCapacity →
      (2 + (l1 ++ l0).toNat ≤ p.recvCapacity → tail.length < (l1 ++ l0).toNat →
        receiveUnder p (.data (l0 :: l1 :: tail)) s = .next { s with
          ses := { s.ses with rx := s.ses.rx.store 0 (l0 :: l1 :: tail), fill := 2 + tail.length }
          response := some (.ok [.events []]) }) ∧
      (p.recvCapacity < 2 + (l1 ++ l0).toNat →
        receiveUnder p (.data (l0 :: l1 :: tail)) s = .next { s with
          ses := { s.ses with mode := .closed, rx := [], fill := 0 }
          response := some (.err .framing []) }))

/-- R251, R277: on a handshaken session with nothing waiting, a frame header whose length is below 2, or can never fit,
is a fatal `FRAMING` as soon as its 4 bytes are there, whatever follows, and nothing is decrypted. -/
def Obligations.BadFrameLengthIsFatal : Prop :=
  ∀ (p : Params) (s : State) (b0 b1 b2 b3 : Byte) (tail : Bytes),
    s.ses.mode = .connected → s.ses.handshaken = true → s.ses.fill = 0 →
    4 + tail.length ≤ p.recvCapacity →
    (((b1 ++ b0) ^^^ (b3 ++ b2)).toNat < 2 ∨ p.recvCapacity < 4 + ((b1 ++ b0) ^^^ (b3 ++ b2)).toNat) →
    receiveUnder p (.data (b0 :: b1 :: b2 :: b3 :: tail)) s = .next { s with
      ses := { s.ses with mode := .closed, rx := [], fill := 0 }, response := some (.err .framing []) }

/-- R254 for every stream: when one read is taken in without error, splitting it in two gives the same events in the
same order and the same session state. -/
def Obligations.SplitReadGivesSameEvents : Prop :=
  ∀ (p : Params) (s whole : State) (d1 d2 : Bytes) (evs : List Event),
    SesInv p s.ses → d1 ≠ [] → d2 ≠ [] →
    receiveUnder p (.data (d1 ++ d2)) s = .next whole → whole.response = some (.ok [.events evs]) →
    ∃ (mid last : State) (evs1 evs2 : List Event),
      receiveUnder p (.data d1) s = .next mid ∧ mid.response = some (.ok [.events evs1]) ∧
      receiveUnder p (.data d2) mid = .next last ∧ last.response = some (.ok [.events evs2]) ∧
      evs = evs1 ++ evs2 ∧ last.ses = whole.ses

/-- R250, R253, R280: after a read that ends Ok, a second read answers what one read of both would answer: the same
session, the events of the first read followed by those of the second when it ends Ok, and the same error with those
events when it ends in one. This covers several frames in one read, and a bad frame length after good frames. -/
def Obligations.JoinedReadsActAsOne : Prop :=
  ∀ (p : Params) (s mid last : State) (d1 d2 : Bytes) (evs1 : List Event),
    SesInv p s.ses → d1 ≠ [] → d2 ≠ [] → s.ses.fill + (d1 ++ d2).length ≤ p.recvCapacity →
    receiveUnder p (.data d1) s = .next mid → mid.response = some (.ok [.events evs1]) →
    receiveUnder p (.data d2) mid = .next last →
    ∃ whole : State, receiveUnder p (.data (d1 ++ d2)) s = .next whole ∧ whole.ses = last.ses ∧
      (∀ evs2, last.response = some (.ok [.events evs2]) → whole.response = some (.ok [.events (evs1 ++ evs2)])) ∧
      (∀ e evs2, last.response = some (.err e evs2) → whole.response = some (.err e (evs1 ++ evs2)))

/-- R254: a valid frame split into reads of 1 or more bytes, with no other command between, gives exactly one
`Packet`, on the last read, with the reader and the session state that the whole frame gives. -/
def Obligations.FragmentationRecovery : Prop :=
  ∀ (p : Params) (s whole : State) (b0 b1 b2 b3 : Byte) (payload : Bytes) (reads : List Bytes) (r : RdState),
    SesInv p s.ses → s.ses.handshaken = true → s.ses.fill = 0 →
    payload.length = ((b1 ++ b0) ^^^ (b3 ++ b2)).toNat →
    (∀ d ∈ reads, d ≠ []) → reads.flatten = b0 :: b1 :: b2 :: b3 :: payload →
    receiveUnder p (.data (b0 :: b1 :: b2 :: b3 :: payload)) s = .next whole →
    whole.response = some (.ok [.events [.packet r]]) →
    ∃ last : State,
      runReceives p s reads = some (List.replicate (reads.length - 1) [] ++ [[.packet r]], last) ∧
      last.ses = whole.ses

/-- R71, R131, R252, R258, R259: a frame that one session sends is received by a peer whose inbound cipher stands where
the sender's outbound cipher stood, as one packet over the writer's bytes past the frame-header reservation, and the
two ciphers stand at the same vector again. -/
def Obligations.SentFrameIsReceivedByPeer : Prop :=
  ∀ (s u : State) (w : WrState) (g : BitVec 16) (b : BytesN 4),
    wrOk w = true → w.tag ≠ none → w.pos - 4 ≤ 0xFFFF → w.pos ≤ Config.params.recvCapacity →
    s.ses.mode = .connected → s.ses.outbound.initialized = true → s.ses.outbound.gameVersion = some g →
    s.ses.outbound.vector = some b →
    u.ses.mode = .connected → u.ses.handshaken = true → u.ses.fill = 0 →
    u.ses.inbound.initialized = true → u.ses.inbound.vector = some b → u.ses.inbound.bt = s.ses.outbound.bt →
    ∃ (s' u' : State) (frame : Bytes),
      exec (.sesSend w .allAccepted) s = .next s' ∧ s'.response = some (.ok [.bytes frame]) ∧
      exec (.sesReceive (.data frame)) u = .next u' ∧
      u'.response = some (.ok [.events [.packet ⟨(w.buf.take w.pos).drop 4, 2, .dynamicHeader, none⟩]]) ∧
      u'.ses.inbound.vector = s'.ses.outbound.vector

/-! ## The whole machine -/

/-- R33 with R26, R28, R30 and R231: every step keeps the invariants, whatever the next command and its operands. -/
def Obligations.StepKeepsInvariants : Prop :=
  ∀ s s' : State, StateInv s → step s = .next s' → StateInv s'

/-- The invariants hold after reset (R33, R37). -/
def Obligations.ResetMeetsInvariants : Prop :=
  StateInv State.reset

/-- R270: the block never halts: in a good state every step answers a next state. -/
def Obligations.GoodStatesNeverStop : Prop :=
  ∀ s : State, StateInv s → ∃ s' : State, step s = .next s'

/-- R230, R33 items 4 and 5: no step makes any other transition of mode and `handshaken`; so `handshaken` never
reverts and `Closed` is terminal. -/
def Obligations.SessionTransitions : Prop :=
  ∀ s s' : State, step s = .next s' →
    sesMoves s.ses s'.ses ∧ (s.ses.handshaken = true → s'.ses.handshaken = true) ∧
    (s.ses.mode = .closed → s'.ses.mode = .closed)

/-- R280 item 1, R283: a command that ends with a non-fatal error changes nothing but the response. -/
def Obligations.NonfatalErrorsChangeNothing : Prop :=
  ∀ (i : Instr) (s s' : State) (e : ErrCode) (evs : List Event),
    exec i s = .next s' → s'.response = some (.err e evs) → isFatal i.opcode e = false →
    s' = { s with response := some (.err e []) }

/-- R280 item 2, R285: a command that ends with a fatal error leaves the session torn down. -/
def Obligations.FatalErrorsTearDown : Prop :=
  ∀ (i : Instr) (s s' : State) (e : ErrCode) (evs : List Event),
    exec i s = .next s' → s'.response = some (.err e evs) → isFatal i.opcode e = true →
    s'.ses.mode = .closed ∧ s'.ses.fill = 0 ∧ s'.ses.rx = [] ∧ s'.pending = s.pending ∧
    (s.ses.handshaken = true → s'.ses.handshaken = true)

/-- R272, R274 to R282, R292: which commands may raise each error kind, once decoded, and the 8-bit code of each kind:
1 to 8, one a kind, so that 0 and 9 to 255 are never returned. -/
def Obligations.ErrorKindsPerCommand : Prop :=
  (∀ (i : Instr) (s s' : State) (e : ErrCode) (evs : List Event), SesInv Config.params s.ses →
    exec i s = .next s' → s'.response = some (.err e evs) → i.opcode ∈ mayRaise e) ∧
  ErrCode.bounds.code = 1 ∧ ErrCode.uninit.code = 2 ∧ ErrCode.conn.code = 3 ∧ ErrCode.framing.code = 4 ∧
  ErrCode.validation.code = 5 ∧ ErrCode.state.code = 6 ∧ ErrCode.handshake.code = 7 ∧ ErrCode.illegal.code = 8 ∧
  (∀ e : ErrCode, 1 ≤ e.code.toNat ∧ e.code.toNat ≤ 8) ∧ ∀ e e' : ErrCode, e.code = e'.code → e = e'

/-- R85: a command that ends `Ok` returns the results R78 lists for it, in order. -/
def Obligations.OkReturnsListedResults : Prop :=
  ∀ (i : Instr) (s s' : State) (results : List Value),
    exec i s = .next s' → s'.response = some (.ok results) → results.map valueTy = resultTypes i.opcode

/-- R23: every command but `SES_CONNECT`, `SES_RECEIVE`, `SES_SEND` and `SES_CLOSE` completes and changes nothing but
the response. -/
def Obligations.ValueCommandsKeepTheSession : Prop :=
  ∀ (i : Instr) (s : State), i.opcode ∉ sessionWriters →
    ∃ resp, exec i s = .next { s with response := some resp }

/-- R66: the directions are independent: `SES_SEND` leaves the inbound cipher alone, `SES_RECEIVE` writes the outbound
cipher only in the handshake, and neither connecting nor closing touches a cipher. Whatever the read and however it
ends, `SES_RECEIVE` leaves the transmit stream and the waiting commands alone; `tx` and `pending` are the model's own
fields (log 5, log 1). -/
def Obligations.DirectionsAreIndependent : Prop :=
  ∀ (s s' : State) (w : WrState) (a : HostWrite) (r : HostRead) (endpoint : Bytes) (h : HostConnect),
    (exec (.sesSend w a) s = .next s' → s'.ses.inbound = s.ses.inbound) ∧
    (exec (.sesReceive r) s = .next s' → s.ses.handshaken = true → s'.ses.outbound = s.ses.outbound) ∧
    (exec (.sesReceive r) s = .next s' → s'.ses.handshaken = s.ses.handshaken →
      s'.ses.outbound = s.ses.outbound) ∧
    (exec (.sesReceive r) s = .next s' → s'.tx = s.tx ∧ s'.pending = s.pending) ∧
    (exec (.sesConnect endpoint h) s = .next s' →
      s'.ses.outbound = s.ses.outbound ∧ s'.ses.inbound = s.ses.inbound) ∧
    (exec .sesClose s = .next s' → s'.ses.outbound = s.ses.outbound ∧ s'.ses.inbound = s.ses.inbound)
end

