-- ==== Sys2Proof/Laws/Bytes.lean ====
section
/-! SUPPORT. The laws of the byte-order helpers and of buffer slices. -/

namespace Sys2Proof.Machine

@[simp] theorem zeros_length (n : Nat) : (zeros n).length = n := by simp [zeros]

@[simp] theorem bytesLeNat_length (k v : Nat) : (bytesLeNat k v).length = k := by
  induction k generalizing v with
  | zero => rfl
  | succ k ih => simp [bytesLeNat, ih]

@[simp] theorem bytesLe_length (k : Nat) (v : BitVec (8 * k)) : (bytesLe k v).length = k := by simp [bytesLe]

/-- A little-endian sum is below the power of its length (R13). -/
theorem leNat_lt (s : Bytes) : leNat s < 256 ^ s.length := by
  induction s with
  | nil => simp [leNat]
  | cons b bs ih =>
    have hb : b.toNat < 256 := b.isLt
    simp only [leNat, List.length_cons, Nat.pow_succ]
    omega

/-- The bytes of a number sum back to the number, modulo the width (R13). -/
theorem leNat_bytesLeNat (k v : Nat) : leNat (bytesLeNat k v) = v % 256 ^ k := by
  induction k generalizing v with
  | zero => simp [bytesLeNat, leNat, Nat.mod_one]
  | succ k ih =>
    rw [bytesLeNat, leNat, ih, BitVec.toNat_ofNat, show 256 ^ (k + 1) = 256 * 256 ^ k by ring, Nat.mod_mul]

/-- `bytes_leN` and `leN` are inverse (R13). -/
@[simp] theorem leBits_bytesLe (k : Nat) (v : BitVec (8 * k)) : leBits (8 * k) (bytesLe k v) = v := by
  have h : (256 : Nat) ^ k = 2 ^ (8 * k) := by rw [Nat.pow_mul]
  apply BitVec.eq_of_toNat_eq
  simp [leBits, bytesLe, leNat_bytesLeNat, h, Nat.mod_eq_of_lt v.isLt]

/-- Appending sequences shifts the second sum by the length of the first (R57). -/
theorem leNat_append (s t : Bytes) : leNat (s ++ t) = leNat s + 256 ^ s.length * leNat t := by
  induction s with
  | nil => simp [leNat]
  | cons b bs ih =>
    simp only [List.cons_append, leNat, ih, List.length_cons, Nat.pow_succ]
    ring

@[simp] theorem memRead_length (buf : Bytes) (a n : Nat) :
    (memRead buf a n).length = min n (buf.length - a) := by simp [memRead]

theorem memRead_zero (buf : Bytes) (n : Nat) : memRead buf 0 n = buf.take n := by simp [memRead]

/-- A write inside the buffer keeps its length. -/
theorem memWrite_length {buf : Bytes} {a : Nat} {v : Bytes} (h : a + v.length ≤ buf.length) :
    (memWrite buf a v).length = buf.length := by
  simp only [memWrite, List.length_append, List.length_take, List.length_drop]
  omega

/-- A write leaves the bytes before it alone. -/
theorem memWrite_take {buf : Bytes} {a : Nat} (v : Bytes) {n : Nat} (h : n ≤ a) (ha : a ≤ buf.length) :
    (memWrite buf a v).take n = buf.take n := by
  simp only [memWrite, List.append_assoc]
  rw [List.take_append_of_le_length (by simp; omega), List.take_take]
  congr 1
  omega

/-- Reading what was written gives it back. -/
theorem memRead_memWrite {buf : Bytes} {a : Nat} (v : Bytes) (h : a ≤ buf.length) :
    memRead (memWrite buf a v) a v.length = v := by
  simp only [memRead, memWrite, List.append_assoc]
  rw [List.drop_append_of_le_length (by simp; omega)]
  simp

/-- The two bytes of a little-endian 16-bit value, the second one above the first (R13). -/
theorem leBits_pair (b0 b1 : Byte) : leBits 16 [b0, b1] = b1 ++ b0 := by
  apply BitVec.eq_of_toNat_eq
  have h0 : b0.toNat < 2 ^ 8 := b0.isLt
  have h1 : b1.toNat < 2 ^ 8 := b1.isLt
  have h : b1.toNat <<< 8 + b0.toNat = b1.toNat <<< 8 ||| b0.toNat := Nat.shiftLeft_add_eq_or_of_lt h0 _
  simp only [leBits, leNat, BitVec.toNat_ofNat, BitVec.toNat_append]
  rw [← h, Nat.shiftLeft_eq]
  omega

end Sys2Proof.Machine
end

