-- ==== Sys2Proof/Laws/Cipher.lean ====
section
/-! SUPPORT. The laws of the keystream: lengths, the closed form of the chunk loop, and what each cipher call can do. -/

namespace Sys2Proof.Machine

/-- The keystream byte at chunk position `i` (R130: `ks0`). -/
def chunkStream (p : Params) (key : BytesN 32) (v : BytesN 4) (i : Nat) : Byte :=
  (iterBlock p key (i / 16 + 1) (tile v))[i % 16]'(Nat.mod_lt i (by decide))

@[simp] theorem cryptChunk_length (p : Params) (key : BytesN 32) (w : BytesN 16) (i : Nat) (d : Bytes) :
    (cryptChunk p key w i d).length = d.length := by
  induction d generalizing w i with
  | nil => rfl
  | cons x xs ih => simp [cryptChunk, ih]

/-- The bytes of one chunk: before position `i` the working block has been encrypted once per stride begun (R124). -/
theorem cryptChunk_getElem? (p : Params) (key : BytesN 32) (v : BytesN 4) (d : Bytes) (i q : Nat) :
    (cryptChunk p key (iterBlock p key ((i + 15) / 16) (tile v)) i d)[q]? =
      d[q]?.map (· ^^^ chunkStream p key v (i + q)) := by
  induction d generalizing i q with
  | nil => simp [cryptChunk]
  | cons x xs ih =>
    have hw : (if i % 16 = 0 then p.blockEncrypt key (iterBlock p key ((i + 15) / 16) (tile v))
        else iterBlock p key ((i + 15) / 16) (tile v)) = iterBlock p key (i / 16 + 1) (tile v) := by
      split
      · rw [show (i + 15) / 16 = i / 16 by omega]
        rfl
      · rw [show (i + 15) / 16 = i / 16 + 1 by omega]
    rw [cryptChunk]
    simp only [hw]
    cases q with
    | zero => simp [chunkStream]
    | succ q =>
      have := ih (i + 1) q
      rw [show (i + 1 + 15) / 16 = i / 16 + 1 by omega] at this
      simp only [List.getElem?_cons_succ, this]
      rw [show i + 1 + q = i + (q + 1) by omega]

@[simp] theorem cryptRange_length (p : Params) (key : BytesN 32) (v : BytesN 4) (k : Nat) (first : Bool) (d : Bytes)
    (h : d.length ≤ k) : (cryptRange p key v k first d).length = d.length := by
  induction k generalizing first d with
  | zero =>
    have : d = [] := List.eq_nil_of_length_eq_zero (by omega)
    simp [cryptRange, this]
  | succ k ih =>
    unfold cryptRange
    split
    · rename_i he
      simp [List.isEmpty_iff.mp he]
    · rename_i he
      have hd : 0 < d.length := List.length_pos_iff.mpr (by simpa using he)
      simp only [List.length_append, cryptChunk_length, List.length_take]
      rw [ih]
      · simp only [List.length_drop]
        omega
      · simp only [List.length_drop]
        cases first <;> simp [chunkFirst, chunkNext] <;> omega

@[simp] theorem cryptRange_nil (p : Params) (key : BytesN 32) (v : BytesN 4) (k : Nat) (first : Bool) :
    cryptRange p key v k first [] = [] := by
  cases k <;> simp [cryptRange]

/-- One turn of the chunk loop. -/
theorem cryptRange_succ (p : Params) (key : BytesN 32) (v : BytesN 4) (k : Nat) (first : Bool) (d : Bytes) :
    cryptRange p key v (k + 1) first d =
      if d.isEmpty then []
      else
        cryptChunk p key (tile v) 0 (d.take (min d.length (if first then chunkFirst else chunkNext)))
          ++ cryptRange p key v k false (d.drop (min d.length (if first then chunkFirst else chunkNext))) := rfl

/-- One turn of the chunk loop, byte by byte. -/
theorem cryptRange_succ_getElem? (p : Params) (key : BytesN 32) (v : BytesN 4) (k : Nat) (first : Bool) (d : Bytes)
    (q : Nat) :
    (cryptRange p key v (k + 1) first d)[q]? =
      if q < (if first then chunkFirst else chunkNext) then d[q]?.map (· ^^^ chunkStream p key v q)
      else (cryptRange p key v k false (d.drop (if first then chunkFirst else chunkNext)))[
        q - (if first then chunkFirst else chunkNext)]? := by
  generalize hn : (if first = true then chunkFirst else chunkNext) = n
  rw [cryptRange_succ, hn]
  split
  · rename_i he
    have : d = [] := List.isEmpty_iff.mp he
    subst this
    simp
  · have hc := cryptChunk_getElem? p key v (d.take (min d.length n)) 0 q
    simp only [Nat.zero_add, show (15 : Nat) / 16 = 0 by decide, iterBlock] at hc
    have hlen : (cryptChunk p key (tile v) 0 (d.take (min d.length n))).length = min d.length n := by simp
    rw [List.getElem?_append, hlen]
    by_cases hq : q < n
    · by_cases hl : q < d.length
      · rw [if_pos (by omega), hc, if_pos hq, List.getElem?_take, if_pos (by omega)]
      · rw [if_neg (by omega), if_pos hq, show min d.length n = d.length by omega]
        simp [List.getElem?_eq_none (Nat.le_of_not_lt hl)]
    · rw [if_neg (by omega), if_neg hq]
      by_cases hl : n ≤ d.length
      · rw [show min d.length n = n by omega]
      · rw [show min d.length n = d.length by omega]
        simp [List.drop_eq_nil_of_le (by omega : d.length ≤ n)]

/-- A later chunk and all after it restart the keystream every 1460 bytes (R130). -/
theorem cryptRange_next_getElem? (p : Params) (key : BytesN 32) (v : BytesN 4) (k : Nat) (d : Bytes) (q : Nat)
    (h : d.length ≤ k) :
    (cryptRange p key v k false d)[q]? = d[q]?.map (· ^^^ chunkStream p key v (q % chunkNext)) := by
  induction k generalizing d q with
  | zero =>
    have : d = [] := List.eq_nil_of_length_eq_zero (by omega)
    simp [cryptRange, this]
  | succ k ih =>
    rw [cryptRange_succ_getElem?]
    simp only [Bool.false_eq_true, if_false]
    split
    · rename_i hq
      rw [Nat.mod_eq_of_lt hq]
    · rename_i hq
      by_cases hd : d = []
      · subst hd
        cases k <;> simp [cryptRange]
      · have : 0 < d.length := List.length_pos_iff.mpr hd
        rw [ih _ _ (by simp only [List.length_drop, chunkNext]; omega), List.getElem?_drop,
          show chunkNext + (q - chunkNext) = q by omega, Nat.mod_eq_sub_mod (a := q) (by omega)]

/-- The closed form of the chunk loop: every byte of the range is XORed with the keystream of R130. -/
theorem cryptRange_getElem? (p : Params) (key : BytesN 32) (v : BytesN 4) (k : Nat) (d : Bytes) (q : Nat)
    (h : d.length ≤ k) :
    (cryptRange p key v k true d)[q]? = d[q]?.map (· ^^^ keystream p key v q) := by
  have hks : keystream p key v q =
      chunkStream p key v (if q < chunkFirst then q else (q - chunkFirst) % chunkNext) := rfl
  rw [hks]
  cases k with
  | zero =>
    have : d = [] := List.eq_nil_of_length_eq_zero (by omega)
    simp [cryptRange, this]
  | succ k =>
    rw [cryptRange_succ_getElem?]
    simp only [if_true]
    split
    · rfl
    · rename_i hq
      by_cases hd : d = []
      · subst hd
        cases k <;> simp [cryptRange]
      · have : 0 < d.length := List.length_pos_iff.mpr hd
        rw [cryptRange_next_getElem? _ _ _ _ _ _ (by simp only [List.length_drop, chunkFirst]; omega),
          List.getElem?_drop, show chunkFirst + (q - chunkFirst) = q by omega]

/-- Two passes of the same keystream give the range back (R131). -/
theorem cryptRange_involutive (p : Params) (key : BytesN 32) (v : BytesN 4) (k k' : Nat) (d : Bytes)
    (h : d.length ≤ k) (h' : d.length ≤ k') :
    cryptRange p key v k' true (cryptRange p key v k true d) = d := by
  apply List.ext_getElem?
  intro q
  rw [cryptRange_getElem? _ _ _ _ _ _ (by simp [h, h']), cryptRange_getElem? _ _ _ _ _ _ h]
  cases d[q]? <;> simp

/-- What `crypt` gives a cipher that holds a vector (R125, R126). -/
theorem crypt_eq (p : Params) {c : ScState} {v : BytesN 4} (hv : c.vector = some v) (buf : Bytes) (o n : Nat) :
    crypt p c buf o n = .ok ({ c with vector := some (p.shuffle v) },
      buf.take o ++ cryptRange p c.bt.key v n true (memRead buf o n) ++ buf.drop (o + n)) := by
  simp [crypt, hv]

/-- What `SC_ENCRYPT` gives an initialized cipher, an offset inside the buffer (R127). -/
theorem scEncrypt_eq (p : Params) {c : ScState} {v : BytesN 4} (hi : c.initialized = true) (hv : c.vector = some v)
    (buf : Bytes) {o : Nat} (ho : o ≤ buf.length) :
    scEncrypt p c buf o = .ok ({ c with vector := some (p.shuffle v) },
      buf.take o ++ cryptRange p c.bt.key v (buf.length - o) true (buf.drop o)) := by
  have h1 : memRead buf o (buf.length - o) = buf.drop o := by simp [memRead]
  have h2 : buf.drop (o + (buf.length - o)) = [] := List.drop_eq_nil_of_le (by omega)
  simp [scEncrypt, hi, Nat.not_lt.mpr ho, crypt_eq p hv, h1, h2]

/-- What `SC_DECRYPT` gives an initialized cipher (R128). -/
theorem scDecrypt_eq (p : Params) {c : ScState} {v : BytesN 4} (hi : c.initialized = true) (hv : c.vector = some v)
    (buf : Bytes) :
    scDecrypt p c buf = .ok ({ c with vector := some (p.shuffle v) },
      cryptRange p c.bt.key v buf.length true buf) := by
  simp [scDecrypt, hi, crypt_eq p hv, memRead]

/-- What a cipher call that ends `Ok` can do to the cipher: shuffle its vector once (R125). -/
theorem scEncrypt_ok {p : Params} {c c' : ScState} {buf out : Bytes} {o : Nat}
    (h : scEncrypt p c buf o = .ok (c', out)) :
    ∃ v, c.initialized = true ∧ c.vector = some v ∧ o ≤ buf.length ∧
      c' = { c with vector := some (p.shuffle v) } ∧
      out = buf.take o ++ cryptRange p c.bt.key v (buf.length - o) true (buf.drop o) := by
  by_cases hi : c.initialized = false
  · simp [scEncrypt, hi] at h
  · have hi : c.initialized = true := by simpa using hi
    by_cases ho : o ≤ buf.length
    · cases hv : c.vector with
      | none => simp [scEncrypt, hi, Nat.not_lt.mpr ho, crypt, hv] at h
      | some v =>
        rw [scEncrypt_eq p hi hv buf ho] at h
        cases h
        exact ⟨v, hi, rfl, ho, rfl, rfl⟩
    · simp [scEncrypt, hi, Nat.lt_of_not_le ho] at h

/-- The same of `SC_DECRYPT` (R125, R128). -/
theorem scDecrypt_ok {p : Params} {c c' : ScState} {buf out : Bytes} (h : scDecrypt p c buf = .ok (c', out)) :
    ∃ v, c.initialized = true ∧ c.vector = some v ∧ c' = { c with vector := some (p.shuffle v) } ∧
      out = cryptRange p c.bt.key v buf.length true buf := by
  by_cases hi : c.initialized = false
  · simp [scDecrypt, hi] at h
  · have hi : c.initialized = true := by simpa using hi
    cases hv : c.vector with
    | none => simp [scDecrypt, hi, crypt, hv] at h
    | some v =>
      rw [scDecrypt_eq p hi hv buf] at h
      cases h
      exact ⟨v, hi, rfl, rfl, rfl⟩

end Sys2Proof.Machine
end

