-- ==== Sys2Proof/Laws/Codec.lean ====
section
/-! SUPPORT. The laws of the reader's `take` and of the writer's growth and `put`. -/

namespace Sys2Proof.Machine

/-- The invariants of a reader, as propositions (R28). -/
theorem rdOk_iff (r : RdState) :
    rdOk r = true ↔ r.pos ≤ r.buf.length ∧ (r.mode ≠ .noHeader → 2 ≤ r.pos) ∧
      r.tag = (if r.mode = .staticHeader then some (leBits 16 (memRead r.buf 0 2)) else none) := by
  obtain ⟨buf, pos, mode, tag⟩ := r
  cases mode
  · simp [rdOk]
  · simp [rdOk, and_assoc]
    intros
    omega
  · simp [rdOk, and_assoc]
    intros
    omega

/-- The invariants of a writer, as propositions (R30). -/
theorem wrOk_iff (w : WrState) :
    wrOk w = true ↔ w.pos ≤ w.buf.length ∧ ∀ t, w.tag = some t →
      6 ≤ w.pos ∧ memRead w.buf 0 4 = zeros 4 ∧ memRead w.buf 4 2 = bytesLe 2 t := by
  obtain ⟨buf, pos, tag⟩ := w
  cases tag <;> simp [wrOk, and_assoc]

theorem rdTake_ok {r : RdState} {n : Nat} (h : r.pos + n ≤ r.buf.length) :
    rdTake r n = .ok ({ r with pos := r.pos + n }, memRead r.buf r.pos n) := by
  simp [rdTake, rdFits, h]

theorem rdTake_error {r : RdState} {n : Nat} (h : r.buf.length < r.pos + n) : rdTake r n = .error .bounds := by
  simp [rdTake, rdFits, Nat.not_le.mpr h]

/-- What a read that ends `Ok` did (R152): it moved the cursor, and nothing else. -/
theorem rdTake_cases {r r' : RdState} {n : Nat} {x : Bytes} (h : rdTake r n = .ok (r', x)) :
    r.pos + n ≤ r.buf.length ∧ r' = { r with pos := r.pos + n } ∧ x = memRead r.buf r.pos n := by
  by_cases hf : r.pos + n ≤ r.buf.length
  · rw [rdTake_ok hf] at h
    cases h
    exact ⟨hf, rfl, rfl⟩
  · rw [rdTake_error (by omega)] at h
    cases h

theorem rdBits_ok {r : RdState} {k : Nat} (h : r.pos + k ≤ r.buf.length) :
    rdBits k r = .ok ({ r with pos := r.pos + k }, leBits (8 * k) (memRead r.buf r.pos k)) := by
  simp [rdBits, rdTake_ok h]

theorem rdBits_error {r : RdState} {k : Nat} (h : r.buf.length < r.pos + k) : rdBits k r = .error .bounds := by
  simp [rdBits, rdTake_error h]

theorem rdBits_cases {r r' : RdState} {k : Nat} {x : BitVec (8 * k)} (h : rdBits k r = .ok (r', x)) :
    r.pos + k ≤ r.buf.length ∧ r' = { r with pos := r.pos + k } ∧ x = leBits (8 * k) (memRead r.buf r.pos k) := by
  by_cases hf : r.pos + k ≤ r.buf.length
  · rw [rdBits_ok hf] at h
    cases h
    exact ⟨hf, rfl, rfl⟩
  · rw [rdBits_error (by omega)] at h
    cases h

/-- A read that ends `Ok` keeps the reader's invariants (R28). -/
theorem rdOk_advance {r : RdState} {n : Nat} (h : rdOk r = true) (hn : r.pos + n ≤ r.buf.length) :
    rdOk { r with pos := r.pos + n } = true := by
  rw [rdOk_iff] at h ⊢
  exact ⟨hn, fun hm => Nat.le_add_right_of_le (h.2.1 hm), h.2.2⟩

/-- What the growth loop gives (R191): the buffer with the least number of 64-byte steps that reaches `need`. -/
theorem growLoop_spec (k need : Nat) (buf : Bytes) (h : need ≤ buf.length + 64 * k) :
    ∃ n, growLoop k need buf = buf ++ zeros (64 * n) ∧ need ≤ buf.length + 64 * n ∧
      ∀ j, j < n → buf.length + 64 * j < need := by
  induction k generalizing buf with
  | zero => exact ⟨0, by simp [growLoop, zeros], by omega, by simp⟩
  | succ k ih =>
    rw [growLoop]
    split
    · rename_i hlt
      obtain ⟨n, he, hn, hj⟩ := ih (buf ++ zeros wrGrowth) (by
        simp only [List.length_append, zeros_length, wrGrowth]
        omega)
      simp only [List.length_append, zeros_length, wrGrowth] at hn hj
      refine ⟨n + 1, ?_, by omega, ?_⟩
      · rw [he, List.append_assoc]
        simp only [zeros, wrGrowth, ← List.replicate_add]
        rw [show 64 + 64 * n = 64 * (n + 1) by omega]
      · intro j hjn
        cases j with
        | zero => simpa using hlt
        | succ j =>
          have := hj j (by omega)
          omega
    · exact ⟨0, by simp [zeros], by omega, by simp⟩

/-- What `put` gives (R191, R192): the bytes before the cursor, the bytes written, and what stood after them in the
buffer grown by the least number of steps. -/
theorem wrPut_spec (w : WrState) (x : Bytes) :
    ∃ n, wrPut w x = { w with
        buf := (w.buf ++ zeros (64 * n)).take w.pos ++ x ++ (w.buf ++ zeros (64 * n)).drop (w.pos + x.length)
        pos := w.pos + x.length } ∧
      w.pos + x.length ≤ w.buf.length + 64 * n ∧ ∀ j, j < n → w.buf.length + 64 * j < w.pos + x.length := by
  obtain ⟨n, he, hn, hj⟩ := growLoop_spec (w.pos + x.length) (w.pos + x.length) w.buf (by omega)
  refine ⟨n, ?_, hn, hj⟩
  simp [wrPut, wrEnsure, he, memWrite]

/-- A write inside the buffer keeps the bytes before the cursor (R191). -/
theorem wrPut_take {w : WrState} (x : Bytes) {n : Nat} (hn : n ≤ w.pos) (hp : w.pos ≤ w.buf.length) :
    (wrPut w x).buf.take n = w.buf.take n := by
  obtain ⟨k, he, -, -⟩ := wrPut_spec w x
  rw [he]
  simp only [List.append_assoc]
  rw [List.take_append_of_le_length (by simp; omega), List.take_take, Nat.min_eq_left hn,
    List.take_append_of_le_length (by omega)]

/-- A write appends its bytes to those before the cursor (R192). -/
theorem wrPut_take_pos {w : WrState} (x : Bytes) (hp : w.pos ≤ w.buf.length) :
    (wrPut w x).buf.take (wrPut w x).pos = w.buf.take w.pos ++ x := by
  obtain ⟨k, he, hk, -⟩ := wrPut_spec w x
  rw [he]
  have h1 : (w.buf ++ zeros (64 * k)).take w.pos = w.buf.take w.pos := by
    rw [List.take_append_of_le_length hp]
  have h2 : (w.buf.take w.pos ++ x).length = w.pos + x.length := by simp; omega
  rw [h1, ← h2, List.take_left]

@[simp] theorem wrPut_pos (w : WrState) (x : Bytes) : (wrPut w x).pos = w.pos + x.length := rfl

@[simp] theorem wrPut_tag (w : WrState) (x : Bytes) : (wrPut w x).tag = w.tag := rfl

/-- After a write the cursor lies inside the buffer (R30). -/
theorem wrPut_pos_le (w : WrState) (x : Bytes) : (wrPut w x).pos ≤ (wrPut w x).buf.length := by
  obtain ⟨k, he, hk, -⟩ := wrPut_spec w x
  rw [he]
  simp only [List.length_append, List.length_take, List.length_drop, zeros_length]
  omega

/-- A write keeps the writer's invariants (R30). -/
theorem wrOk_wrPut {w : WrState} (x : Bytes) (h : wrOk w = true) : wrOk (wrPut w x) = true := by
  obtain ⟨hp, ht⟩ := (wrOk_iff w).mp h
  have hread : ∀ a n, a + n ≤ w.pos → memRead (wrPut w x).buf a n = memRead w.buf a n := by
    intro a n han
    have := congrArg (fun l => (l.drop a).take n) (wrPut_take x (n := a + n) han hp)
    simpa [memRead, List.drop_take, List.take_take, Nat.add_sub_cancel_left] using this
  refine (wrOk_iff _).mpr ⟨wrPut_pos_le w x, fun t htag => ?_⟩
  obtain ⟨h6, h0, h4⟩ := ht t htag
  rw [hread 0 4 (by omega), hread 4 2 (by omega)]
  exact ⟨by simp only [wrPut_pos]; omega, h0, h4⟩

end Sys2Proof.Machine
end

