-- ==== Sys2Proof/Laws/PerInstr.lean ====
section
/-! SUPPORT. The family `EncodesTable`, one lemma per constructor: the word of the encoding is a row of the opcode
map and its operand record has the count and the types the row lists (30_encoding.md R77, R78). -/

namespace Sys2Proof.Laws.EncodesTable

open Sys2Proof.Machine

/-- The encoding of an instruction fits its row of the opcode map. -/
def Statement (i : Instr) : Prop :=
  (i.opcode.word, i.opcode) ∈ opcodeTable ∧ (encode i).operands.map valueTy = operandTypes i.opcode

theorem vecInit (v : VecState) (raw : BitVec 32) : Statement (.vecInit v raw) :=
  ⟨by dsimp only [Instr.opcode]; decide, rfl⟩

theorem vecBytes (v : VecState) : Statement (.vecBytes v) :=
  ⟨by dsimp only [Instr.opcode]; decide, rfl⟩

theorem vecHigh (v : VecState) : Statement (.vecHigh v) :=
  ⟨by dsimp only [Instr.opcode]; decide, rfl⟩

theorem vecShuffle (v : VecState) : Statement (.vecShuffle v) :=
  ⟨by dsimp only [Instr.opcode]; decide, rfl⟩

theorem btNew (secret : BitVec 64) : Statement (.btNew secret) :=
  ⟨by dsimp only [Instr.opcode]; decide, rfl⟩

theorem btBlock (t : BtState) (block : BytesN 16) : Statement (.btBlock t block) :=
  ⟨by dsimp only [Instr.opcode]; decide, rfl⟩

theorem scNew (secret : BitVec 64) : Statement (.scNew secret) :=
  ⟨by dsimp only [Instr.opcode]; decide, rfl⟩

theorem scInit (c : ScState) (iv : BitVec 32) (gameVersion : BitVec 16) : Statement (.scInit c iv gameVersion) :=
  ⟨by dsimp only [Instr.opcode]; decide, rfl⟩

theorem scEncrypt (c : ScState) (buf : Bytes) (payloadOffset : Nat) : Statement (.scEncrypt c buf payloadOffset) :=
  ⟨by dsimp only [Instr.opcode]; decide, rfl⟩

theorem scDecrypt (c : ScState) (buf : Bytes) : Statement (.scDecrypt c buf) :=
  ⟨by dsimp only [Instr.opcode]; decide, rfl⟩

theorem scQuery (c : ScState) : Statement (.scQuery c) :=
  ⟨by dsimp only [Instr.opcode]; decide, rfl⟩

theorem rdNew (buf : Bytes) (mode : Mode) : Statement (.rdNew buf mode) :=
  ⟨by dsimp only [Instr.opcode]; decide, rfl⟩

theorem rdI8 (r : RdState) : Statement (.rdI8 r) :=
  ⟨by dsimp only [Instr.opcode]; decide, rfl⟩

theorem rdU8 (r : RdState) : Statement (.rdU8 r) :=
  ⟨by dsimp only [Instr.opcode]; decide, rfl⟩

theorem rdI16 (r : RdState) : Statement (.rdI16 r) :=
  ⟨by dsimp only [Instr.opcode]; decide, rfl⟩

theorem rdU16 (r : RdState) : Statement (.rdU16 r) :=
  ⟨by dsimp only [Instr.opcode]; decide, rfl⟩

theorem rdI32 (r : RdState) : Statement (.rdI32 r) :=
  ⟨by dsimp only [Instr.opcode]; decide, rfl⟩

theorem rdU32 (r : RdState) : Statement (.rdU32 r) :=
  ⟨by dsimp only [Instr.opcode]; decide, rfl⟩

theorem rdI64 (r : RdState) : Statement (.rdI64 r) :=
  ⟨by dsimp only [Instr.opcode]; decide, rfl⟩

theorem rdU64 (r : RdState) : Statement (.rdU64 r) :=
  ⟨by dsimp only [Instr.opcode]; decide, rfl⟩

theorem rdBool (r : RdState) : Statement (.rdBool r) :=
  ⟨by dsimp only [Instr.opcode]; decide, rfl⟩

theorem rdBytes (r : RdState) (n : Nat) : Statement (.rdBytes r n) :=
  ⟨by dsimp only [Instr.opcode]; decide, rfl⟩

theorem rdStr (r : RdState) : Statement (.rdStr r) :=
  ⟨by dsimp only [Instr.opcode]; decide, rfl⟩

theorem rdFstr (r : RdState) (n : Nat) (trim : Bool) : Statement (.rdFstr r n trim) :=
  ⟨by dsimp only [Instr.opcode]; decide, rfl⟩

theorem rdGoto (r : RdState) (index : Int) : Statement (.rdGoto r index) :=
  ⟨by dsimp only [Instr.opcode]; decide, rfl⟩

theorem rdSkip (r : RdState) (n : Int) : Statement (.rdSkip r n) :=
  ⟨by dsimp only [Instr.opcode]; decide, rfl⟩

theorem rdTowire (r : RdState) : Statement (.rdTowire r) :=
  ⟨by dsimp only [Instr.opcode]; decide, rfl⟩

theorem rdExthdr (r : RdState) : Statement (.rdExthdr r) :=
  ⟨by dsimp only [Instr.opcode]; decide, rfl⟩

theorem rdPos (r : RdState) : Statement (.rdPos r) :=
  ⟨by dsimp only [Instr.opcode]; decide, rfl⟩

theorem rdAbslen (r : RdState) : Statement (.rdAbslen r) :=
  ⟨by dsimp only [Instr.opcode]; decide, rfl⟩

theorem rdDatalen (r : RdState) : Statement (.rdDatalen r) :=
  ⟨by dsimp only [Instr.opcode]; decide, rfl⟩

theorem rdTag (r : RdState) : Statement (.rdTag r) :=
  ⟨by dsimp only [Instr.opcode]; decide, rfl⟩

theorem wrNew (tag : Option Int) (size : Option Int) : Statement (.wrNew tag size) :=
  ⟨by dsimp only [Instr.opcode]; decide, rfl⟩

theorem wrI8 (w : WrState) (v : BitVec 8) : Statement (.wrI8 w v) :=
  ⟨by dsimp only [Instr.opcode]; decide, rfl⟩

theorem wrU8 (w : WrState) (v : BitVec 8) : Statement (.wrU8 w v) :=
  ⟨by dsimp only [Instr.opcode]; decide, rfl⟩

theorem wrI16 (w : WrState) (v : BitVec 16) : Statement (.wrI16 w v) :=
  ⟨by dsimp only [Instr.opcode]; decide, rfl⟩

theorem wrU16 (w : WrState) (v : BitVec 16) : Statement (.wrU16 w v) :=
  ⟨by dsimp only [Instr.opcode]; decide, rfl⟩

theorem wrI32 (w : WrState) (v : BitVec 32) : Statement (.wrI32 w v) :=
  ⟨by dsimp only [Instr.opcode]; decide, rfl⟩

theorem wrU32 (w : WrState) (v : BitVec 32) : Statement (.wrU32 w v) :=
  ⟨by dsimp only [Instr.opcode]; decide, rfl⟩

theorem wrI64 (w : WrState) (v : BitVec 64) : Statement (.wrI64 w v) :=
  ⟨by dsimp only [Instr.opcode]; decide, rfl⟩

theorem wrU64 (w : WrState) (v : BitVec 64) : Statement (.wrU64 w v) :=
  ⟨by dsimp only [Instr.opcode]; decide, rfl⟩

theorem wrBool (w : WrState) (v : Bool) : Statement (.wrBool w v) :=
  ⟨by dsimp only [Instr.opcode]; decide, rfl⟩

theorem wrBytes (w : WrState) (b : Bytes) : Statement (.wrBytes w b) :=
  ⟨by dsimp only [Instr.opcode]; decide, rfl⟩

theorem wrStr (w : WrState) (t : Bytes) : Statement (.wrStr w t) :=
  ⟨by dsimp only [Instr.opcode]; decide, rfl⟩

theorem wrFstr (w : WrState) (t : Bytes) (n : Nat) : Statement (.wrFstr w t n) :=
  ⟨by dsimp only [Instr.opcode]; decide, rfl⟩

theorem wrTowire (w : WrState) : Statement (.wrTowire w) :=
  ⟨by dsimp only [Instr.opcode]; decide, rfl⟩

theorem wrPos (w : WrState) : Statement (.wrPos w) :=
  ⟨by dsimp only [Instr.opcode]; decide, rfl⟩

theorem wrAbslen (w : WrState) : Statement (.wrAbslen w) :=
  ⟨by dsimp only [Instr.opcode]; decide, rfl⟩

theorem wrDatalen (w : WrState) : Statement (.wrDatalen w) :=
  ⟨by dsimp only [Instr.opcode]; decide, rfl⟩

theorem sesConnect (endpoint : Bytes) (h : HostConnect) : Statement (.sesConnect endpoint h) :=
  ⟨by dsimp only [Instr.opcode]; decide, rfl⟩

theorem sesReceive (h : HostRead) : Statement (.sesReceive h) :=
  ⟨by dsimp only [Instr.opcode]; decide, rfl⟩

theorem sesSend (w : WrState) (h : HostWrite) : Statement (.sesSend w h) :=
  ⟨by dsimp only [Instr.opcode]; decide, rfl⟩

theorem sesFramehdr (buf : Bytes) (payloadLength : Nat) : Statement (.sesFramehdr buf payloadLength) :=
  ⟨by dsimp only [Instr.opcode]; decide, rfl⟩

theorem sesClose : Statement .sesClose :=
  ⟨by dsimp only [Instr.opcode]; decide, rfl⟩

theorem sesStatus : Statement .sesStatus :=
  ⟨by dsimp only [Instr.opcode]; decide, rfl⟩

end Sys2Proof.Laws.EncodesTable
end

