-- ==== Sys2Proof/Laws/Decode.lean ====
section
/-! SUPPORT. The laws of the opcode map and of the decoder. -/

namespace Sys2Proof

open Sys2Proof.Machine

/-- No two rows of the opcode map share a word (R81). -/
theorem opcodeTable_nodup : (opcodeTable.map Prod.fst).Nodup := by decide

/-- The word of a command identifies it (R82). -/
@[simp] theorem decodeWord_word (op : Opcode) : decodeWord op.word = .ok op := by
  cases op <;> decide

/-- A lookup that answers found its row. -/
theorem mem_of_lookupWord {w : BitVec 16} {op : Opcode} {t : List (BitVec 16 × Opcode)}
    (h : lookupWord w t = some op) : (w, op) ∈ t := by
  induction t with
  | nil => simp [lookupWord] at h
  | cons r rest ih =>
    obtain ⟨v, op'⟩ := r
    simp only [lookupWord] at h
    split at h
    · rename_i hv
      subst hv
      simp at h
      simp [h]
    · exact List.mem_cons_of_mem _ (ih h)

/-- A lookup fails exactly on a word that no row has. -/
theorem lookupWord_eq_none {w : BitVec 16} {t : List (BitVec 16 × Opcode)} :
    lookupWord w t = none ↔ w ∉ t.map Prod.fst := by
  induction t with
  | nil => simp [lookupWord]
  | cons r rest ih =>
    obtain ⟨v, op'⟩ := r
    simp only [lookupWord]
    split
    · rename_i hv
      simp [hv]
    · rename_i hv
      rw [ih]
      simp only [List.map_cons, List.mem_cons, not_or]
      constructor
      · exact fun h => ⟨fun h' => hv h'.symm, h⟩
      · exact fun h => h.2

/-- A word decodes to a command exactly when the opcode map has that row. -/
theorem decodeWord_ok_mem {w : BitVec 16} {op : Opcode} (h : decodeWord w = .ok op) : (w, op) ∈ opcodeTable := by
  unfold decodeWord at h
  split at h
  · rename_i op' hl
    cases h
    exact mem_of_lookupWord hl
  · split at h <;> cases h

/-- The opcode map and the encoder agree on the word of every command. -/
theorem word_of_mem {w : BitVec 16} {op : Opcode} (h : (w, op) ∈ opcodeTable) : w = op.word := by
  have : ∀ r ∈ opcodeTable, r.1 = r.2.word := by decide
  exact this _ h

@[simp] theorem modeOfCode_modeCode (m : Mode) : modeOfCode (modeCode m) = some m := by cases m <;> rfl

/-- A decoded instruction is well-formed, and its word selected its command (R81). -/
theorem decode_ok {c : Command} {i : Instr} (h : decode c = .ok i) :
    ∃ op, decodeWord c.word = .ok op ∧ c.operands.map valueTy = operandTypes op ∧
      assemble op c.operands = .ok i ∧ i.wf = true := by
  unfold decode at h
  split at h
  · cases h
  · rename_i op hw
    split at h
    · cases h
    · split at h
      · cases h
      · rename_i ht
        split at h
        · cases h
        · rename_i i' ha
          split at h
          · rename_i hwf
            cases h
            exact ⟨op, hw, by simpa using ht, ha, hwf⟩
          · cases h

end Sys2Proof
end

