-- ==== Sys2Proof/Laws/Memory.lean ====
section
/-! SUPPORT. The laws of the receive buffer's cells: every operation keeps the canonical form, and reads after
writes. -/

namespace Sys2Proof.Machine

/-- Every listed address lies strictly above a bound. -/
def Memory.above (n : Nat) (m : Memory) : Prop := ∀ c ∈ m, n < c.1

theorem Memory.wf_cons_iff (c : Host.Cell) (m : Memory) :
    Memory.wf (c :: m) = true ↔ Memory.above c.1 m ∧ Memory.wf m = true := by
  induction m generalizing c with
  | nil => simp [Memory.wf, Memory.above]
  | cons d rest ih =>
    constructor
    · intro h
      simp only [Memory.wf, Bool.and_eq_true, decide_eq_true_eq] at h
      refine ⟨?_, h.2⟩
      intro e he
      rcases List.mem_cons.mp he with rfl | he
      · exact h.1
      · exact Nat.lt_trans h.1 (((ih d).mp h.2).1 e he)
    · rintro ⟨ha, hw⟩
      simp only [Memory.wf, Bool.and_eq_true, decide_eq_true_eq]
      exact ⟨ha d (List.mem_cons_self ..), hw⟩

theorem Memory.mem_write {m : Memory} {x : Nat} {v : Byte} {c : Host.Cell} (h : c ∈ m.write x v) :
    c = (x, v) ∨ c ∈ m := by
  induction m with
  | nil => simpa [Memory.write] using h
  | cons d rest ih =>
    obtain ⟨a, b⟩ := d
    simp only [Memory.write] at h
    split at h
    · simpa using h
    · split at h
      · rcases List.mem_cons.mp h with h | h
        · exact .inl h
        · exact .inr (List.mem_cons_of_mem _ h)
      · rcases List.mem_cons.mp h with h | h
        · exact .inr (h ▸ List.mem_cons_self ..)
        · rcases ih h with h | h
          · exact .inl h
          · exact .inr (List.mem_cons_of_mem _ h)

/-- A write keeps the canonical form. -/
theorem Memory.write_wf {m : Memory} (h : m.wf = true) (x : Nat) (v : Byte) : (m.write x v).wf = true := by
  induction m with
  | nil => rfl
  | cons d rest ih =>
    obtain ⟨a, b⟩ := d
    obtain ⟨ha, hw⟩ := (Memory.wf_cons_iff _ _).mp h
    simp only [Memory.write]
    split
    · rename_i hx
      refine (Memory.wf_cons_iff _ _).mpr ⟨?_, h⟩
      intro c hc
      rcases List.mem_cons.mp hc with rfl | hc
      · exact hx
      · exact Nat.lt_trans hx (ha c hc)
    · split
      · rename_i hx
        subst hx
        exact (Memory.wf_cons_iff _ _).mpr ⟨ha, hw⟩
      · rename_i h1 h2
        refine (Memory.wf_cons_iff _ _).mpr ⟨?_, ih hw⟩
        intro c hc
        rcases Memory.mem_write hc with rfl | hc
        · show a < x
          omega
        · exact ha c hc

/-- Storing a sequence keeps the canonical form. -/
theorem Memory.store_wf {m : Memory} (h : m.wf = true) (a : Nat) (d : Bytes) : (m.store a d).wf = true := by
  induction d generalizing m a with
  | nil => exact h
  | cons b bs ih => exact ih (Memory.write_wf h a b) (a + 1)

@[simp] theorem Memory.read_nil (x : Nat) : Memory.read [] x = none := rfl

/-- A read after a write to the same cell gives the byte written. -/
@[simp] theorem Memory.read_write_same (m : Memory) (x : Nat) (v : Byte) : (m.write x v).read x = some v := by
  induction m with
  | nil => simp [Memory.write, Memory.read]
  | cons d rest ih =>
    obtain ⟨a, b⟩ := d
    simp only [Memory.write]
    split
    · simp [Memory.read]
    · split
      · simp [Memory.read]
      · rename_i h1 h2
        have : a ≠ x := fun h => h2 h.symm
        simp [Memory.read, this, ih]

/-- A write leaves every other cell alone. -/
theorem Memory.read_write_other (m : Memory) {x y : Nat} (v : Byte) (h : y ≠ x) :
    (m.write x v).read y = m.read y := by
  induction m with
  | nil => simp [Memory.write, Memory.read, h.symm]
  | cons d rest ih =>
    obtain ⟨a, b⟩ := d
    simp only [Memory.write]
    split
    · simp [Memory.read, h.symm]
    · split
      · rename_i h1 h2
        subst h2
        simp [Memory.read, h.symm]
      · simp only [Memory.read]
        split
        · rfl
        · exact ih

/-- Storing a sequence leaves the cells outside it alone. -/
theorem Memory.read_store_outside (m : Memory) (a : Nat) (d : Bytes) {x : Nat}
    (h : x < a ∨ a + d.length ≤ x) : (m.store a d).read x = m.read x := by
  induction d generalizing m a with
  | nil => rfl
  | cons b bs ih =>
    simp only [List.length_cons] at h
    simp only [Memory.store]
    rw [ih _ _ (by omega), Memory.read_write_other _ _ (by omega)]

/-- A cell inside a stored sequence holds the sequence's byte. -/
theorem Memory.read_store_inside (m : Memory) (a : Nat) (d : Bytes) {i : Nat} (h : i < d.length) :
    (m.store a d).read (a + i) = some d[i] := by
  induction d generalizing m a i with
  | nil => simp at h
  | cons b bs ih =>
    simp only [Memory.store]
    cases i with
    | zero =>
      rw [Memory.read_store_outside _ _ _ (by omega)]
      simp
    | succ i =>
      have := ih (m.write a b) (a + 1) (i := i) (by simpa using h)
      rw [show a + (i + 1) = a + 1 + i by omega, this]
      simp

end Sys2Proof.Machine
end

