-- ==== Sys2Proof/Laws/State.lean ====
section
/-! SUPPORT. One lemma per field per update of the state and of the session state. -/

namespace Sys2Proof.Machine

@[simp] theorem State.succeed_ses (s : State) (vs : List Value) : (s.succeed vs).ses = s.ses := rfl
@[simp] theorem State.succeed_pending (s : State) (vs : List Value) : (s.succeed vs).pending = s.pending := rfl
@[simp] theorem State.succeed_response (s : State) (vs : List Value) : (s.succeed vs).response = some (.ok vs) := rfl
@[simp] theorem State.succeed_tx (s : State) (vs : List Value) : (s.succeed vs).tx = s.tx := rfl

@[simp] theorem State.raise_ses (s : State) (e : ErrCode) : (s.raise e).ses = s.ses := rfl
@[simp] theorem State.raise_pending (s : State) (e : ErrCode) : (s.raise e).pending = s.pending := rfl
@[simp] theorem State.raise_response (s : State) (e : ErrCode) : (s.raise e).response = some (.err e []) := rfl
@[simp] theorem State.raise_tx (s : State) (e : ErrCode) : (s.raise e).tx = s.tx := rfl

@[simp] theorem State.raiseFatal_ses (s : State) (e : ErrCode) (t : SesState) (evs : List Event) :
    (s.raiseFatal e t evs).ses = t.teardown := rfl
@[simp] theorem State.raiseFatal_pending (s : State) (e : ErrCode) (t : SesState) (evs : List Event) :
    (s.raiseFatal e t evs).pending = s.pending := rfl
@[simp] theorem State.raiseFatal_response (s : State) (e : ErrCode) (t : SesState) (evs : List Event) :
    (s.raiseFatal e t evs).response = some (.err e evs) := rfl
@[simp] theorem State.raiseFatal_tx (s : State) (e : ErrCode) (t : SesState) (evs : List Event) :
    (s.raiseFatal e t evs).tx = s.tx := rfl

@[simp] theorem State.withFetchWord_ses (s : State) (n w : Nat) : (s.withFetchWord n w).ses = s.ses := rfl
@[simp] theorem State.withFetchWord_pending (s : State) (n w : Nat) :
    (s.withFetchWord n w).pending = tableCommand w :: s.pending := rfl
@[simp] theorem State.withFetchWord_response (s : State) (n w : Nat) :
    (s.withFetchWord n w).response = s.response := rfl
@[simp] theorem State.withFetchWord_tx (s : State) (n w : Nat) : (s.withFetchWord n w).tx = s.tx := rfl

@[simp] theorem SesState.teardown_mode (t : SesState) : t.teardown.mode = .closed := rfl
@[simp] theorem SesState.teardown_handshaken (t : SesState) : t.teardown.handshaken = t.handshaken := rfl
@[simp] theorem SesState.teardown_rx (t : SesState) : t.teardown.rx = [] := rfl
@[simp] theorem SesState.teardown_fill (t : SesState) : t.teardown.fill = 0 := rfl
@[simp] theorem SesState.teardown_outbound (t : SesState) : t.teardown.outbound = t.outbound := rfl
@[simp] theorem SesState.teardown_inbound (t : SesState) : t.teardown.inbound = t.inbound := rfl

@[simp] theorem SesState.compact_mode (t : SesState) (b : Bytes) : (t.compact b).mode = t.mode := rfl
@[simp] theorem SesState.compact_handshaken (t : SesState) (b : Bytes) :
    (t.compact b).handshaken = t.handshaken := rfl
@[simp] theorem SesState.compact_rx (t : SesState) (b : Bytes) : (t.compact b).rx = Memory.store [] 0 b := rfl
@[simp] theorem SesState.compact_fill (t : SesState) (b : Bytes) : (t.compact b).fill = b.length := rfl
@[simp] theorem SesState.compact_outbound (t : SesState) (b : Bytes) : (t.compact b).outbound = t.outbound := rfl
@[simp] theorem SesState.compact_inbound (t : SesState) (b : Bytes) : (t.compact b).inbound = t.inbound := rfl

@[simp] theorem commitHandshake_mode (t : SesState) (f : HsFields) : (commitHandshake t f).mode = t.mode := rfl
@[simp] theorem commitHandshake_handshaken (t : SesState) (f : HsFields) :
    (commitHandshake t f).handshaken = true := rfl
@[simp] theorem commitHandshake_rx (t : SesState) (f : HsFields) : (commitHandshake t f).rx = t.rx := rfl
@[simp] theorem commitHandshake_fill (t : SesState) (f : HsFields) : (commitHandshake t f).fill = t.fill := rfl
@[simp] theorem commitHandshake_outbound (t : SesState) (f : HsFields) :
    (commitHandshake t f).outbound = scInit t.outbound f.localVector f.version := rfl
@[simp] theorem commitHandshake_inbound (t : SesState) (f : HsFields) :
    (commitHandshake t f).inbound = scInit t.inbound f.remoteVector f.version := rfl

@[simp] theorem scInit_initialized (c : ScState) (iv : BitVec 32) (g : BitVec 16) :
    (scInit c iv g).initialized = true := rfl
@[simp] theorem scInit_vector (c : ScState) (iv : BitVec 32) (g : BitVec 16) :
    (scInit c iv g).vector = some (bytesLe32 iv) := rfl
@[simp] theorem scInit_bt (c : ScState) (iv : BitVec 32) (g : BitVec 16) : (scInit c iv g).bt = c.bt := rfl
@[simp] theorem scInit_gameVersion (c : ScState) (iv : BitVec 32) (g : BitVec 16) :
    (scInit c iv g).gameVersion = some g := rfl

end Sys2Proof.Machine
end

