-- ==== Sys2Proof/Laws/Ops.lean ====
section
/-! SUPPORT. What each shared way of ending a command can do, said once. -/

namespace Sys2Proof.Machine

/-- A command on values ends in a next state, in which only the response has changed. -/
theorem finish_eq (s : State) (r : Except ErrCode (List Value)) :
    ∃ resp, finish s r = .next { s with response := some resp } ∧
      ((∃ vs, r = .ok vs ∧ resp = .ok vs) ∨ (∃ e, r = .error e ∧ resp = .err e [])) := by
  cases r with
  | ok vs => exact ⟨_, rfl, .inl ⟨vs, rfl, rfl⟩⟩
  | error e => exact ⟨_, rfl, .inr ⟨e, rfl, rfl⟩⟩

@[simp] theorem finish_ok (s : State) (vs : List Value) :
    finish s (.ok vs) = .next { s with response := some (.ok vs) } := rfl

@[simp] theorem finish_error (s : State) (e : ErrCode) :
    finish s (.error e) = .next { s with response := some (.err e []) } := rfl

/-- A session command that answers a next state ended in one of three ways. -/
theorem finishSes_cases {s s' : State} {r : SesEnd} (h : finishSes s r = .next s') :
    (∃ t vs sent, r = .done t vs sent ∧
      s' = { s with ses := t, tx := s.tx ++ sent, response := some (.ok vs) }) ∨
    (∃ e, r = .raised e ∧ s' = { s with response := some (.err e []) }) ∨
    (∃ e t evs sent, r = .fatal e t evs sent ∧
      s' = { s with ses := t.teardown, tx := s.tx ++ sent, response := some (.err e evs) }) := by
  cases r with
  | done t vs sent => exact .inl ⟨t, vs, sent, rfl, by cases h; rfl⟩
  | raised e => exact .inr (.inl ⟨e, rfl, by cases h; rfl⟩)
  | fatal e t evs sent => exact .inr (.inr ⟨e, t, evs, sent, rfl, by cases h; rfl⟩)
  | fault f => cases h

/-- No meaning touches the commands that wait. -/
theorem finishSes_pending {s s' : State} {r : SesEnd} (h : finishSes s r = .next s') :
    s'.pending = s.pending := by
  obtain ⟨_, _, _, _, rfl⟩ | ⟨_, _, rfl⟩ | ⟨_, _, _, _, _, rfl⟩ := finishSes_cases h <;> rfl

theorem fetch_cons (s : State) (c : Command) (rest : List Command) (h : s.pending = c :: rest) :
    s.fetch = some (c, { s with pending := rest }) := by
  simp [State.fetch, h]

theorem fetch_nil (s : State) (h : s.pending = []) : s.fetch = none := by
  simp [State.fetch, h]

/-- What a step can do: nothing, with no command issued; `ILLEGAL`, for a command that does not decode; else the
meaning of the instruction decoded. -/
theorem step_cases (s : State) :
    (s.pending = [] ∧ step s = .next s) ∨
    (∃ c rest e, s.pending = c :: rest ∧ decode c = .error e ∧
      step s = .next { s with pending := rest, response := some (.err .illegal []) }) ∨
    (∃ c rest i, s.pending = c :: rest ∧ decode c = .ok i ∧ step s = exec i { s with pending := rest }) := by
  cases hp : s.pending with
  | nil => exact .inl ⟨rfl, by simp [step, fetch_nil s hp]⟩
  | cons c rest =>
    cases hd : decode c with
    | error e =>
      exact .inr (.inl ⟨c, rest, e, rfl, hd, by simp [step, fetch_cons s c rest hp, hd, State.raise]⟩)
    | ok i => exact .inr (.inr ⟨c, rest, i, rfl, hd, by simp [step, fetch_cons s c rest hp, hd]⟩)

end Sys2Proof.Machine
end

