-- ==== Sys2Proof/Laws/Session.lean ====
section
/-! SUPPORT. The laws of the receive buffer and of the frame loop. -/

namespace Sys2Proof.Machine

/-- Loading cells that all exist and all hold a value (R250). -/
theorem rxLoad_ok {capacity : Nat} {m : Memory} {a n : Nat} (h : a + n ≤ capacity)
    (hs : ∀ i, a ≤ i → i < a + n → (m.read i).isSome = true) :
    ∃ d, rxLoad capacity m a n = .ok d ∧ d.length = n ∧ ∀ i (hi : i < d.length), m.read (a + i) = some d[i] := by
  induction n generalizing a with
  | zero => exact ⟨[], rfl, rfl, by simp⟩
  | succ n ih =>
    obtain ⟨d, hd, hl, hr⟩ := ih (a := a + 1) (by omega) (fun i h1 h2 => hs i (by omega) (by omega))
    obtain ⟨b, hb⟩ := Option.isSome_iff_exists.mp (hs a (Nat.le_refl a) (by omega))
    refine ⟨b :: d, ?_, by simp [hl], ?_⟩
    · simp [rxLoad, Nat.not_le.mpr (by omega : a < capacity), hb, hd]
    · intro i hi
      cases i with
      | zero => simpa using hb
      | succ i =>
        have := hr i (by simpa using hi)
        rw [show a + (i + 1) = a + 1 + i by omega, this]
        simp

/-- Loading cells whose contents are known gives those contents. -/
theorem rxLoad_eq {capacity : Nat} {m : Memory} {a : Nat} {d : Bytes} (h : a + d.length ≤ capacity)
    (hr : ∀ i (hi : i < d.length), m.read (a + i) = some d[i]) : rxLoad capacity m a d.length = .ok d := by
  induction d generalizing a with
  | nil => rfl
  | cons b bs ih =>
    simp only [List.length_cons] at h
    have h0 : m.read a = some b := hr 0 (by simp)
    have hbs : rxLoad capacity m (a + 1) bs.length = .ok bs := ih (by omega) (by
      intro i hi
      have := hr (i + 1) (by simpa using hi)
      rw [show a + 1 + i = a + (i + 1) by omega, this]
      simp)
    simp [rxLoad, Nat.not_le.mpr (by omega : a < capacity), h0, hbs]

/-- A load that answers bytes read every one of them. -/
theorem rxLoad_length {capacity : Nat} {m : Memory} {a n : Nat} {d : Bytes} (h : rxLoad capacity m a n = .ok d) :
    d.length = n := by
  induction n generalizing a d with
  | zero =>
    cases h
    rfl
  | succ n ih =>
    simp only [rxLoad] at h
    split at h
    · cases h
    · split at h
      · cases h
      · split at h
        · rename_i hrec
          cases h
          simp [ih hrec]
        · cases h

/-- Storing two sequences one after the other is storing them together. -/
theorem Memory.store_append (m : Memory) (a : Nat) (d e : Bytes) :
    m.store a (d ++ e) = (m.store a d).store (a + d.length) e := by
  induction d generalizing m a with
  | nil => rfl
  | cons b bs ih =>
    simp only [List.cons_append, Memory.store, ih, List.length_cons]
    rw [show a + 1 + bs.length = a + (bs.length + 1) by omega]

/-- A dynamic-header reader over at least 2 bytes (R150). -/
theorem rdNew_dynamic {buf : Bytes} (h : 2 ≤ buf.length) :
    rdNew buf .dynamicHeader = .ok ⟨buf, 2, .dynamicHeader, none⟩ := by
  match buf, h with
  | b0 :: b1 :: rest, _ => rfl

theorem frameLoop_short (p : Params) (k : Nat) (c : ScState) {d : Bytes} (h : d.length < 4) :
    frameLoop p k c d = ⟨c, [], .wait d⟩ := by
  cases k with
  | zero => rfl
  | succ k =>
    match d, h with
    | [], _ => rfl
    | [_], _ => rfl
    | [_, _], _ => rfl
    | [_, _, _], _ => rfl

/-- One turn of the frame loop with a header present (R250). -/
theorem frameLoop_cons (p : Params) (k : Nat) (c : ScState) (b0 b1 b2 b3 : Byte) (body : Bytes) :
    frameLoop p (k + 1) c (b0 :: b1 :: b2 :: b3 :: body) =
      if frameHdrBytes + frameLength b0 b1 b2 b3 > p.recvCapacity then ⟨c, [], .badLength⟩
      else if frameLength b0 b1 b2 b3 < extHdrBytes then ⟨c, [], .badLength⟩
      else if body.length < frameLength b0 b1 b2 b3 then ⟨c, [], .wait (b0 :: b1 :: b2 :: b3 :: body)⟩
      else
        match scDecrypt p c (body.take (frameLength b0 b1 b2 b3)) with
        | .error e => ⟨c, [], .failed e⟩
        | .ok (c', payload) =>
          match rdNew payload .dynamicHeader with
          | .error e => ⟨c, [], .failed e⟩
          | .ok r =>
            { frameLoop p k c' (body.drop (frameLength b0 b1 b2 b3)) with
              events := .packet r :: (frameLoop p k c' (body.drop (frameLength b0 b1 b2 b3))).events } := rfl

theorem frameLoop_badLength (p : Params) (k : Nat) (c : ScState) (b0 b1 b2 b3 : Byte) (body : Bytes)
    (h : frameLength b0 b1 b2 b3 < 2 ∨ p.recvCapacity < 4 + frameLength b0 b1 b2 b3) :
    frameLoop p (k + 1) c (b0 :: b1 :: b2 :: b3 :: body) = ⟨c, [], .badLength⟩ := by
  rw [frameLoop_cons]
  split
  · rfl
  · rw [if_pos]
    simp only [frameHdrBytes, extHdrBytes] at *
    omega

theorem frameLoop_wait (p : Params) (k : Nat) (c : ScState) (b0 b1 b2 b3 : Byte) (body : Bytes)
    (h2 : 2 ≤ frameLength b0 b1 b2 b3) (hc : 4 + frameLength b0 b1 b2 b3 ≤ p.recvCapacity)
    (hb : body.length < frameLength b0 b1 b2 b3) :
    frameLoop p (k + 1) c (b0 :: b1 :: b2 :: b3 :: body) = ⟨c, [], .wait (b0 :: b1 :: b2 :: b3 :: body)⟩ := by
  rw [frameLoop_cons, if_neg (Nat.not_lt.mpr hc), if_neg (Nat.not_lt.mpr h2), if_pos hb]

/-- A whole frame on an initialized cipher: one packet over the decrypted payload, one shuffle, then the rest (R252). -/
theorem frameLoop_frame (p : Params) (k : Nat) {c : ScState} {v : BytesN 4} (hi : c.initialized = true)
    (hv : c.vector = some v) (b0 b1 b2 b3 : Byte) (body : Bytes)
    (h2 : 2 ≤ frameLength b0 b1 b2 b3) (hc : 4 + frameLength b0 b1 b2 b3 ≤ p.recvCapacity)
    (hb : frameLength b0 b1 b2 b3 ≤ body.length) :
    frameLoop p (k + 1) c (b0 :: b1 :: b2 :: b3 :: body) =
      { frameLoop p k { c with vector := some (p.shuffle v) } (body.drop (frameLength b0 b1 b2 b3)) with
        events := .packet ⟨cryptRange p c.bt.key v (frameLength b0 b1 b2 b3) true
            (body.take (frameLength b0 b1 b2 b3)), 2, .dynamicHeader, none⟩ ::
          (frameLoop p k { c with vector := some (p.shuffle v) }
            (body.drop (frameLength b0 b1 b2 b3))).events } := by
  have hl : (body.take (frameLength b0 b1 b2 b3)).length = frameLength b0 b1 b2 b3 := by
    simp only [List.length_take]
    omega
  rw [frameLoop_cons, if_neg (Nat.not_lt.mpr hc), if_neg (Nat.not_lt.mpr h2), if_neg (Nat.not_lt.mpr hb),
    scDecrypt_eq p hi hv, hl]
  simp only
  rw [rdNew_dynamic (by rw [cryptRange_length] <;> omega)]

/-- What the frame loop can do at its head (R250): wait, find a bad length, find a cipher that is not ready, or take a
whole frame. -/
theorem frameLoop_cases (p : Params) (k : Nat) (c : ScState) (d : Bytes) :
    (frameLoop p (k + 1) c d = ⟨c, [], .wait d⟩ ∧ d.length < p.recvCapacity) ∨
    (frameLoop p (k + 1) c d = ⟨c, [], .badLength⟩) ∨
    (frameLoop p (k + 1) c d = ⟨c, [], .failed .uninit⟩ ∧ (c.initialized = false ∨ c.vector = none)) ∨
    (∃ (v : BytesN 4) (b0 b1 b2 b3 : Byte) (body : Bytes),
      d = b0 :: b1 :: b2 :: b3 :: body ∧ c.initialized = true ∧ c.vector = some v ∧
      2 ≤ frameLength b0 b1 b2 b3 ∧ 4 + frameLength b0 b1 b2 b3 ≤ p.recvCapacity ∧
      frameLength b0 b1 b2 b3 ≤ body.length) := by
  have h6 := p.capacity_ge
  match d with
  | [] => exact .inl ⟨rfl, by simp only [List.length_nil]; omega⟩
  | [_] => exact .inl ⟨rfl, by simp only [List.length_cons, List.length_nil]; omega⟩
  | [_, _] => exact .inl ⟨rfl, by simp only [List.length_cons, List.length_nil]; omega⟩
  | [_, _, _] => exact .inl ⟨rfl, by simp only [List.length_cons, List.length_nil]; omega⟩
  | b0 :: b1 :: b2 :: b3 :: body =>
    by_cases hbad : frameLength b0 b1 b2 b3 < 2 ∨ p.recvCapacity < 4 + frameLength b0 b1 b2 b3
    · exact .inr (.inl (frameLoop_badLength p k c b0 b1 b2 b3 body hbad))
    · by_cases hb : body.length < frameLength b0 b1 b2 b3
      · refine .inl ⟨frameLoop_wait p k c b0 b1 b2 b3 body (by omega) (by omega) hb, ?_⟩
        simp only [List.length_cons]
        omega
      · cases hi : c.initialized with
        | false =>
          refine .inr (.inr (.inl ⟨?_, .inl rfl⟩))
          rw [frameLoop_cons, if_neg (by simp only [frameHdrBytes]; omega),
            if_neg (by simp only [extHdrBytes]; omega), if_neg hb]
          simp [scDecrypt, hi]
        | true =>
          cases hv : c.vector with
          | none =>
            refine .inr (.inr (.inl ⟨?_, .inr rfl⟩))
            rw [frameLoop_cons, if_neg (by simp only [frameHdrBytes]; omega),
              if_neg (by simp only [extHdrBytes]; omega), if_neg hb]
            simp [scDecrypt, hi, crypt, hv]
          | some v => exact .inr (.inr (.inr ⟨v, b0, b1, b2, b3, body, rfl, rfl, rfl, by omega, by omega, by omega⟩))

/-- A frame that waits is shorter than the buffer (R253). -/
theorem frameLoop_rest_lt {p : Params} {k : Nat} {c : ScState} {d rest : Bytes} (hk : d.length ≤ k)
    (h : (frameLoop p k c d).stop = .wait rest) : rest.length < p.recvCapacity := by
  have h6 := p.capacity_ge
  induction k generalizing c d with
  | zero =>
    have : d = [] := List.eq_nil_of_length_eq_zero (by omega)
    subst this
    rw [frameLoop_short p 0 c (by simp)] at h
    cases h
    simp only [List.length_nil]
    omega
  | succ k ih =>
    rcases frameLoop_cases p k c d with ⟨he, hl⟩ | he | ⟨he, -⟩ | ⟨v, b0, b1, b2, b3, body, rfl, hi, hv, h2, hc, hb⟩
    · rw [he] at h
      cases h
      exact hl
    · rw [he] at h
      cases h
    · rw [he] at h
      cases h
    · rw [frameLoop_frame p k hi hv b0 b1 b2 b3 body h2 hc hb] at h
      simp only [List.length_cons] at hk
      exact ih (by simp only [List.length_drop]; omega) h

/-- The loop only ever shuffles the inbound vector: the key, the version and the flag stand (R252). -/
theorem frameLoop_inbound (p : Params) (k : Nat) (c : ScState) (d : Bytes) :
    (frameLoop p k c d).inbound.initialized = c.initialized ∧ (frameLoop p k c d).inbound.bt = c.bt ∧
      (frameLoop p k c d).inbound.gameVersion = c.gameVersion ∧
      (frameLoop p k c d).inbound.vector.isSome = c.vector.isSome := by
  induction k generalizing c d with
  | zero => exact ⟨rfl, rfl, rfl, rfl⟩
  | succ k ih =>
    rcases frameLoop_cases p k c d with ⟨he, -⟩ | he | ⟨he, -⟩ | ⟨v, b0, b1, b2, b3, body, rfl, hi, hv, h2, hc, hb⟩
    · simp [he]
    · simp [he]
    · simp [he]
    · rw [frameLoop_frame p k hi hv b0 b1 b2 b3 body h2 hc hb]
      have := ih { c with vector := some (p.shuffle v) } (body.drop (frameLength b0 b1 b2 b3))
      exact ⟨this.1, this.2.1, this.2.2.1, by rw [hv]; exact this.2.2.2⟩

/-- Every packet the loop emits carries a reader that meets its invariants (R28, R88). -/
theorem frameLoop_events_ok (p : Params) (k : Nat) (c : ScState) (d : Bytes) :
    (frameLoop p k c d).events.all eventOk = true := by
  induction k generalizing c d with
  | zero => rfl
  | succ k ih =>
    rcases frameLoop_cases p k c d with ⟨he, -⟩ | he | ⟨he, -⟩ | ⟨v, b0, b1, b2, b3, body, rfl, hi, hv, h2, hc, hb⟩
    · simp [he]
    · simp [he]
    · simp [he]
    · rw [frameLoop_frame p k hi hv b0 b1 b2 b3 body h2 hc hb]
      have hl : (body.take (frameLength b0 b1 b2 b3)).length ≤ frameLength b0 b1 b2 b3 := by simp
      simp only [List.all_cons, ih, Bool.and_true, eventOk, rdOk, cryptRange_length _ _ _ _ _ _ hl]
      simp only [List.length_take, Nat.min_eq_left hb]
      simp [h2, extHdrBytes]

/-- A cipher that is ready stays ready, so the loop never fails on it (R250). -/
theorem frameLoop_ready {p : Params} {k : Nat} {c : ScState} {d : Bytes} {e : ErrCode} (hi : c.initialized = true)
    (hv : c.vector.isSome = true) : (frameLoop p k c d).stop ≠ .failed e := by
  induction k generalizing c d with
  | zero => simp [frameLoop]
  | succ k ih =>
    rcases frameLoop_cases p k c d with ⟨he, -⟩ | he | ⟨-, h⟩ | ⟨v, b0, b1, b2, b3, body, rfl, hi', hv', h2, hc, hb⟩
    · simp [he]
    · simp [he]
    · rcases h with h | h
      · simp [h] at hi
      · simp [h] at hv
    · rw [frameLoop_frame p k hi' hv' b0 b1 b2 b3 body h2 hc hb]
      exact ih (c := { c with vector := some (p.shuffle v) }) hi rfl

/-- Everything the handshake parse can do (R245): the fields at their places, when all of them fit in the packet, and
`BOUNDS` otherwise. The number `n` is the sub-version's length. -/
theorem parseHandshake_eq (hs : Bytes) {n : Nat} (hn : n = (leBits 16 (memRead hs 2 2)).toNat) :
    parseHandshake hs =
      if 4 ≤ hs.length ∧ 4 + n + 9 ≤ hs.length ∧ (15 ≤ hs.length → 4 + n + 10 ≤ hs.length) then
        .ok { version := leBits 16 (memRead hs 0 2)
              subversion := memRead hs 4 n
              localVector := leBits 32 (memRead hs (4 + n) 4)
              remoteVector := leBits 32 (memRead hs (4 + n + 4) 4)
              locale := leBits 8 (memRead hs (4 + n + 8) 1)
              context := if 15 ≤ hs.length then some (leBits 8 (memRead hs (4 + n + 9) 1)) else none }
      else .error .bounds := by
  unfold parseHandshake
  simp only [rdNew, rdStr, bind, Except.bind]
  by_cases h2 : 2 ≤ hs.length
  swap
  · rw [rdBits_error (by simp only; omega), if_neg (by omega)]
  rw [rdBits_ok (by simp only; omega)]
  by_cases h4 : 4 ≤ hs.length
  swap
  · simp only
    rw [rdBits_error (by simp only; omega), if_neg (by omega)]
  simp only
  rw [rdBits_ok (by simp only; omega)]
  simp only [Nat.zero_add, Nat.reduceMul, Nat.reduceAdd, ← hn]
  by_cases hsub : 4 + n ≤ hs.length
  swap
  · rw [rdTake_error (by simp only; omega), if_neg (by omega)]
  rw [rdTake_ok (by simp only; omega)]
  by_cases hl : 4 + n + 4 ≤ hs.length
  swap
  · simp only
    rw [rdBits_error (by simp only; omega), if_neg (by omega)]
  simp only
  rw [rdBits_ok (by simp only; omega)]
  by_cases hr : 4 + n + 4 + 4 ≤ hs.length
  swap
  · simp only
    rw [rdBits_error (by simp only; omega), if_neg (by omega)]
  simp only
  rw [rdBits_ok (by simp only; omega)]
  by_cases hc : 4 + n + 4 + 4 + 1 ≤ hs.length
  swap
  · simp only
    rw [rdBits_error (by simp only; omega), if_neg (by omega)]
  simp only
  rw [rdBits_ok (by simp only; omega)]
  simp only [hsContextMin, ge_iff_le]
  by_cases hx : 15 ≤ hs.length
  · rw [if_pos hx]
    by_cases hy : 4 + n + 4 + 4 + 1 + 1 ≤ hs.length
    · rw [rdBits_ok (by simp only; omega), if_pos ⟨h4, by omega, fun _ => by omega⟩, if_pos hx]
      rfl
    · rw [rdBits_error (by simp only; omega), if_neg (by omega)]
  · rw [if_neg hx, if_pos ⟨h4, by omega, fun h => absurd h hx⟩, if_neg hx]
    rfl

/-- What `SES_RECEIVE` runs on: the bytes received and not yet framed, followed by those of the read (R250). -/
theorem sesReceive_data {p : Params} {t : SesState} {old d : Bytes} (hm : t.mode = .connected)
    (hl : old.length = t.fill) (hr : ∀ i (hi : i < old.length), t.rx.read i = some old[i])
    (hd : d ≠ []) (hc : old.length + d.length ≤ p.recvCapacity) :
    sesReceive p t (.data d) = receiveBytes p { t with rx := t.rx.store t.fill d } (old ++ d) := by
  have hd0 : d.length ≠ 0 := by simpa using hd
  have hload : rxLoad p.recvCapacity (t.rx.store t.fill d) 0 (t.fill + d.length) = .ok (old ++ d) := by
    have := rxLoad_eq (capacity := p.recvCapacity) (m := t.rx.store t.fill d) (a := 0) (d := old ++ d)
      (by simpa using hc) (by
        intro i hi
        simp only [Nat.zero_add]
        by_cases hio : i < old.length
        · rw [Memory.read_store_outside _ _ _ (by omega), hr i hio, List.getElem_append_left]
        · have := Memory.read_store_inside t.rx t.fill d (i := i - old.length) (by simp at hi; omega)
          rw [show t.fill + (i - old.length) = i by omega] at this
          rw [this, List.getElem_append_right (by omega)])
    rwa [List.length_append, hl] at this
  simp only [sesReceive, hm, ne_eq, not_true_eq_false, if_false, if_neg hd0, rxStore,
    show ¬ d.length > p.recvCapacity - t.fill by omega, show ¬ p.recvCapacity < t.fill + d.length by omega, hload]

/-- What the extraction part can do (R248, R250): go on to the frames, wait for the handshake, end fatally, or take the
handshake and go on. -/
theorem receiveBytes_cases (p : Params) (t : SesState) (data : Bytes) :
    (t.handshaken = true ∧ receiveBytes p t data = receiveFrames p t [] data) ∨
    (t.handshaken = false ∧ data.length < p.recvCapacity ∧
      receiveBytes p t data = .done { t with fill := data.length } [.events []] []) ∨
    (t.handshaken = false ∧ ∃ e, (e = .framing ∨ e = .handshake) ∧ receiveBytes p t data = .fatal e t [] []) ∨
    (t.handshaken = false ∧ ∃ (l0 l1 : Byte) (rest : Bytes) (f : HsFields), data = l0 :: l1 :: rest ∧
      2 + (le16 l0 l1).toNat ≤ p.recvCapacity ∧ (le16 l0 l1).toNat ≤ rest.length ∧
      parseHandshake (rest.take (le16 l0 l1).toNat) = .ok f ∧
      receiveBytes p t data = receiveFrames p (commitHandshake t f) [hsEvent f] (rest.drop (le16 l0 l1).toNat)) := by
  have h6 := p.capacity_ge
  cases hh : t.handshaken with
  | true => exact .inl ⟨rfl, by simp [receiveBytes, hh]⟩
  | false =>
    right
    match data with
    | [] => exact .inl ⟨rfl, by simp; omega, by simp [receiveBytes, hh]⟩
    | [_] => exact .inl ⟨rfl, by simp; omega, by simp [receiveBytes, hh]⟩
    | l0 :: l1 :: rest =>
      by_cases hc : 2 + (le16 l0 l1).toNat > p.recvCapacity
      · exact .inr (.inl ⟨rfl, .framing, .inl rfl, by simp [receiveBytes, hh, hc]⟩)
      · by_cases hr : rest.length < (le16 l0 l1).toNat
        · exact .inl ⟨rfl, by simp; omega, by simp [receiveBytes, hh, hc, hr]⟩
        · cases hp : parseHandshake (rest.take (le16 l0 l1).toNat) with
          | error e => exact .inr (.inl ⟨rfl, .handshake, .inr rfl, by simp [receiveBytes, hh, hc, hr, hp]⟩)
          | ok f => exact .inr (.inr ⟨rfl, l0, l1, rest, f, rfl, by omega, by omega, hp, by
              simp [receiveBytes, hh, hc, hr, hp]⟩)

/-- What the frame part can do with a ready cipher (R250): wait for more bytes, or end in a fatal `FRAMING`. -/
theorem receiveFrames_cases {p : Params} {t : SesState} (evs : List Event) (data : Bytes)
    (hi : t.inbound.initialized = true) (hv : t.inbound.vector.isSome = true) :
    (∃ rest, (frameLoop p data.length t.inbound data).stop = .wait rest ∧ rest.length < p.recvCapacity ∧
      receiveFrames p t evs data =
        .done ({ t with inbound := (frameLoop p data.length t.inbound data).inbound }.compact rest)
          [.events (evs ++ (frameLoop p data.length t.inbound data).events)] []) ∨
    ((frameLoop p data.length t.inbound data).stop = .badLength ∧
      receiveFrames p t evs data =
        .fatal .framing { t with inbound := (frameLoop p data.length t.inbound data).inbound }
          (evs ++ (frameLoop p data.length t.inbound data).events) []) := by
  cases hs : (frameLoop p data.length t.inbound data).stop with
  | wait rest => exact .inl ⟨rest, rfl, frameLoop_rest_lt (Nat.le_refl _) hs, by simp [receiveFrames, hs]⟩
  | badLength => exact .inr ⟨rfl, by simp [receiveFrames, hs]⟩
  | failed e => exact absurd hs (frameLoop_ready hi hv)

/-- The bound on the number of frames does not matter once it reaches the number of bytes (R250). -/
theorem frameLoop_fuel (p : Params) (k k' : Nat) (c : ScState) (d : Bytes) (h : d.length ≤ k) (h' : d.length ≤ k') :
    frameLoop p k c d = frameLoop p k' c d := by
  induction k generalizing k' c d with
  | zero =>
    rw [frameLoop_short p 0 c (by omega), frameLoop_short p k' c (by omega)]
  | succ k ih =>
    cases k' with
    | zero => rw [frameLoop_short p 0 c (by omega), frameLoop_short p _ c (by omega)]
    | succ k' =>
      match d with
      | [] | [_] | [_, _] | [_, _, _] => rfl
      | b0 :: b1 :: b2 :: b3 :: body =>
        simp only [frameLoop_cons]
        simp only [List.length_cons] at h h'
        have := fun c' => ih k' c' (body.drop (frameLength b0 b1 b2 b3)) (by simp; omega) (by simp; omega)
        simp only [this]

/-- The loop over a stream in two parts: the loop over the first part, then over what it left and the second (R254). -/
theorem frameLoop_append (p : Params) (k k' : Nat) (c : ScState) (d1 d2 rest : Bytes)
    (h : (d1 ++ d2).length ≤ k) (h' : d1.length ≤ k')
    (hw : (frameLoop p k c (d1 ++ d2)).stop = .wait rest) :
    ∃ mid, (frameLoop p k' c d1).stop = .wait mid ∧ mid.length ≤ d1.length ∧
      (frameLoop p (mid ++ d2).length (frameLoop p k' c d1).inbound (mid ++ d2)).stop = .wait rest ∧
      (frameLoop p k c (d1 ++ d2)).inbound =
        (frameLoop p (mid ++ d2).length (frameLoop p k' c d1).inbound (mid ++ d2)).inbound ∧
      (frameLoop p k c (d1 ++ d2)).events = (frameLoop p k' c d1).events ++
        (frameLoop p (mid ++ d2).length (frameLoop p k' c d1).inbound (mid ++ d2)).events := by
  induction k' generalizing k c d1 with
  | zero =>
    have : d1 = [] := List.eq_nil_of_length_eq_zero (by omega)
    subst this
    refine ⟨[], rfl, Nat.le_refl _, ?_⟩
    simp only [frameLoop, List.nil_append] at *
    rw [frameLoop_fuel p d2.length k c d2 (Nat.le_refl _) (by simpa using h)]
    exact ⟨hw, rfl, rfl⟩
  | succ k' ih =>
    have whole : frameLoop p (k' + 1) c d1 = ⟨c, [], .wait d1⟩ →
        ∃ mid, (frameLoop p (k' + 1) c d1).stop = .wait mid ∧ mid.length ≤ d1.length ∧
          (frameLoop p (mid ++ d2).length (frameLoop p (k' + 1) c d1).inbound (mid ++ d2)).stop = .wait rest ∧
          (frameLoop p k c (d1 ++ d2)).inbound =
            (frameLoop p (mid ++ d2).length (frameLoop p (k' + 1) c d1).inbound (mid ++ d2)).inbound ∧
          (frameLoop p k c (d1 ++ d2)).events = (frameLoop p (k' + 1) c d1).events ++
            (frameLoop p (mid ++ d2).length (frameLoop p (k' + 1) c d1).inbound (mid ++ d2)).events := fun he => by
      rw [he]
      refine ⟨d1, rfl, Nat.le_refl _, ?_⟩
      rw [frameLoop_fuel p (d1 ++ d2).length k c _ (Nat.le_refl _) h]
      exact ⟨hw, rfl, rfl⟩
    match d1, h, h', hw, ih, whole with
    | [], _, _, _, _, whole => exact whole (frameLoop_short _ _ _ (by simp))
    | [_], _, _, _, _, whole => exact whole (frameLoop_short _ _ _ (by simp))
    | [_, _], _, _, _, _, whole => exact whole (frameLoop_short _ _ _ (by simp))
    | [_, _, _], _, _, _, _, whole => exact whole (frameLoop_short _ _ _ (by simp))
    | b0 :: b1 :: b2 :: b3 :: body, h, h', hw, ih, whole =>
      obtain ⟨k, rfl⟩ : ∃ j, k = j + 1 := ⟨k - 1, by simp at h; omega⟩
      simp only [List.cons_append, List.length_cons] at h h' hw ⊢
      by_cases hbad : frameLength b0 b1 b2 b3 < 2 ∨ p.recvCapacity < 4 + frameLength b0 b1 b2 b3
      · rw [frameLoop_badLength p k c b0 b1 b2 b3 _ hbad] at hw; cases hw
      · by_cases hb : body.length < frameLength b0 b1 b2 b3
        · exact whole (frameLoop_wait p k' c b0 b1 b2 b3 body (by omega) (by omega) hb)
        · rcases frameLoop_cases p k c (b0 :: b1 :: b2 :: b3 :: (body ++ d2)) with
            ⟨he, -⟩ | he | ⟨he, -⟩ | ⟨v, c0, c1, c2, c3, body', heq, hi, hv, h2, hc, hb'⟩
          · exfalso
            rw [frameLoop_cons, if_neg (by simp only [frameHdrBytes]; omega),
              if_neg (by simp only [extHdrBytes]; omega), if_neg (by simp; omega)] at he
            split at he
            · cases he
            · split at he
              · cases he
              · cases he
          · rw [he] at hw; cases hw
          · rw [he] at hw; cases hw
          · cases heq
            rw [frameLoop_frame p k hi hv b0 b1 b2 b3 _ h2 hc hb'] at hw ⊢
            rw [frameLoop_frame p k' hi hv b0 b1 b2 b3 body h2 hc (by omega)]
            simp only at hw ⊢
            rw [List.drop_append_of_le_length (by omega)] at hw ⊢
            obtain ⟨mid, hm, hml, hs, hin, hev⟩ := ih k { c with vector := some (p.shuffle v) }
              (body.drop (frameLength b0 b1 b2 b3)) (by simp at h ⊢; omega) (by simp; omega) hw
            refine ⟨mid, hm, by simp at hml ⊢; omega, hs, hin, ?_⟩
            rw [hev, List.take_append_of_le_length (by omega)]; rfl

/-- The loop over a stream whose first part it leaves waiting: it goes on from what that part left, with the second
part after it (R250, R253). -/
theorem frameLoop_join {p : Params} {k k' : Nat} {c : ScState} {d1 mid : Bytes} (d2 : Bytes)
    (h : (d1 ++ d2).length ≤ k) (h' : d1.length ≤ k') (hw : (frameLoop p k' c d1).stop = .wait mid) :
    frameLoop p k c (d1 ++ d2) =
      { frameLoop p (mid ++ d2).length (frameLoop p k' c d1).inbound (mid ++ d2) with
        events := (frameLoop p k' c d1).events ++
          (frameLoop p (mid ++ d2).length (frameLoop p k' c d1).inbound (mid ++ d2)).events } := by
  induction k' generalizing k c d1 with
  | zero =>
    have : d1 = [] := List.eq_nil_of_length_eq_zero (by omega)
    subst this
    rw [frameLoop_short p 0 c (by simp)] at hw ⊢
    cases hw
    exact frameLoop_fuel p k _ c d2 (by simpa using h) (by simp)
  | succ k' ih =>
    rcases frameLoop_cases p k' c d1 with ⟨he, -⟩ | he | ⟨he, -⟩ | ⟨v, b0, b1, b2, b3, body, rfl, hi, hv, h2, hc, hb⟩
    · rw [he] at hw ⊢
      cases hw
      exact frameLoop_fuel p k _ c _ h (by simp)
    · rw [he] at hw
      cases hw
    · rw [he] at hw
      cases hw
    · obtain ⟨k, rfl⟩ : ∃ j, k = j + 1 := ⟨k - 1, by simp at h; omega⟩
      rw [frameLoop_frame p k' hi hv b0 b1 b2 b3 body h2 hc hb] at hw ⊢
      simp only [List.cons_append, List.length_cons, List.length_append] at h h' ⊢
      rw [frameLoop_frame p k hi hv b0 b1 b2 b3 _ h2 hc (by simp; omega), List.drop_append_of_le_length hb,
        List.take_append_of_le_length hb, ih (by simp; omega) (by simp; omega) hw]
      simp

end Sys2Proof.Machine
end

