-- ==== Sys2Proof/Machine/Aes.lean ====
section
/-! DEFINITION. The DEFAULT instantiation of `BLOCK_ENCRYPT`: AES-256 encryption of one block (00_scope.md R7,
20_memory.md R56, 93_implementation_defined.md I-GK-1, I-GK-2). PRESUMED (log 7), safe: no rule rests on it and the
machine does not use it; only tests that name it do. The algorithm is FIPS-197's. -/

namespace Sys2Proof.Machine

/-- The AES S-box. -/
def aesSbox : Bytes :=
  [0x63, 0x7c, 0x77, 0x7b, 0xf2, 0x6b, 0x6f, 0xc5, 0x30, 0x01, 0x67, 0x2b, 0xfe, 0xd7, 0xab, 0x76] ++
  [0xca, 0x82, 0xc9, 0x7d, 0xfa, 0x59, 0x47, 0xf0, 0xad, 0xd4, 0xa2, 0xaf, 0x9c, 0xa4, 0x72, 0xc0] ++
  [0xb7, 0xfd, 0x93, 0x26, 0x36, 0x3f, 0xf7, 0xcc, 0x34, 0xa5, 0xe5, 0xf1, 0x71, 0xd8, 0x31, 0x15] ++
  [0x04, 0xc7, 0x23, 0xc3, 0x18, 0x96, 0x05, 0x9a, 0x07, 0x12, 0x80, 0xe2, 0xeb, 0x27, 0xb2, 0x75] ++
  [0x09, 0x83, 0x2c, 0x1a, 0x1b, 0x6e, 0x5a, 0xa0, 0x52, 0x3b, 0xd6, 0xb3, 0x29, 0xe3, 0x2f, 0x84] ++
  [0x53, 0xd1, 0x00, 0xed, 0x20, 0xfc, 0xb1, 0x5b, 0x6a, 0xcb, 0xbe, 0x39, 0x4a, 0x4c, 0x58, 0xcf] ++
  [0xd0, 0xef, 0xaa, 0xfb, 0x43, 0x4d, 0x33, 0x85, 0x45, 0xf9, 0x02, 0x7f, 0x50, 0x3c, 0x9f, 0xa8] ++
  [0x51, 0xa3, 0x40, 0x8f, 0x92, 0x9d, 0x38, 0xf5, 0xbc, 0xb6, 0xda, 0x21, 0x10, 0xff, 0xf3, 0xd2] ++
  [0xcd, 0x0c, 0x13, 0xec, 0x5f, 0x97, 0x44, 0x17, 0xc4, 0xa7, 0x7e, 0x3d, 0x64, 0x5d, 0x19, 0x73] ++
  [0x60, 0x81, 0x4f, 0xdc, 0x22, 0x2a, 0x90, 0x88, 0x46, 0xee, 0xb8, 0x14, 0xde, 0x5e, 0x0b, 0xdb] ++
  [0xe0, 0x32, 0x3a, 0x0a, 0x49, 0x06, 0x24, 0x5c, 0xc2, 0xd3, 0xac, 0x62, 0x91, 0x95, 0xe4, 0x79] ++
  [0xe7, 0xc8, 0x37, 0x6d, 0x8d, 0xd5, 0x4e, 0xa9, 0x6c, 0x56, 0xf4, 0xea, 0x65, 0x7a, 0xae, 0x08] ++
  [0xba, 0x78, 0x25, 0x2e, 0x1c, 0xa6, 0xb4, 0xc6, 0xe8, 0xdd, 0x74, 0x1f, 0x4b, 0xbd, 0x8b, 0x8a] ++
  [0x70, 0x3e, 0xb5, 0x66, 0x48, 0x03, 0xf6, 0x0e, 0x61, 0x35, 0x57, 0xb9, 0x86, 0xc1, 0x1d, 0x9e] ++
  [0xe1, 0xf8, 0x98, 0x11, 0x69, 0xd9, 0x8e, 0x94, 0x9b, 0x1e, 0x87, 0xe9, 0xce, 0x55, 0x28, 0xdf] ++
  [0x8c, 0xa1, 0x89, 0x0d, 0xbf, 0xe6, 0x42, 0x68, 0x41, 0x99, 0x2d, 0x0f, 0xb0, 0x54, 0xbb, 0x16]

/-- One byte through the S-box. -/
def aesSub (b : Byte) : Byte := aesSbox.getD b.toNat 0

/-- Multiplication by `x` in the AES field. -/
def aesXtime (b : Byte) : Byte := if b.msb then (b <<< 1) ^^^ 0x1b else b <<< 1

/-- Bytewise XOR of two sequences. -/
def xorBytes (a b : Bytes) : Bytes := List.zipWith (· ^^^ ·) a b

/-- The next eight key-schedule words from the last eight, each a list of four bytes. -/
def aesNextWords (rcon : Byte) : List Bytes → List Bytes
  | [w0, w1, w2, w3, w4, w5, w6, w7] =>
    let t := match w7 with
      | [a, b, c, d] => [aesSub b ^^^ rcon, aesSub c, aesSub d, aesSub a]
      | other => other
    let v0 := xorBytes w0 t
    let v1 := xorBytes w1 v0
    let v2 := xorBytes w2 v1
    let v3 := xorBytes w3 v2
    let v4 := xorBytes w4 (v3.map aesSub)
    let v5 := xorBytes w5 v4
    let v6 := xorBytes w6 v5
    [v0, v1, v2, v3, v4, v5, v6, xorBytes w7 v6]
  | other => other

/-- The key-schedule words, eight at a time. -/
def aesSchedule : Nat → Byte → List Bytes → List Bytes
  | 0, _, _ => []
  | n + 1, rcon, ws => ws ++ aesSchedule n (aesXtime rcon) (aesNextWords rcon ws)

/-- A byte sequence cut into pieces of four. -/
def fours : Bytes → List Bytes
  | a :: b :: c :: d :: rest => [a, b, c, d] :: fours rest
  | _ => []

/-- The 15 round keys of a 32-byte key. -/
def aesRoundKeys (key : BytesN 32) : List Bytes :=
  let ws := aesSchedule 8 1 (fours key.toList)
  (List.range 15).map fun r => ((ws.drop (4 * r)).take 4).flatten

/-- ShiftRows on a column-major block. -/
def aesShiftRows (s : Bytes) : Bytes :=
  (List.range 16).map fun k => s.getD (k % 4 + 4 * ((k / 4 + k % 4) % 4)) 0

/-- MixColumns on a column-major block. -/
def aesMixColumns : Bytes → Bytes
  | a :: b :: c :: d :: rest =>
    let t := a ^^^ b ^^^ c ^^^ d
    (a ^^^ t ^^^ aesXtime (a ^^^ b)) :: (b ^^^ t ^^^ aesXtime (b ^^^ c)) :: (c ^^^ t ^^^ aesXtime (c ^^^ d))
      :: (d ^^^ t ^^^ aesXtime (d ^^^ a)) :: aesMixColumns rest
  | _ => []

/-- The rounds after the first key addition: the last one does not mix columns. -/
def aesRounds : List Bytes → Bytes → Bytes
  | [], s => s
  | [k], s => xorBytes (aesShiftRows (s.map aesSub)) k
  | k :: ks, s => aesRounds ks (xorBytes (aesMixColumns (aesShiftRows (s.map aesSub))) k)

/-- A byte sequence as a block of 16 bytes. -/
def blockOfBytes (s : Bytes) : BytesN 16 :=
  #v[s.getD 0 0, s.getD 1 0, s.getD 2 0, s.getD 3 0, s.getD 4 0, s.getD 5 0, s.getD 6 0, s.getD 7 0,
     s.getD 8 0, s.getD 9 0, s.getD 10 0, s.getD 11 0, s.getD 12 0, s.getD 13 0, s.getD 14 0, s.getD 15 0]

/-- AES-256 encryption of one block. -/
def aes256 (key : BytesN 32) (block : BytesN 16) : BytesN 16 :=
  match aesRoundKeys key with
  | [] => block
  | k :: ks => blockOfBytes (aesRounds ks (xorBytes block.toList k))

end Sys2Proof.Machine
end

