-- ==== Sys2Proof/Machine/Assembler.lean ====
section
/-! DEFINITION. The names of the assembler syntax (30_encoding.md R83) and the pseudo-instructions (R84), each of which
stands for exactly one command. No text is part of the machine: a command reaches it as a word and an operand record. -/

namespace Sys2Proof.Machine

/-- The mnemonic of a command (R78, R83). -/
def mnemonic : Opcode → String
  | .vecInit => "VEC_INIT"
  | .vecBytes => "VEC_BYTES"
  | .vecHigh => "VEC_HIGH"
  | .vecShuffle => "VEC_SHUFFLE"
  | .btNew => "BT_NEW"
  | .btBlock => "BT_BLOCK"
  | .scNew => "SC_NEW"
  | .scInit => "SC_INIT"
  | .scEncrypt => "SC_ENCRYPT"
  | .scDecrypt => "SC_DECRYPT"
  | .scQuery => "SC_QUERY"
  | .rdNew => "RD_NEW"
  | .rdI8 => "RD_I8"
  | .rdU8 => "RD_U8"
  | .rdI16 => "RD_I16"
  | .rdU16 => "RD_U16"
  | .rdI32 => "RD_I32"
  | .rdU32 => "RD_U32"
  | .rdI64 => "RD_I64"
  | .rdU64 => "RD_U64"
  | .rdBool => "RD_BOOL"
  | .rdBytes => "RD_BYTES"
  | .rdStr => "RD_STR"
  | .rdFstr => "RD_FSTR"
  | .rdGoto => "RD_GOTO"
  | .rdSkip => "RD_SKIP"
  | .rdTowire => "RD_TOWIRE"
  | .rdExthdr => "RD_EXTHDR"
  | .rdPos => "RD_POS"
  | .rdAbslen => "RD_ABSLEN"
  | .rdDatalen => "RD_DATALEN"
  | .rdTag => "RD_TAG"
  | .wrNew => "WR_NEW"
  | .wrI8 => "WR_I8"
  | .wrU8 => "WR_U8"
  | .wrI16 => "WR_I16"
  | .wrU16 => "WR_U16"
  | .wrI32 => "WR_I32"
  | .wrU32 => "WR_U32"
  | .wrI64 => "WR_I64"
  | .wrU64 => "WR_U64"
  | .wrBool => "WR_BOOL"
  | .wrBytes => "WR_BYTES"
  | .wrStr => "WR_STR"
  | .wrFstr => "WR_FSTR"
  | .wrTowire => "WR_TOWIRE"
  | .wrPos => "WR_POS"
  | .wrAbslen => "WR_ABSLEN"
  | .wrDatalen => "WR_DATALEN"
  | .sesConnect => "SES_CONNECT"
  | .sesReceive => "SES_RECEIVE"
  | .sesSend => "SES_SEND"
  | .sesFramehdr => "SES_FRAMEHDR"
  | .sesClose => "SES_CLOSE"
  | .sesStatus => "SES_STATUS"

/-- The name of a mode (R83). -/
def modeName : Mode → String
  | .noHeader => "NoHeader"
  | .staticHeader => "StaticHeader"
  | .dynamicHeader => "DynamicHeader"

/-- The pseudo-instructions (R84). -/
inductive Pseudo where
  /-- `WR_NEW t`: a tagged writer of the default size. -/
  | wrNewDefault (t : Int)
  /-- `WR_NEW_RAW`: a writer without a header. -/
  | wrNewRaw
  /-- `SC_ENCRYPT_FRAME c, f`: encryption from the session's offset. -/
  | scEncryptFrame (c : ScState) (f : Bytes)
  /-- `RD_FSTR n`: a fixed string, untrimmed. -/
  | rdFstrWhole (r : RdState) (n : Nat)
  /-- `RD_FSTRZ n`: a fixed string, trimmed. -/
  | rdFstrTrimmed (r : RdState) (n : Nat)
deriving DecidableEq, Repr

/-- The one command a pseudo-instruction expands to (R84). -/
def expandPseudo : Pseudo → Instr
  | .wrNewDefault t => .wrNew (some t) none
  | .wrNewRaw => .wrNew none none
  | .scEncryptFrame c f => .scEncrypt c f 4
  | .rdFstrWhole r n => .rdFstr r n false
  | .rdFstrTrimmed r n => .rdFstr r n true

end Sys2Proof.Machine
end

