-- ==== Sys2Proof/Tests/Slice0.lean ====
section
/-! SUPPORT. Tests. Expected values come from spec/95_test_vectors.md (the vector's id stands in the docstring) or from
the rule named. Then, for every statement of the certificate that has hypotheses, a witness that they can be met. -/

namespace Sys2Proof.Tests

open Sys2Proof.Machine

/-! ## Helpers -/

/-- The state an outcome leads to. -/
def nextOf : Result → Option State
  | .next s => some s
  | _ => none

/-- The response of that state. -/
def resp (r : Result) : Option Response := (nextOf r).bind State.response

/-- The session of that state. -/
def sesOf (r : Result) : Option SesState := (nextOf r).map State.ses

/-- Parameters for tests: a shuffle that adds one to byte 0, a block cipher that adds one more than the key's first
byte to every byte of the block, 32 bytes of receive buffer. -/
def testParams : Params where
  shuffle := fun b => #v[b[0] + 1, b[1], b[2], b[3]]
  blockEncrypt := fun k b => blockOfBytes (b.toList.map (· + (k[0] + 1)))
  secret := 0x1122334455667788
  recvCapacity := 32
  shuffle_ne := by decide
  capacity_ge := by decide

/-- The same with the AES-256 default (log 7). -/
def aesParams : Params := { testParams with blockEncrypt := aes256 }

/-- The expanded key of the spec's test file. -/
def keyK : BtState := ⟨#v[0x11, 0, 0, 0, 0x22, 0, 0, 0, 0x33, 0, 0, 0, 0x44, 0, 0, 0, 0x55, 0, 0, 0, 0x66, 0, 0, 0,
  0x77, 0, 0, 0, 0x88, 0, 0, 0]⟩

/-- The vectors `vA` and `vB` of the spec's test file, and their shuffles. -/
def vA : BytesN 4 := #v[4, 3, 2, 1]
def vB : BytesN 4 := #v[8, 7, 6, 5]
def sA : BytesN 4 := #v[5, 3, 2, 1]
def sB : BytesN 4 := #v[9, 7, 6, 5]

/-- The cipher `c1` of the spec's test file, with a given vector. -/
def cipher (v : BytesN 4) : ScState := ⟨true, some v, keyK, some 180⟩

/-- A state after reset under the test parameters, in a given mode. -/
def fresh (m : SesMode) : State :=
  { ses := { SesState.reset testParams with mode := m }, pending := [], response := none, tx := [] }

/-- The state `H` of the spec's test file, and the same with bytes waiting. -/
def stateH : State :=
  { fresh .connected with
    ses := ⟨.connected, true, [], 0, cipher vA, cipher vB⟩ }

/-- The frame of V-SES-11 and its event. -/
def frameB : Bytes := [0xb2, 0x05, 0xb1, 0x05, 0xca, 0x25, 0xed]
def packetB : Event := .packet ⟨[0x2a, 0, 1], 2, .dynamicHeader, none⟩

/-- The handshake of X3. -/
def handshakeX3 : Bytes := [0x0e, 0, 0xb4, 0, 1, 0, 0x31, 4, 3, 2, 1, 8, 7, 6, 5, 8]

/-- The writer of V-SES-24. -/
def writerD : WrState := ⟨[0, 0, 0, 0, 0x14, 0, 0xef, 0xbe, 0xad, 0xde] ++ zeros 54, 10, some 0x14⟩

/-- One read under the test parameters. -/
def recv (s : State) (d : Bytes) : Result := receiveUnder testParams (.data d) s

/-- Two reads, one after the other. -/
def recv2 (s : State) (d e : Bytes) : Result :=
  match recv s d with
  | .next s' => recv s' e
  | r => r

/-! ## Decoding -/

/-- V-DEC-4: the words of units VEC, BT and SC, as spec/opcode_table.json writes them. -/
def wordsVecBtSc : List (Nat × Opcode) :=
  [(0x0101, .vecInit), (0x0102, .vecBytes), (0x0103, .vecHigh), (0x0104, .vecShuffle),
   (0x0201, .btNew), (0x0202, .btBlock),
   (0x0301, .scNew), (0x0302, .scInit), (0x0303, .scEncrypt), (0x0304, .scDecrypt), (0x0305, .scQuery)]

/-- The words of unit RD. -/
def wordsRd : List (Nat × Opcode) :=
  [(0x0401, .rdNew), (0x0410, .rdI8), (0x0411, .rdU8), (0x0412, .rdI16), (0x0413, .rdU16), (0x0414, .rdI32),
   (0x0415, .rdU32), (0x0416, .rdI64), (0x0417, .rdU64), (0x0418, .rdBool), (0x0419, .rdBytes), (0x041A, .rdStr),
   (0x041B, .rdFstr), (0x0420, .rdGoto), (0x0421, .rdSkip), (0x0430, .rdTowire), (0x0431, .rdExthdr),
   (0x0440, .rdPos), (0x0441, .rdAbslen), (0x0442, .rdDatalen), (0x0443, .rdTag)]

/-- The words of units WR and SES. -/
def wordsWrSes : List (Nat × Opcode) :=
  [(0x0501, .wrNew), (0x0510, .wrI8), (0x0511, .wrU8), (0x0512, .wrI16), (0x0513, .wrU16), (0x0514, .wrI32),
   (0x0515, .wrU32), (0x0516, .wrI64), (0x0517, .wrU64), (0x0518, .wrBool), (0x0519, .wrBytes), (0x051A, .wrStr),
   (0x051B, .wrFstr), (0x0530, .wrTowire), (0x0540, .wrPos), (0x0541, .wrAbslen), (0x0542, .wrDatalen),
   (0x0601, .sesConnect), (0x0602, .sesReceive), (0x0603, .sesSend), (0x0604, .sesFramehdr), (0x0605, .sesClose),
   (0x0610, .sesStatus)]

/-- The word names the command, and the operand record of zeros that R78 gives it decodes. -/
def decodes (r : Nat × Opcode) : Bool := (decodeTableWord 16 r.1).map Instr.opcode == some r.2

theorem test_words_vec_bt_sc : wordsVecBtSc.all decodes = true := by decide
theorem test_words_rd : wordsRd.all decodes = true := by decide
theorem test_words_wr_ses : wordsWrSes.all decodes = true := by decide

/-- V-DEC-1, V-DEC-2. -/
theorem test_reserved_words :
    decodeWord 0x0000 = .error .reservedUnit ∧ decodeWord 0x0001 = .error .reservedUnit ∧
    decodeWord 0x0700 = .error .reservedUnit ∧ decodeWord 0xFF01 = .error .reservedUnit ∧
    [0x0105, 0x0203, 0x0306, 0x0402, 0x0444, 0x0502, 0x0531, 0x0606, 0x0611].all
      (fun w => decodeWord w == .error .reservedFunc) = true := by decide

/-- One command of each family with its operand record, written out from R78. -/
theorem test_decode_records :
    decode ⟨0x0101, [.vec (some vA), .u32 7]⟩ = .ok (.vecInit (some vA) 7) ∧
    decode ⟨0x0201, [.u64 5]⟩ = .ok (.btNew 5) ∧
    decode ⟨0x0302, [.sc zeroSc, .u32 1, .u16 2]⟩ = .ok (.scInit zeroSc 1 2) ∧
    decode ⟨0x041B, [.rd zeroRd, .nat 4, .bool true]⟩ = .ok (.rdFstr zeroRd 4 true) ∧
    decode ⟨0x0420, [.rd zeroRd, .int (-1)]⟩ = .ok (.rdGoto zeroRd (-1)) ∧
    decode ⟨0x051B, [.wr zeroWr, .bytes [1], .nat 4]⟩ = .ok (.wrFstr zeroWr [1] 4) ∧
    decode ⟨0x0604, [.bytes [1], .nat 4]⟩ = .ok (.sesFramehdr [1] 4) ∧
    decode ⟨0x0603, [.wr zeroWr, .hostWrite (.failedAfter 3)]⟩ = .ok (.sesSend zeroWr (.failedAfter 3)) := by decide

/-- V-DEC-3, V-RD-24, and records of the wrong type (R77, R86). -/
theorem test_bad_records :
    decode ⟨0x0303, [.sc zeroSc, .bytes []]⟩ = .error .operandCount ∧
    decode ⟨0x0605, [.nat 0]⟩ = .error .operandCount ∧
    decode ⟨0x0410, [.wr zeroWr]⟩ = .error .operandType ∧
    decode ⟨0x0510, [.wr zeroWr, .u8 0]⟩ = .error .operandType ∧
    decode ⟨0x0401, [.bytes [], .mode 3]⟩ = .error .modeRange := by decide

/-- Every check of `Instr.wf` on ciphers refuses an ill-formed one (R26). -/
theorem test_wf_cipher :
    decode ⟨0x0305, [.sc { zeroSc with initialized := true }]⟩ = .error .operandInvariant ∧
    decode ⟨0x0305, [.sc { cipher vA with vector := none }]⟩ = .error .operandInvariant ∧
    decode ⟨0x0305, [.sc { cipher vA with gameVersion := none }]⟩ = .error .operandInvariant ∧
    decode ⟨0x0305, [.sc { cipher vA with initialized := false }]⟩ = .error .operandInvariant ∧
    Instr.wf (.scQuery (cipher vA)) = true := by decide

/-- Every check on readers refuses an ill-formed one (R28). -/
theorem test_wf_reader :
    decode ⟨0x0440, [.rd ⟨[1], 2, .noHeader, none⟩]⟩ = .error .operandInvariant ∧
    decode ⟨0x0440, [.rd ⟨[1], 0, .noHeader, some 1⟩]⟩ = .error .operandInvariant ∧
    decode ⟨0x0440, [.rd ⟨[1, 0], 1, .staticHeader, some 1⟩]⟩ = .error .operandInvariant ∧
    decode ⟨0x0440, [.rd ⟨[1, 0], 2, .staticHeader, some 2⟩]⟩ = .error .operandInvariant ∧
    decode ⟨0x0440, [.rd ⟨[1, 0], 2, .staticHeader, none⟩]⟩ = .error .operandInvariant ∧
    decode ⟨0x0440, [.rd ⟨[1, 0], 1, .dynamicHeader, none⟩]⟩ = .error .operandInvariant ∧
    decode ⟨0x0440, [.rd ⟨[1, 0], 2, .dynamicHeader, some 1⟩]⟩ = .error .operandInvariant ∧
    Instr.wf (.rdPos ⟨[1, 0], 2, .staticHeader, some 1⟩) = true := by decide

/-- Every check on writers refuses an ill-formed one (R30). -/
theorem test_wf_writer :
    decode ⟨0x0540, [.wr ⟨[1], 2, none⟩]⟩ = .error .operandInvariant ∧
    decode ⟨0x0540, [.wr ⟨[0, 0, 0, 0, 9, 0], 5, some 9⟩]⟩ = .error .operandInvariant ∧
    decode ⟨0x0540, [.wr ⟨[0, 0, 0, 1, 9, 0], 6, some 9⟩]⟩ = .error .operandInvariant ∧
    decode ⟨0x0540, [.wr ⟨[0, 0, 0, 0, 9, 1], 6, some 9⟩]⟩ = .error .operandInvariant ∧
    Instr.wf (.wrPos ⟨[0, 0, 0, 0, 9, 0], 6, some 9⟩) = true := by decide

/-- The pseudo-instructions of R84 and the error codes of R272. -/
theorem test_pseudo_and_codes :
    expandPseudo (.scEncryptFrame zeroSc [1]) = .scEncrypt zeroSc [1] 4 ∧
    expandPseudo (.rdFstrTrimmed zeroRd 3) = .rdFstr zeroRd 3 true ∧
    expandPseudo (.wrNewDefault 20) = .wrNew (some 20) none ∧
    [ErrCode.bounds, .uninit, .conn, .framing, .validation, .state, .handshake, .illegal].map ErrCode.code =
      [1, 2, 3, 4, 5, 6, 7, 8] := by decide

/-! ## Stepping -/

/-- The word of R78 placed next is the one that runs, first after reset: V-SES-31, V-SES-1, R240. -/
theorem test_first_step :
    step (State.reset.withFetchWord 16 0x0602) = .next (State.reset.raise .state) ∧
    step (State.reset.withFetchWord 16 0x0610) = .next (State.reset.succeed
      [.u32 0, .nat 0, .sc (scNew Config.params.secret), .sc (scNew Config.params.secret)]) ∧
    step (State.reset.withFetchWord 16 0x0601) = .next { State.reset with
      ses := { State.reset.ses with mode := .connected }, response := some (.ok []) } ∧
    step (State.reset.withFetchWord 16 0x0606) = .next (State.reset.raise .illegal) ∧
    step State.reset = .next State.reset := ⟨rfl, rfl, rfl, rfl, rfl⟩

/-- Commands run in the order the host issued them (20_memory.md R64). -/
theorem test_order :
    step { State.reset with pending := [⟨0x0102, [.vec (some vA)]⟩, ⟨0x0605, []⟩] } =
      .next { State.reset with pending := [⟨0x0605, []⟩], response := some (.ok [.bytes4 vA]) } := rfl

/-! ## VEC and BT -/

/-- V-VEC-1, V-VEC-4. -/
theorem test_vecInit :
    resp (exec (.vecInit none 0x01020304) State.reset) = some (.ok [.vec (some #v[4, 3, 2, 1])]) ∧
    resp (exec (.vecInit (some vA) 0xFFFFFFFF) State.reset) = some (.ok [.vec (some #v[0xff, 0xff, 0xff, 0xff])]) :=
  by decide

/-- V-VEC-6. -/
theorem test_vecBytes :
    resp (exec (.vecBytes (some vA)) State.reset) = some (.ok [.bytes4 #v[4, 3, 2, 1]]) ∧
    resp (exec (.vecBytes none) State.reset) = some (.err .uninit []) := by decide

/-- V-VEC-5, V-VEC-6. -/
theorem test_vecHigh :
    resp (exec (.vecHigh (some #v[0xaa, 0xbb, 2, 1])) State.reset) = some (.ok [.u16 0x0102]) ∧
    resp (exec (.vecHigh none) State.reset) = some (.err .uninit []) := by decide

/-- V-VEC-7, V-VEC-6. -/
theorem test_vecShuffle :
    vecShuffle testParams (some vA) = .ok (some sA) ∧
    resp (exec (.vecShuffle none) State.reset) = some (.err .uninit []) := by decide

/-- V-BT-4, V-BT-5 and the key of the spec's test file. -/
theorem test_btNew :
    (expandKey 0x0102030405060708).toList = [1, 0, 0, 0, 2, 0, 0, 0, 3, 0, 0, 0, 4, 0, 0, 0, 5, 0, 0, 0, 6, 0, 0, 0,
      7, 0, 0, 0, 8, 0, 0, 0] ∧
    (expandKey 0xFF00000000000000).toList = 0xff :: zeros 31 ∧
    resp (exec (.btNew 0x1122334455667788) State.reset) = some (.ok [.bt keyK]) := by decide

/-- V-BT-1: the AES-256 default. -/
theorem test_aes256 :
    (aes256 (Vector.ofFn fun i : Fin 32 => BitVec.ofNat 8 i.val)
      (Vector.ofFn fun i : Fin 16 => BitVec.ofNat 8 (0x11 * i.val))).toList =
      [0x8e, 0xa2, 0xb7, 0xca, 0x51, 0x67, 0x45, 0xbf, 0xea, 0xfc, 0x49, 0x90, 0x4b, 0x49, 0x60, 0x89] := by
  decide +kernel

/-! ## SC -/

/-- V-SC-13, V-SC-14. -/
theorem test_scNew_scInit_scQuery :
    resp (exec (.scQuery (scNew 5)) State.reset) = some (.ok [.bool false, .vec none, .optU16 none]) ∧
    resp (exec (.scInit (scNew 0x1122334455667788) 0x01020304 180) State.reset) = some (.ok [.sc (cipher vA)]) ∧
    resp (exec (.scQuery (cipher vA)) State.reset) = some (.ok [.bool true, .vec (some vA), .optU16 (some 180)]) := by
  decide

/-- V-SC-1 under the AES-256 default. -/
theorem test_scEncrypt :
    scEncrypt aesParams (cipher vA) (zeros 24) 4 = .ok (cipher sA,
      [0, 0, 0, 0, 0x7f, 0x97, 0x52, 0, 0x4a, 0xfc, 0xc5, 0x3a, 0x1f, 0x36, 0xe3, 0x6b, 0x4c, 0x72, 0x41, 0x69,
       0x62, 0x9e, 0xbe, 0xa6]) := by decide +kernel

/-- V-SC-7, V-SC-9, V-SC-10. -/
theorem test_scEncrypt_edges :
    scEncrypt testParams (cipher vA) [1, 2, 3] 3 = .ok (cipher sA, [1, 2, 3]) ∧
    scEncrypt testParams (cipher vA) [1, 2, 3] 4 = .error .bounds ∧
    scEncrypt testParams (scNew 0x1122334455667788) (zeros 8) 9 = .error .uninit := by decide

/-- V-SC-8, V-SC-11, and R128 by hand: the keystream of the test cipher is `08 07 06 05 + 12` per block. -/
theorem test_scDecrypt :
    scDecrypt testParams (cipher vA) [] = .ok (cipher sA, []) ∧
    scDecrypt testParams (scNew 0) [0] = .error .uninit ∧
    scDecrypt testParams (cipher vB) (zeros 18) = .ok (cipher sB,
      [0x1a, 0x19, 0x18, 0x17, 0x1a, 0x19, 0x18, 0x17, 0x1a, 0x19, 0x18, 0x17, 0x1a, 0x19, 0x18, 0x17, 0x2c, 0x2b]) := by
  decide +kernel

/-- V-SC-4, V-SC-5: the first chunk ends after 1456 bytes, the next after 1460 more, and each restarts the keystream;
by hand, the last 4 bytes of the second chunk are `04 03 02 01 + 92 * 12`. -/
theorem test_keystream_chunks :
    keystream testParams keyK.key vA 1455 = 1 + 91 * 0x12 ∧ keystream testParams keyK.key vA 1456 = 4 + 0x12 ∧
    keystream testParams keyK.key vA 2912 = 4 + 92 * 0x12 ∧ keystream testParams keyK.key vA 2916 = 4 + 0x12 := by
  decide +kernel

/-! ## RD -/

/-- The reader of V-RD-1, and readers without a header. -/
def rd1 : RdState := ⟨[0x14, 0, 0xef, 0xbe], 2, .staticHeader, some 0x14⟩
def rdOf (b : Bytes) : RdState := ⟨b, 0, .noHeader, none⟩

/-- A command that ends `Ok` with a reader moved to `pos` and a value. -/
def okRd (r : RdState) (pos : Nat) (v : Value) : Option Response := some (.ok [.rd { r with pos := pos }, v])

/-- V-RD-1, V-RD-21, V-RD-23. -/
theorem test_rdNew :
    resp (exec (.rdNew [0x14, 0, 0xef, 0xbe] .staticHeader) State.reset) = some (.ok [.rd rd1]) ∧
    resp (exec (.rdNew [1] .staticHeader) State.reset) = some (.err .bounds []) ∧
    resp (exec (.rdNew [] .dynamicHeader) State.reset) = some (.err .bounds []) ∧
    resp (exec (.rdNew [0x2a, 0, 1] .dynamicHeader) State.reset) =
      some (.ok [.rd ⟨[0x2a, 0, 1], 2, .dynamicHeader, none⟩]) := by decide

/-- V-RD-2 to V-RD-8. -/
theorem test_typed_reads :
    resp (exec (.rdU16 rd1) State.reset) = okRd rd1 4 (.u16 0xBEEF) ∧
    resp (exec (.rdU32 rd1) State.reset) = some (.err .bounds []) ∧
    resp (exec (.rdI16 (rdOf [0xfe, 0xff])) State.reset) = okRd (rdOf [0xfe, 0xff]) 2 (.i16 (-2)) ∧
    resp (exec (.rdU64 (rdOf [0x88, 0x77, 0x66, 0x55, 0x44, 0x33, 0x22, 0x11])) State.reset) =
      okRd (rdOf [0x88, 0x77, 0x66, 0x55, 0x44, 0x33, 0x22, 0x11]) 8 (.u64 0x1122334455667788) ∧
    resp (exec (.rdI64 (rdOf (List.replicate 8 0xff))) State.reset) =
      okRd (rdOf (List.replicate 8 0xff)) 8 (.i64 (-1)) ∧
    resp (exec (.rdI8 (rdOf [0x80])) State.reset) = okRd (rdOf [0x80]) 1 (.i8 (-128)) ∧
    resp (exec (.rdU8 (rdOf [0x80])) State.reset) = okRd (rdOf [0x80]) 1 (.u8 128) ∧
    resp (exec (.rdI32 (rdOf [0, 0, 0, 0x80])) State.reset) = okRd (rdOf [0, 0, 0, 0x80]) 4 (.i32 (-2147483648)) ∧
    resp (exec (.rdU32 (rdOf [1, 2, 3, 4, 5])) State.reset) = okRd (rdOf [1, 2, 3, 4, 5]) 4 (.u32 0x04030201) := by
  decide

/-- V-RD-9, V-RD-16. -/
theorem test_rdBool_rdBytes :
    resp (exec (.rdBool (rdOf [2])) State.reset) = okRd (rdOf [2]) 1 (.bool true) ∧
    resp (exec (.rdBool (rdOf [0])) State.reset) = okRd (rdOf [0]) 1 (.bool false) ∧
    resp (exec (.rdBytes { rd1 with pos := 4 } 0) State.reset) = okRd rd1 4 (.bytes []) ∧
    resp (exec (.rdBytes rd1 1) State.reset) = okRd rd1 3 (.bytes [0xef]) := by decide

/-- V-RD-10 to V-RD-12. -/
theorem test_rdStr :
    resp (exec (.rdStr (rdOf [2, 0, 0x68, 0x69])) State.reset) = okRd (rdOf [2, 0, 0x68, 0x69]) 4 (.bytes [0x68, 0x69]) ∧
    resp (exec (.rdStr (rdOf [5, 0, 0x68, 0x69])) State.reset) = some (.err .bounds []) ∧
    resp (exec (.rdStr (rdOf [0, 0])) State.reset) = okRd (rdOf [0, 0]) 2 (.bytes []) := by decide

/-- V-RD-13 to V-RD-15. -/
theorem test_rdFstr :
    resp (exec (.rdFstr (rdOf [0x41, 0x42, 0, 0]) 4 true) State.reset) =
      okRd (rdOf [0x41, 0x42, 0, 0]) 4 (.bytes [0x41, 0x42]) ∧
    resp (exec (.rdFstr (rdOf [0x41, 0x42, 0, 0]) 4 false) State.reset) =
      okRd (rdOf [0x41, 0x42, 0, 0]) 4 (.bytes [0x41, 0x42, 0, 0]) ∧
    resp (exec (.rdFstr (rdOf [0x41, 0, 0x42, 0]) 4 true) State.reset) =
      okRd (rdOf [0x41, 0, 0x42, 0]) 4 (.bytes [0x41, 0, 0x42]) := by decide

/-- V-RD-17 to V-RD-19. -/
theorem test_rdGoto_rdSkip :
    resp (exec (.rdGoto rd1 0) State.reset) = some (.ok [.rd rd1]) ∧
    resp (exec (.rdGoto rd1 4) State.reset) = some (.ok [.rd { rd1 with pos := 4 }]) ∧
    resp (exec (.rdGoto rd1 5) State.reset) = some (.err .bounds []) ∧
    resp (exec (.rdGoto rd1 (-1)) State.reset) = some (.err .bounds []) ∧
    resp (exec (.rdGoto { rdOf [1, 2] with pos := 1 } 0) State.reset) = some (.ok [.rd (rdOf [1, 2])]) ∧
    resp (exec (.rdSkip rd1 0) State.reset) = some (.err .bounds []) ∧
    resp (exec (.rdSkip rd1 (-3)) State.reset) = some (.err .bounds []) ∧
    resp (exec (.rdSkip rd1 2) State.reset) = some (.ok [.rd { rd1 with pos := 4 }]) ∧
    resp (exec (.rdSkip rd1 3) State.reset) = some (.err .bounds []) := by decide

/-- V-RD-20, V-RD-22, V-RD-23. -/
theorem test_reader_queries :
    resp (exec (.rdTowire rd1) State.reset) = some (.ok [.bytes [0xef, 0xbe]]) ∧
    resp (exec (.rdTowire { rdOf [1, 2, 3] with pos := 2 }) State.reset) = some (.ok [.bytes [1, 2]]) ∧
    resp (exec (.rdExthdr (rdOf [1])) State.reset) = some (.err .bounds []) ∧
    resp (exec (.rdExthdr ⟨[0x2a, 0, 1], 2, .dynamicHeader, none⟩) State.reset) = some (.ok [.u16 0x2a]) ∧
    resp (exec (.rdPos rd1) State.reset) = some (.ok [.nat 2]) ∧
    resp (exec (.rdAbslen rd1) State.reset) = some (.ok [.nat 4]) ∧
    resp (exec (.rdDatalen (rdOf [1])) State.reset) = some (.ok [.nat 0]) ∧
    resp (exec (.rdTag rd1) State.reset) = some (.ok [.optU16 (some 0x14)]) := by decide

/-! ## WR -/

/-- V-WR-1 to V-WR-4. -/
theorem test_wrNew :
    resp (exec (.wrNew (some 0x14) none) State.reset) =
      some (.ok [.wr ⟨[0, 0, 0, 0, 0x14, 0] ++ zeros 58, 6, some 0x14⟩]) ∧
    resp (exec (.wrNew (some 1) (some 5)) State.reset) = some (.err .bounds []) ∧
    resp (exec (.wrNew (some 0x10000) (some 5)) State.reset) = some (.err .validation []) ∧
    resp (exec (.wrNew (some (-1)) none) State.reset) = some (.err .validation []) ∧
    resp (exec (.wrNew (some 0xFFFF) (some 6)) State.reset) =
      some (.ok [.wr ⟨[0, 0, 0, 0, 0xff, 0xff], 6, some 0xffff⟩]) := by decide

/-- V-WR-5, V-WR-6: growth in steps of 64. -/
theorem test_growth :
    resp (exec (.wrU8 ⟨[0, 0, 0, 0, 0, 0], 6, some 0⟩ 7) State.reset) =
      some (.ok [.wr ⟨[0, 0, 0, 0, 0, 0, 7] ++ zeros 63, 7, some 0⟩]) ∧
    (wrPut ⟨zeros 10, 0, none⟩ (zeros 200)).buf.length = 202 := by decide +kernel

/-- The bytes a write puts at the front of an empty 8-byte writer. -/
def wrote (i : WrState → Instr) (x : Bytes) : Bool :=
  resp (exec (i ⟨zeros 8, 0, none⟩) State.reset) == some (.ok [.wr ⟨x ++ zeros (8 - x.length), x.length, none⟩])

/-- V-WR-11 to V-WR-13. -/
theorem test_typed_writes :
    wrote (.wrI8 · (-1)) [0xff] = true ∧ wrote (.wrU8 · 7) [7] = true ∧
    wrote (.wrI16 · (-2)) [0xfe, 0xff] = true ∧ wrote (.wrU16 · 0xBEEF) [0xef, 0xbe] = true ∧
    wrote (.wrI32 · (-2147483648)) [0, 0, 0, 0x80] = true ∧
    wrote (.wrU32 · 0xDEADBEEF) [0xef, 0xbe, 0xad, 0xde] = true ∧
    wrote (.wrI64 · (-1)) (List.replicate 8 0xff) = true ∧
    wrote (.wrU64 · 0x1122334455667788) [0x88, 0x77, 0x66, 0x55, 0x44, 0x33, 0x22, 0x11] = true ∧
    wrote (.wrBool · true) [1] = true ∧ wrote (.wrBool · false) [0] = true := by decide

/-- V-WR-7, V-WR-9, V-WR-10. -/
theorem test_sequence_writes :
    resp (exec (.wrBytes ⟨[1], 1, none⟩ []) State.reset) = some (.ok [.wr ⟨[1], 1, none⟩]) ∧
    wrote (.wrBytes · [5, 6, 7]) [5, 6, 7] = true ∧
    wrote (.wrStr · [0x68, 0x69]) [2, 0, 0x68, 0x69] = true ∧
    resp (exec (.wrFstr zeroWr [0x41, 0x42, 0x43] 2) State.reset) = some (.err .bounds []) ∧
    wrote (.wrFstr · [0x41, 0x42] 4) [0x41, 0x42, 0, 0] = true ∧ wrote (.wrFstr · [] 0) [] = true := by decide

/-- V-WR-14 to V-WR-16. -/
theorem test_wrTowire_queries :
    resp (exec (.wrTowire writerD) State.reset) = some (.ok
      [.wr ⟨[0, 0, 0, 0, 0x14, 0, 0xef, 0xbe, 0xad, 0xde], 10, some 0x14⟩, .bytes [0x14, 0, 0xef, 0xbe, 0xad, 0xde]]) ∧
    resp (exec (.wrTowire ⟨zeros 64, 0, none⟩) State.reset) = some (.ok [.wr zeroWr, .bytes []]) ∧
    resp (exec (.wrU8 zeroWr 1) State.reset) = some (.ok [.wr ⟨1 :: zeros 63, 1, none⟩]) ∧
    resp (exec (.wrPos writerD) State.reset) = some (.ok [.nat 10]) ∧
    resp (exec (.wrAbslen writerD) State.reset) = some (.ok [.nat 64]) ∧
    resp (exec (.wrDatalen writerD) State.reset) = some (.ok [.nat 62]) := by decide

/-! ## SES -/

/-- V-SES-2, V-SES-3, V-SES-30. -/
theorem test_sesConnect :
    resp (exec (.sesConnect [0x70] .failed) (fresh .disconnected)) = some (.err .conn []) ∧
    sesOf (exec (.sesConnect [0x70] .opened) (fresh .disconnected)) = some (fresh .connected).ses ∧
    resp (exec (.sesConnect [0x70] .opened) (fresh .connected)) = some (.err .state []) ∧
    resp (exec (.sesConnect [0x70] .opened) (fresh .closed)) = some (.err .state []) := by decide

/-- V-SES-30, and the status of P3. -/
theorem test_sesClose_sesStatus :
    sesOf (exec .sesClose stateH) = some { stateH.ses with mode := .closed } ∧
    resp (exec .sesStatus stateH) = some (.ok [.u32 0x1D, .nat 0, .sc (cipher vA), .sc (cipher vB)]) ∧
    resp (exec .sesStatus { stateH with ses := { stateH.ses with mode := .closed } }) =
      some (.ok [.u32 0x1E, .nat 0, .sc (cipher vA), .sc (cipher vB)]) := by decide

/-- V-SES-21 to V-SES-23. -/
theorem test_sesFramehdr :
    resp (exec (.sesFramehdr (zeros 10) 10) stateH) = some (.ok [.bytes [0xb6, 1, 0xb0, 1, 0, 0, 0, 0, 0, 0]]) ∧
    resp (exec (.sesFramehdr (zeros 4) 0x10003) stateH) = some (.ok [.bytes [0xb6, 1, 0x49, 0xfe]]) ∧
    resp (exec (.sesFramehdr (zeros 4) 0x10004) stateH) = some (.err .bounds []) ∧
    resp (exec (.sesFramehdr (zeros 3) 6) stateH) = some (.err .bounds []) ∧
    resp (exec (.sesFramehdr (zeros 6) 3) stateH) = some (.err .bounds []) ∧
    resp (exec (.sesFramehdr (zeros 6) 6) (fresh .disconnected)) = some (.err .uninit []) := by decide

/-- V-SES-24 under the AES-256 default. -/
theorem test_sesSend :
    resp (sendUnder aesParams writerD .allAccepted stateH) =
      some (.ok [.bytes [0xb6, 1, 0xb0, 1, 0x6b, 0x97, 0xbd, 0xbe, 0xe7, 0x22]]) := by decide +kernel

/-- V-SES-25 (its header), V-SES-26, V-SES-27, V-SES-29. -/
theorem test_sesSend_edges :
    nextOf (sendUnder testParams writerD (.failedAfter 3) stateH) = some { stateH with
      ses := ⟨.closed, true, [], 0, cipher sA, cipher vB⟩, response := some (.err .conn []), tx := [0xb6, 1, 0xb0] } ∧
    resp (sendUnder testParams ⟨zeros 64, 0, none⟩ .allAccepted stateH) = some (.err .state []) ∧
    resp (sendUnder testParams writerD .allAccepted (fresh .connected)) = some (.err .uninit []) ∧
    resp (sendUnder testParams ⟨[0, 0, 0, 0, 0x14, 0], 6, some 0x14⟩ .allAccepted stateH) =
      some (.ok [.bytes [0xb6, 1, 0xb4, 1, 0x14 ^^^ 0x16, 0x15]]) := by decide +kernel

/-- V-SES-11 and V-SES-16 under the AES-256 default. -/
theorem test_sesReceive_frame :
    nextOf (receiveUnder aesParams (.data (frameB ++ [0, 0, 0, 0])) stateH) = some { stateH with
      ses := ⟨.closed, true, [], 0, cipher vA, cipher sB⟩, response := some (.err .framing [packetB]) } := by
  decide +kernel

/-- V-SES-15, V-SES-17 to V-SES-20, V-SES-31. -/
theorem test_sesReceive_edges :
    resp (recv stateH [0, 0, 1, 0, 0xaa]) = some (.err .framing []) ∧
    resp (recv stateH [0, 0, 0x1d, 0]) = some (.err .framing []) ∧
    resp (recv stateH [0, 0, 0x1c, 0]) = some (.ok [.events []]) ∧
    resp (recv2 stateH [0, 0, 0x1c, 0] (zeros 29)) = some (.err .illegal []) ∧
    resp (recv2 stateH [0, 0, 0x1c, 0] (zeros 28)) =
      resp (recv stateH ([0, 0, 0x1c, 0] ++ zeros 28)) ∧
    resp (receiveUnder testParams .failed stateH) = some (.err .conn []) ∧
    resp (recv (fresh .disconnected) [0]) = some (.err .state []) := by decide +kernel

/-- X3, X4, V-SES-4, V-SES-10, V-SES-32. -/
theorem test_handshake :
    resp (recv (fresh .connected) handshakeX3) = some (.ok [.events [.handshake 180 [0x31] (some 1) 8 none]]) ∧
    sesOf (recv (fresh .connected) handshakeX3) = some stateH.ses ∧
    resp (recv2 (fresh .connected) [0x0e] (handshakeX3.drop 1)) =
      some (.ok [.events [.handshake 180 [0x31] (some 1) 8 none]]) ∧
    resp (recv (fresh .connected) (0x0f :: handshakeX3.drop 1 ++ [0x2a])) =
      some (.ok [.events [.handshake 180 [0x31] (some 1) 8 (some 0x2a)]]) ∧
    resp (recv (fresh .connected) [0x0d, 0, 0xb4, 0, 0, 0, 4, 3, 2, 1, 8, 7, 6, 5, 8]) =
      some (.ok [.events [.handshake 180 [] none 8 none]]) ∧
    resp (recv (fresh .connected) (0x10 :: handshakeX3.drop 1 ++ [0x2a, 0x2b])) =
      some (.ok [.events [.handshake 180 [0x31] (some 1) 8 (some 0x2a)]]) := by decide +kernel

/-- V-SES-6 to V-SES-9. -/
theorem test_handshake_errors :
    resp (recv (fresh .connected) [0x0f, 0, 0xb4, 0, 2, 0, 0x31, 0x32, 4, 3, 2, 1, 8, 7, 6, 5, 8]) =
      some (.err .handshake []) ∧
    sesOf (recv (fresh .connected) [3, 0, 0xb4, 0, 1]) = some (fresh .closed).ses ∧
    resp (recv (fresh .connected) [0xff, 0xff]) = some (.err .framing []) ∧
    subversionValue [0x30, 0x30, 0x37] = some 7 ∧ subversionValue [0x61, 0x62, 0x63] = none := by decide +kernel

/-- V-SES-12: the frame split after each byte gives the same event and the same session as the whole. -/
theorem test_fragmentation :
    [1, 2, 3, 4, 5, 6].all (fun k =>
      resp (recv stateH (frameB.take k)) == some (.ok [.events []]) &&
      resp (recv2 stateH (frameB.take k) (frameB.drop k)) == resp (recv stateH frameB) &&
      sesOf (recv2 stateH (frameB.take k) (frameB.drop k)) == sesOf (recv stateH frameB)) = true := by decide +kernel

/-! ## Witnesses: the hypotheses of each statement are met, clause by clause, at the boundary of each range -/

theorem next_of_nextOf {r : Result} {t : State} (h : nextOf r = some t) : r = .next t := by
  cases r <;> simp_all [nextOf]

/-- A session after reset with the host's connection up. -/
def goodC : State := { State.reset with ses := { State.reset.ses with mode := .connected } }

/-- A handshaken session of the machine itself. -/
def goodH : State :=
  { State.reset with
    ses := ⟨.connected, true, [], 0, ⟨true, some vA, btNew Config.params.secret, some 180⟩,
      ⟨true, some vA, btNew Config.params.secret, some 180⟩⟩ }

theorem goodH_inv : SesInv Config.params goodH.ses where
  fill_lt := Nat.lt_of_lt_of_le (by decide) Config.params.capacity_ge
  rx_wf := rfl
  rx_some := fun i h => absurd h (Nat.not_lt_zero i)
  rx_none := fun _ _ => rfl
  ready := fun _ => ⟨rfl, rfl, rfl⟩
  unready := fun h => by cases h
  outbound_ok := rfl
  inbound_ok := rfl
  outbound_key := rfl
  inbound_key := rfl
  disconnected := fun h => by cases h
  closed := fun h => by cases h

theorem stateH_inv : SesInv testParams stateH.ses where
  fill_lt := by decide
  rx_wf := rfl
  rx_some := fun i h => absurd h (Nat.not_lt_zero i)
  rx_none := fun _ _ => rfl
  ready := fun _ => ⟨rfl, rfl, rfl⟩
  unready := fun h => by cases h
  outbound_ok := rfl
  inbound_ok := rfl
  outbound_key := by decide
  inbound_key := by decide
  disconnected := fun h => by cases h
  closed := fun h => by cases h

theorem witness_StepRunsDecodedCommand :
    ({ State.reset with pending := [⟨0x0605, []⟩] } : State).pending = ⟨0x0605, []⟩ :: [] ∧
    decode ⟨0x0605, []⟩ = .ok .sesClose := by decide

theorem witness_ReservedWordIsIllegal :
    ((0x00FF : BitVec 16).toNat / 256 = 0) ∧ (7 ≤ (0x0700 : BitVec 16).toNat / 256) ∧
    (∀ op : Opcode, op.word ≠ 0x0606) := ⟨by decide, by decide, fun op => by cases op <;> decide⟩

theorem witness_WordAloneIdentifiesCommand :
    decode ⟨0x0102, [.vec none]⟩ = .ok (.vecBytes none) ∧
    decode ⟨0x0102, [.vec (some vA)]⟩ = .ok (.vecBytes (some vA)) := by decide

theorem witness_DecodeOfEncodeIsTheInstruction : (Instr.sesSend writerD (.failedAfter 3)).wf = true := by decide

theorem witness_EncodeOfDecodeIsTheCommand :
    decode ⟨0x0401, [.bytes [1], .mode 2]⟩ = .ok (.rdNew [1] .dynamicHeader) := by decide

theorem witness_OperandMismatchIsIllegal :
    [Value.nat 0].map valueTy ≠ operandTypes .sesClose ∧ [Value.wr zeroWr].map valueTy ≠ operandTypes .rdI8 := by decide

theorem witness_ModeOperandCodes :
    ([0, 1, 2, 3].map fun k => decode ⟨0x0401, [.bytes [1], .mode k]⟩) =
      [.ok (.rdNew [1] .noHeader), .ok (.rdNew [1] .staticHeader), .ok (.rdNew [1] .dynamicHeader),
       .error .modeRange] := by decide

theorem witness_EncryptXorsKeystream :
    zeroSc.initialized = false ∧ (cipher vA).initialized = true ∧ ([1, 2] : Bytes).length < 3 ∧
    (cipher vA).vector = some vA ∧ 2 ≤ ([1, 2] : Bytes).length ∧ ([1, 2] : Bytes)[1 + 0]? = some 2 := by decide

theorem witness_DecryptXorsKeystream :
    zeroSc.initialized = false ∧ (cipher vA).initialized = true ∧ (cipher vA).vector = some vA ∧
    ([1, 2] : Bytes)[1]? = some 2 := by decide

theorem witness_DecryptInvertsEncrypt :
    scOk (cipher vA) = true ∧ (cipher vA).initialized = true ∧ (zeros 4).length = 4 := by decide

theorem witness_VectorAfterCallsIsIteratedShuffle :
    (cipher vA).vector = some vA ∧
    runCalls State.reset (cipher vA) [.decrypt [], .encrypt [] 0] =
      some { cipher vA with vector := some (Config.params.shuffle (Config.params.shuffle vA)) } := ⟨rfl, rfl⟩

theorem witness_ReaderConstruction : ([1] : Bytes).length < 2 := by decide

theorem witness_TypedReadsAreLittleEndian :
    ([9, 1] : Bytes).drop 1 = 1 :: [] ∧ ([9, 1, 2] : Bytes).drop 1 = 1 :: 2 :: [] ∧
    ([1, 2, 3, 4] : Bytes).drop 0 = 1 :: 2 :: 3 :: 4 :: [] ∧
    ([1, 2, 3, 4, 5, 6, 7, 8] : Bytes).drop 0 = 1 :: 2 :: 3 :: 4 :: 5 :: 6 :: 7 :: 8 :: [] ∧
    (rdOf []).buf.length < (rdOf []).pos + 1 ∧ (rdOf [1]).buf.length < (rdOf [1]).pos + 2 ∧
    (rdOf [1, 2, 3]).buf.length < (rdOf [1, 2, 3]).pos + 4 ∧
    (rdOf (zeros 7)).buf.length < (rdOf (zeros 7)).pos + 8 := by decide

theorem witness_BooleanAndArrayReads :
    (rdOf [2]).buf.drop (rdOf [2]).pos = 2 :: [] ∧ (rdOf [1, 2]).pos ≤ (rdOf [1, 2]).buf.length ∧
    (rdOf [1, 2]).buf.drop (rdOf [1, 2]).pos = [1, 2] ++ [] ∧ (rdOf []).pos ≤ (rdOf []).buf.length ∧
    (rdOf []).buf.drop (rdOf []).pos = [] ++ [] ∧
    (rdOf []).buf.length < (rdOf []).pos + 1 ∧ (rdOf [1]).buf.length < (rdOf [1]).pos + 2 := by decide

theorem witness_StringRead :
    (rdOf [1]).buf.length < (rdOf [1]).pos + 2 ∧
    (rdOf [1, 0, 7]).buf.drop 0 = 1 :: 0 :: [7] ∧
    (1 : Byte).toNat + 256 * (0 : Byte).toNat ≤ ([7] : Bytes).length ∧
    (rdOf [1, 0]).buf.drop 0 = 1 :: 0 :: [] ∧
    ([] : Bytes).length < (1 : Byte).toNat + 256 * (0 : Byte).toNat := by decide

theorem witness_FixedStringRead :
    (rdOf [1]).buf.length < (rdOf [1]).pos + 2 ∧ (rdOf [7, 0, 0]).pos ≤ (rdOf [7, 0, 0]).buf.length ∧
    (rdOf [7, 0, 0]).buf.drop (rdOf [7, 0, 0]).pos = [7] ++ List.replicate 2 0 ++ [] ∧
    ([7] : Bytes).getLast? ≠ some 0 := by decide

theorem witness_CursorMoves :
    ((-1 : Int) < 0) ∧ ((rd1.buf.length : Int) < 5) ∧ (4 ≤ rd1.buf.length) ∧ rd1.mode ≠ .noHeader ∧ (1 < 2) ∧
    (rdOf [1]).mode = .noHeader ∧ ((0 : Int) < 1) ∧ ((rd1.buf.length : Int) < rd1.pos + 3) ∧
    (1 ≤ 2 ∧ rd1.pos + 2 ≤ rd1.buf.length) := by decide

theorem witness_ReaderQueries :
    (rdOf [1]).mode = .noHeader ∧ rd1.mode ≠ .noHeader ∧ rd1.buf = 0x14 :: 0 :: [0xef, 0xbe] ∧
    (rdOf [1]).buf.length < 2 := by decide

theorem witness_WriterConstruction :
    ((-1 : Int) < 0) ∧ ((0xFFFF : Int) < 0x10000) ∧ ((0 : Int) ≤ 0xFFFF ∧ (0xFFFF : Int) ≤ 0xFFFF) ∧
    (∃ n : Int, some (5 : Int) = some n ∧ n < 6) ∧ (some (6 : Int) = some ((6 : Nat) : Int) ∧ 6 ≤ 6) :=
  ⟨by decide, by decide, by decide, ⟨5, rfl, by decide⟩, rfl, by decide⟩

theorem witness_WriteGrowsByLeastSteps :
    zeroWr.pos ≤ zeroWr.buf.length ∧ (0 < 1 ∧ 1 < writerD.pos) ∧ writerD.pos ≤ writerD.buf.length := by decide

theorem witness_StringWrites :
    65535 < (zeros 65536).length ∧ (zeros 65535).length ≤ 65535 ∧ 1 < ([1, 2] : Bytes).length ∧
    ([1, 2] : Bytes).length ≤ 2 :=
  ⟨by rw [zeros_length]; decide, by rw [zeros_length], by decide, by decide⟩

theorem witness_WriterFinalizationAndQueries : zeroWr.tag = none ∧ writerD.tag ≠ none := by decide

/-- The writes of the spec's program P1. -/
def writesP1 : List WriteOp :=
  [.u16 0xBEEF, .str [0x68, 0x69], .bool true, .i32 (-2), .fstr [0x41, 0x42] 4 true]

theorem witness_WriterReaderRoundTrip :
    exec (.wrNew (some 0x14) (some 6)) State.reset =
      .next (State.reset.succeed [.wr ⟨[0, 0, 0, 0, 0x14, 0], 6, some 0x14⟩]) ∧
    (runWrites State.reset ⟨[0, 0, 0, 0, 0x14, 0], 6, some 0x14⟩ writesP1).map (fun w => w.buf.take w.pos) =
      some [0, 0, 0, 0, 0x14, 0, 0xef, 0xbe, 2, 0, 0x68, 0x69, 1, 0xfe, 0xff, 0xff, 0xff, 0x41, 0x42, 0, 0] ∧
    (((some 0x14 : Option Int) = none) ↔ Mode.staticHeader = .noHeader) ∧
    (((none : Option Int) = none) ↔ Mode.noHeader = .noHeader) := ⟨rfl, by decide +kernel, by decide, by decide⟩

theorem witness_ConnectFollowsItsRule :
    goodC.ses.mode ≠ .disconnected ∧ State.reset.ses.mode = .disconnected := ⟨by decide, rfl⟩

theorem witness_StatusReportsSession :
    State.reset.ses.mode = .disconnected ∧ goodC.ses.mode = .connected ∧ (fresh .closed).ses.mode = .closed :=
  ⟨rfl, rfl, rfl⟩

theorem witness_FrameHeaderFollowsItsRule :
    goodC.ses.outbound.initialized = false ∧ goodH.ses.outbound.initialized = true ∧ (zeros 3).length < 4 ∧ 3 < 4 ∧
    0xFFFF < 0x10004 - 4 ∧ goodH.ses.outbound.gameVersion = some 180 ∧ goodH.ses.outbound.vector = some vA ∧
    4 ≤ (zeros 4).length ∧ 4 ≤ 0x10003 ∧ 0x10003 - 4 ≤ 0xFFFF := ⟨rfl, rfl, by decide, by decide, by decide, rfl, rfl,
      by decide, by decide, by decide⟩

/-- A tagged writer with `n` bytes after its tag; 65534 is one too many for a frame (V-SES-28). -/
def writerOf (n : Nat) : WrState := ⟨[0, 0, 0, 0, 1, 0] ++ zeros n, n + 6, some 1⟩

theorem writerOf_ok (n : Nat) : wrOk (writerOf n) = true := by
  simp only [writerOf, wrOk, memRead, List.length_append, zeros_length, Bool.and_eq_true, decide_eq_true_eq]
  exact ⟨by simp; omega, ⟨by simp, rfl⟩, rfl⟩

theorem witness_SendFollowsItsRule :
    wrOk zeroWr = true ∧ wrOk writerD = true ∧ (State.reset.ses.mode ≠ .connected ∧ goodC.ses.mode = .connected) ∧
    zeroWr.tag = none ∧ (writerD.tag ≠ none ∧ goodC.ses.outbound.initialized = false) ∧
    (wrOk (writerOf 65534) = true ∧ (writerOf 65534).tag ≠ none ∧ 0xFFFF < (writerOf 65534).pos - 4) ∧
    (goodH.ses.mode = .connected ∧ goodH.ses.outbound.initialized = true ∧
      goodH.ses.outbound.gameVersion = some 180 ∧ goodH.ses.outbound.vector = some vA) ∧
    (writerD.pos - 4 ≤ 0xFFFF ∧ 4 + 0 < writerD.pos ∧ writerD.buf[4 + 0]? = some 0x14) :=
  ⟨rfl, by decide, ⟨by decide, rfl⟩, rfl, ⟨by decide, rfl⟩, ⟨writerOf_ok _, by simp [writerOf],
    by decide⟩, ⟨rfl, rfl, rfl, rfl⟩, by decide⟩

theorem witness_ReceiveChecksAndEmptyRead :
    State.reset.ses.mode ≠ .connected ∧ goodC.ses.mode = .connected ∧
    Config.params.recvCapacity - goodC.ses.fill < (zeros (Config.params.recvCapacity + 1)).length :=
  ⟨by decide, rfl, by rw [zeros_length]; omega⟩

theorem witness_WholeFrameGivesOnePacket :
    goodH.ses.mode = .connected ∧ goodH.ses.handshaken = true ∧ goodH.ses.fill = 0 ∧
    goodH.ses.inbound.initialized = true ∧ goodH.ses.inbound.vector = some vA ∧
    ([7, 9] : Bytes).length = (((0x05 : Byte) ++ (0xb2 : Byte)) ^^^ ((0x05 : Byte) ++ (0xb0 : Byte))).toNat ∧
    2 ≤ ([7, 9] : Bytes).length ∧ 4 + ([7, 9] : Bytes).length ≤ Config.params.recvCapacity :=
  ⟨rfl, rfl, rfl, rfl, rfl, by decide, by decide, Config.params.capacity_ge⟩

theorem witness_SubversionValueIsDecimal :
    ([0, 9] : List Nat) ≠ [] ∧ (∀ d ∈ ([0, 9] : List Nat), d < 10) ∧ (0x2f : Byte).toNat < 0x30 ∧
    0x39 < (0x3a : Byte).toNat := by decide

/-- The packet of a handshake with a given sub-version and bytes after the locale. -/
def hsPacket (sub extra : Bytes) : Bytes :=
  bytesLe 2 180 ++ bytesLe 2 (BitVec.ofNat 16 sub.length) ++ sub ++ bytesLe 4 0x01020304 ++ bytesLe 4 0x05060708
    ++ [8] ++ extra

theorem witness_HandshakeSeedsBothCiphers :
    (fresh .connected).ses.mode = .connected ∧ (fresh .connected).ses.handshaken = false ∧
    (fresh .connected).ses.fill = 0 ∧ (hsPacket [0x31] []).length = 14 ∧ (hsPacket [0x31] [0x2a]).length = 15 ∧
    (hsPacket [0x31, 0x32] []).length = 15 ∧ 2 + 15 ≤ testParams.recvCapacity := by decide

/-- A packet for each way the fields do not fit (R245): one that ends inside the version, the sub-version's prefix
(V-SES-7), the sub-version, either vector, before the locale, or without the context byte (V-SES-9). -/
theorem witness_MalformedHandshakeIsFatal :
    (fresh .connected).ses.mode = .connected ∧ (fresh .connected).ses.handshaken = false ∧
    (fresh .connected).ses.fill = 0 ∧ ([0xb4] : Bytes).length < 4 ∧ ([0xb4, 0x00, 0x01] : Bytes).length < 4 ∧
    (∀ k ∈ [0, 1, 5, 9], (([0x31, 4, 3, 2, 1, 8, 7, 6, 5] : Bytes).take k).length < ((0 : Byte) ++ (1 : Byte)).toNat + 4 + 4 + 1) ∧
    hsPacket [0x30, 0x30, 0x37] [] =
      0xb4 :: 0 :: 3 :: 0 :: ([0x30, 0x30, 0x37, 4, 3, 2, 1, 8, 7, 6, 5, 8] : Bytes) ∧
    15 ≤ (hsPacket [0x30, 0x30, 0x37] []).length ∧
    ([0x30, 0x30, 0x37, 4, 3, 2, 1, 8, 7, 6, 5, 8] : Bytes).length < ((0 : Byte) ++ (3 : Byte)).toNat + 4 + 4 + 1 + 1 ∧
    2 + (hsPacket [0x30, 0x30, 0x37] []).length + ([0xaa] : Bytes).length ≤ testParams.recvCapacity := by decide

theorem witness_HandshakeWaitsOrIsTooLong :
    (fresh .connected).ses.mode = .connected ∧ (fresh .connected).ses.handshaken = false ∧
    (fresh .connected).ses.fill = 0 ∧ 2 + (zeros 29).length ≤ testParams.recvCapacity ∧
    2 + ((0 : Byte) ++ (30 : Byte)).toNat ≤ testParams.recvCapacity ∧ (zeros 29).length < ((0 : Byte) ++ (30 : Byte)).toNat ∧
    testParams.recvCapacity < 2 + ((0 : Byte) ++ (31 : Byte)).toNat := by decide

theorem witness_BadFrameLengthIsFatal :
    stateH.ses.mode = .connected ∧ stateH.ses.handshaken = true ∧ stateH.ses.fill = 0 ∧
    4 + (zeros 28).length ≤ testParams.recvCapacity ∧
    (((0 : Byte) ++ (0 : Byte)) ^^^ ((0 : Byte) ++ (1 : Byte))).toNat < 2 ∧
    testParams.recvCapacity < 4 + (((0 : Byte) ++ (0 : Byte)) ^^^ ((0 : Byte) ++ (29 : Byte))).toNat := by decide

/-- The state after the frame of V-SES-11 under the test parameters. -/
def afterFrameB : State :=
  { stateH with
    ses := ⟨.connected, true, [], 0, cipher vA, cipher sB⟩
    response := some (.ok [.events [.packet ⟨[0xca ^^^ 0x1a, 0x25 ^^^ 0x19, 0xed ^^^ 0x18], 2, .dynamicHeader, none⟩]]) }

theorem receive_frameB : recv stateH frameB = .next afterFrameB := next_of_nextOf (by decide +kernel)

theorem witness_SplitReadGivesSameEvents :
    SesInv testParams stateH.ses ∧ ([0xb2] : Bytes) ≠ [] ∧ frameB.drop 1 ≠ [] ∧
    receiveUnder testParams (.data ([0xb2] ++ frameB.drop 1)) stateH = .next afterFrameB ∧
    ∃ evs, afterFrameB.response = some (.ok [.events evs]) :=
  ⟨stateH_inv, by decide, by decide, receive_frameB, _, rfl⟩

/-- The state after the frame of V-SES-11 and then a frame length of 1, which is fatal (R250, R285). -/
def afterBadLength : State :=
  { afterFrameB with
    ses := ⟨.closed, true, [], 0, cipher vA, cipher sB⟩
    response := some (.err .framing []) }

theorem witness_JoinedReadsActAsOne :
    SesInv testParams stateH.ses ∧ frameB ≠ [] ∧ ([0, 0, 1, 0] : Bytes) ≠ [] ∧ ([0xb2] : Bytes) ≠ [] ∧
    stateH.ses.fill + (frameB ++ [0, 0, 1, 0]).length ≤ testParams.recvCapacity ∧
    receiveUnder testParams (.data frameB) stateH = .next afterFrameB ∧
    (∃ evs1, afterFrameB.response = some (.ok [.events evs1])) ∧
    receiveUnder testParams (.data [0, 0, 1, 0]) afterFrameB = .next afterBadLength ∧
    afterBadLength.response = some (.err .framing []) ∧
    ∃ last, receiveUnder testParams (.data [0xb2]) afterFrameB = .next last ∧
      last.response = some (.ok [.events []]) :=
  ⟨stateH_inv, by decide, by decide, by decide, by decide, receive_frameB, ⟨_, rfl⟩,
    next_of_nextOf (by decide +kernel), rfl, _, rfl, rfl⟩

theorem witness_FragmentationRecovery :
    SesInv testParams stateH.ses ∧ stateH.ses.handshaken = true ∧ stateH.ses.fill = 0 ∧
    ([0xca, 0x25, 0xed] : Bytes).length =
      (((0x05 : Byte) ++ (0xb2 : Byte)) ^^^ ((0x05 : Byte) ++ (0xb1 : Byte))).toNat ∧
    (∀ d ∈ ([[0xb2], [0x05, 0xb1, 0x05, 0xca], [0x25, 0xed]] : List Bytes), d ≠ []) ∧
    ([[0xb2], [0x05, 0xb1, 0x05, 0xca], [0x25, 0xed]] : List Bytes).flatten = frameB ∧
    receiveUnder testParams (.data frameB) stateH = .next afterFrameB ∧
    ∃ r, afterFrameB.response = some (.ok [.events [.packet r]]) :=
  ⟨stateH_inv, rfl, rfl, by decide, by decide, by decide, receive_frameB, _, rfl⟩

theorem witness_SentFrameIsReceivedByPeer :
    wrOk ⟨[0, 0, 0, 0, 9, 0], 6, some 9⟩ = true ∧ (some 9 : Option (BitVec 16)) ≠ none ∧ 6 - 4 ≤ 0xFFFF ∧
    6 ≤ Config.params.recvCapacity ∧ goodH.ses.mode = .connected ∧ goodH.ses.outbound.initialized = true ∧
    goodH.ses.outbound.gameVersion = some 180 ∧ goodH.ses.outbound.vector = some vA ∧
    goodH.ses.handshaken = true ∧ goodH.ses.fill = 0 ∧ goodH.ses.inbound.initialized = true ∧
    goodH.ses.inbound.vector = some vA ∧ goodH.ses.inbound.bt = goodH.ses.outbound.bt :=
  ⟨by decide, by decide, by decide, Config.params.capacity_ge, rfl, rfl, rfl, rfl, rfl, rfl, rfl, rfl, rfl⟩

theorem goodH_state_inv : StateInv { goodH with pending := [⟨0x0605, []⟩] } :=
  ⟨goodH_inv, fun _ h => by cases h⟩

theorem witness_StepKeepsInvariants :
    StateInv { goodH with pending := [⟨0x0605, []⟩] } ∧
    step { goodH with pending := [⟨0x0605, []⟩] } =
      .next { goodH with ses := { goodH.ses with mode := .closed }, response := some (.ok []) } :=
  ⟨goodH_state_inv, rfl⟩

theorem witness_GoodStatesNeverStop : StateInv { goodH with pending := [⟨0x0605, []⟩] } := goodH_state_inv

theorem witness_SessionTransitions :
    (step { goodH with pending := [⟨0x0605, []⟩] } =
      .next { goodH with ses := { goodH.ses with mode := .closed }, response := some (.ok []) } ∧
      goodH.ses.handshaken = true) ∧
    (step (fresh .closed) = .next (fresh .closed) ∧ (fresh .closed).ses.mode = .closed) := ⟨⟨rfl, rfl⟩, rfl, rfl⟩

theorem witness_NonfatalErrorsChangeNothing :
    exec (.rdI8 zeroRd) goodH = .next (goodH.raise .bounds) ∧
    (goodH.raise .bounds).response = some (.err .bounds []) ∧ isFatal (Instr.rdI8 zeroRd).opcode .bounds = false :=
  ⟨rfl, rfl, rfl⟩

theorem witness_FatalErrorsTearDown :
    exec (.sesReceive .failed) goodH = .next (goodH.raiseFatal .conn goodH.ses []) ∧
    (goodH.raiseFatal .conn goodH.ses []).response = some (.err .conn []) ∧
    isFatal (Instr.sesReceive .failed).opcode .conn = true ∧ goodH.ses.handshaken = true := ⟨rfl, rfl, rfl, rfl⟩

theorem witness_ErrorKindsPerCommand :
    SesInv Config.params goodH.ses ∧ exec (.rdI8 zeroRd) goodH = .next (goodH.raise .bounds) ∧
    (goodH.raise .bounds).response = some (.err .bounds []) := ⟨goodH_inv, rfl, rfl⟩

theorem witness_OkReturnsListedResults :
    exec (.rdPos zeroRd) goodH = .next (goodH.succeed [.nat 0]) ∧
    (goodH.succeed [.nat 0]).response = some (.ok [.nat 0]) := ⟨rfl, rfl⟩

theorem witness_ValueCommandsKeepTheSession : Instr.sesStatus.opcode ∉ sessionWriters := by decide

theorem witness_DirectionsAreIndependent :
    exec (.sesSend zeroWr .allAccepted) goodH = .next (goodH.raise .state) ∧
    (exec (.sesReceive .failed) goodH = .next (goodH.raiseFatal .conn goodH.ses []) ∧ goodH.ses.handshaken = true) ∧
    (exec (.sesReceive (.data [])) goodC = .next (goodC.succeed [.events []]) ∧
      (goodC.succeed [.events []]).ses.handshaken = goodC.ses.handshaken) ∧
    exec (.sesConnect [] .opened) State.reset =
      .next ({ State.reset with ses := { State.reset.ses with mode := .connected } }.succeed []) ∧
    exec .sesClose goodC = .next ({ goodC with ses := goodC.ses.teardown }.succeed []) :=
  ⟨rfl, ⟨rfl, rfl⟩, ⟨rfl, rfl⟩, rfl, rfl⟩

end Sys2Proof.Tests
end

section
/-! The bridge from the dispatcher to the parametric meanings of the session commands (00_scope.md R5). -/

namespace Sys2Proof.Machine

/-- `SES_RECEIVE` (R250) dispatches to the parametric meaning under the parameters of the instance. -/
theorem exec_sesReceive (h : HostRead) (s : State) :
    exec (.sesReceive h) s = receiveUnder Config.params h s := rfl

/-- `SES_SEND` (R259) dispatches to the parametric meaning under the parameters of the instance. -/
theorem exec_sesSend (w : WrState) (h : HostWrite) (s : State) :
    exec (.sesSend w h) s = sendUnder Config.params w h s := rfl

/-- Settles O39: one equation of the dispatcher for each of the two commands. -/
theorem sessionRunsUnderInstanceParameters : Obligations.SessionRunsUnderInstanceParameters := by
  unfold Obligations.SessionRunsUnderInstanceParameters
  intro s r w a
  exact ⟨exec_sesReceive r s, exec_sesSend w a s⟩

end Sys2Proof.Machine
end

section
/-! The invariants of the session state in two parts: what the ciphers hold (10_state.md R25, R26, R33 item 3, R34) and
what the receive buffer holds (R33 items 1 and 2). A command that ends fatally keeps the first and empties the second. -/

namespace Sys2Proof.Machine

/-- The part of `SesInv` that speaks of the two ciphers and of `handshaken`. -/
structure SesCiphers (p : Params) (t : SesState) : Prop where
  ready : t.handshaken = true →
    t.outbound.initialized = true ∧ t.inbound.initialized = true ∧ t.outbound.gameVersion = t.inbound.gameVersion
  unready : t.handshaken = false → t.outbound.initialized = false ∧ t.inbound.initialized = false
  outbound_ok : scOk t.outbound = true
  inbound_ok : scOk t.inbound = true
  outbound_key : t.outbound.bt = btNew p.secret
  inbound_key : t.inbound.bt = btNew p.secret

/-- The ciphers' part speaks of no other field. -/
theorem SesCiphers.of_eq {p : Params} {t t' : SesState} (h : SesCiphers p t) (hh : t'.handshaken = t.handshaken)
    (ho : t'.outbound = t.outbound) (hi : t'.inbound = t.inbound) : SesCiphers p t' where
  ready := by simpa only [hh, ho, hi] using h.ready
  unready := by simpa only [hh, ho, hi] using h.unready
  outbound_ok := ho ▸ h.outbound_ok
  inbound_ok := hi ▸ h.inbound_ok
  outbound_key := ho ▸ h.outbound_key
  inbound_key := hi ▸ h.inbound_key

/-- Exactly the cells `[0, n)` hold a value, in canonical form (R33 item 2; log 10). -/
structure RxHolds (m : Memory) (n : Nat) : Prop where
  wf : m.wf = true
  filled : ∀ i, i < n → (m.read i).isSome = true
  empty : ∀ i, n ≤ i → m.read i = none

theorem SesInv.ciphers {p : Params} {t : SesState} (h : SesInv p t) : SesCiphers p t :=
  ⟨h.ready, h.unready, h.outbound_ok, h.inbound_ok, h.outbound_key, h.inbound_key⟩

theorem SesInv.rxHolds {p : Params} {t : SesState} (h : SesInv p t) : RxHolds t.rx t.fill :=
  ⟨h.rx_wf, h.rx_some, h.rx_none⟩

/-- The invariants of a session, from their two parts and what ties `fill` to the capacity and to the mode. -/
theorem sesInv_of_parts {p : Params} {t : SesState} (hc : SesCiphers p t) (hrx : RxHolds t.rx t.fill)
    (hfill : t.fill < p.recvCapacity) (hd : t.mode = .disconnected → t.handshaken = false ∧ t.fill = 0)
    (hcl : t.mode = .closed → t.fill = 0) : SesInv p t where
  fill_lt := hfill
  rx_wf := hrx.wf
  rx_some := hrx.filled
  rx_none := hrx.empty
  ready := hc.ready
  unready := hc.unready
  outbound_ok := hc.outbound_ok
  inbound_ok := hc.inbound_ok
  outbound_key := hc.outbound_key
  inbound_key := hc.inbound_key
  disconnected := hd
  closed := hcl

theorem sesInv_of_connected {p : Params} {t : SesState} (hm : t.mode = .connected) (hc : SesCiphers p t)
    (hrx : RxHolds t.rx t.fill) (hfill : t.fill < p.recvCapacity) : SesInv p t :=
  sesInv_of_parts hc hrx hfill (fun h => by simp [hm] at h) (fun h => by simp [hm] at h)

theorem recvCapacity_pos (p : Params) : 0 < p.recvCapacity := Nat.lt_of_lt_of_le (by decide) p.capacity_ge

theorem rxHolds_nil : RxHolds [] 0 := ⟨rfl, fun i hi => absurd hi (Nat.not_lt_zero i), fun _ _ => rfl⟩

/-- Storing a read behind the bytes received extends the filled region by the read (R250). -/
theorem RxHolds.store {m : Memory} {n : Nat} (h : RxHolds m n) (d : Bytes) :
    RxHolds (m.store n d) (n + d.length) where
  wf := Memory.store_wf h.wf n d
  filled i hi := by
    by_cases hn : i < n
    · rw [Memory.read_store_outside m n d (.inl hn)]
      exact h.filled i hn
    · have hread := Memory.read_store_inside m n d (i := i - n) (by omega)
      rw [show n + (i - n) = i by omega] at hread
      rw [hread, Option.isSome_some]
  empty i hi := by
    rw [Memory.read_store_outside m n d (.inr hi)]
    exact h.empty i (by omega)

/-- A teardown empties the receive buffer, so only the ciphers' part has to stand before it (R231). -/
theorem sesInv_teardown {p : Params} {t : SesState} (h : SesCiphers p t) : SesInv p t.teardown :=
  sesInv_of_parts (h.of_eq rfl rfl rfl) rxHolds_nil (recvCapacity_pos p) (fun hm => by simp at hm) (fun _ => rfl)

/-- Compaction leaves exactly the unconsumed tail in the buffer (R253). -/
theorem sesInv_compact {p : Params} {t : SesState} {tail : Bytes} (hm : t.mode = .connected) (hc : SesCiphers p t)
    (hl : tail.length < p.recvCapacity) : SesInv p (t.compact tail) :=
  sesInv_of_connected hm (hc.of_eq rfl rfl rfl) (by simpa using rxHolds_nil.store tail) hl

/-- What a cipher call may do to a cipher: the flag, the key and the version stand, and a vector stays a vector
(R125). -/
structure SameSeeding (c c' : ScState) : Prop where
  initialized : c'.initialized = c.initialized
  bt : c'.bt = c.bt
  gameVersion : c'.gameVersion = c.gameVersion
  vector : c'.vector.isSome = c.vector.isSome

theorem SameSeeding.keeps_scOk {c c' : ScState} (h : SameSeeding c c') (hc : scOk c = true) : scOk c' = true := by
  simpa [scOk, h.initialized, h.gameVersion, h.vector] using hc

theorem sameSeeding_shuffle {c : ScState} {v : BytesN 4} (hv : c.vector = some v) (v' : BytesN 4) :
    SameSeeding c { c with vector := some v' } := ⟨rfl, rfl, rfl, by simp [hv]⟩

theorem sameSeeding_scEncrypt {p : Params} {c : ScState} {buf : Bytes} {o : Nat} {q : ScState × Bytes}
    (h : scEncrypt p c buf o = .ok q) : SameSeeding c q.1 := by
  obtain ⟨v, -, hv, -, hc, -⟩ := scEncrypt_ok h
  rw [hc]
  exact sameSeeding_shuffle hv _

theorem sameSeeding_scDecrypt {p : Params} {c : ScState} {buf : Bytes} {q : ScState × Bytes}
    (h : scDecrypt p c buf = .ok q) : SameSeeding c q.1 := by
  obtain ⟨v, -, hv, hc, -⟩ := scDecrypt_ok h
  rw [hc]
  exact sameSeeding_shuffle hv _

theorem sameSeeding_frameLoop (p : Params) (k : Nat) (c : ScState) (d : Bytes) :
    SameSeeding c (frameLoop p k c d).inbound := by
  obtain ⟨hi, hb, hg, hv⟩ := frameLoop_inbound p k c d
  exact ⟨hi, hb, hg, hv⟩

theorem scOk_scNew (secret : BitVec 64) : scOk (scNew secret) = true := rfl

theorem scOk_scInit (c : ScState) (iv : BitVec 32) (g : BitVec 16) : scOk (scInit c iv g) = true := rfl

/-- Calls on the inbound cipher keep the ciphers' part (R236, R252). -/
theorem SesCiphers.setInbound {p : Params} {t : SesState} {c : ScState} (h : SesCiphers p t)
    (hc : SameSeeding t.inbound c) : SesCiphers p { t with inbound := c } where
  ready hh := by simpa [hc.initialized, hc.gameVersion] using h.ready hh
  unready hh := by simpa [hc.initialized] using h.unready hh
  outbound_ok := h.outbound_ok
  inbound_ok := hc.keeps_scOk h.inbound_ok
  outbound_key := h.outbound_key
  inbound_key := hc.bt.trans h.inbound_key

/-- Calls on the outbound cipher keep the ciphers' part (R236, R259). -/
theorem SesCiphers.setOutbound {p : Params} {t : SesState} {c : ScState} (h : SesCiphers p t)
    (hc : SameSeeding t.outbound c) : SesCiphers p { t with outbound := c } where
  ready hh := by simpa [hc.initialized, hc.gameVersion] using h.ready hh
  unready hh := by simpa [hc.initialized] using h.unready hh
  outbound_ok := hc.keeps_scOk h.outbound_ok
  inbound_ok := h.inbound_ok
  outbound_key := hc.bt.trans h.outbound_key
  inbound_key := h.inbound_key

/-- The handshake seeds both ciphers with one version and keeps their keys (R246). -/
theorem SesCiphers.handshake {p : Params} {t : SesState} (h : SesCiphers p t) (f : HsFields) :
    SesCiphers p (commitHandshake t f) where
  ready _ := ⟨rfl, rfl, rfl⟩
  unready hh := by simp at hh
  outbound_ok := scOk_scInit _ _ _
  inbound_ok := scOk_scInit _ _ _
  outbound_key := h.outbound_key
  inbound_key := h.inbound_key

/-- Once handshaken, the inbound cipher holds a vector (R26, R33 item 3). -/
theorem SesCiphers.inbound_vector {p : Params} {t : SesState} (h : SesCiphers p t) (hh : t.handshaken = true) :
    t.inbound.vector.isSome = true := by
  have hok := h.inbound_ok
  simp only [scOk, (h.ready hh).2.1, beq_iff_eq] at hok
  exact (Bool.and_eq_true_iff.mp hok.symm).1

end Sys2Proof.Machine
end

section
/-! Every session command keeps the invariants of the session (10_state.md R33). -/

namespace Sys2Proof.Machine

/-- What the end of a session command must bring for the invariants to stand after it. -/
def SesEnd.keeps (p : Params) : SesEnd → Prop
  | .done t results _ => SesInv p t ∧ results.all valueOk = true
  | .raised _ => True
  | .fatal _ t evs _ => SesCiphers p t ∧ evs.all eventOk = true
  | .fault _ => True

theorem sesConnect_keeps {p : Params} {t : SesState} (ht : SesInv p t) (h : HostConnect) :
    (sesConnect t h).keeps p := by
  unfold sesConnect
  split
  · trivial
  · cases h with
    | failed => trivial
    | opened =>
      exact ⟨sesInv_of_connected rfl (ht.ciphers.of_eq rfl rfl rfl) ht.rxHolds ht.fill_lt, rfl⟩

theorem receiveFrames_keeps {p : Params} {t : SesState} {evs : List Event} (data : Bytes) (hm : t.mode = .connected)
    (ht : SesCiphers p t) (hh : t.handshaken = true) (hevs : evs.all eventOk = true) :
    (receiveFrames p t evs data).keeps p := by
  have hevs' : (evs ++ (frameLoop p data.length t.inbound data).events).all eventOk = true := by
    rw [List.all_append, hevs, frameLoop_events_ok, Bool.and_true]
  have hc := ht.setInbound (sameSeeding_frameLoop p data.length t.inbound data)
  rcases receiveFrames_cases evs data (ht.ready hh).2.1 (ht.inbound_vector hh) with ⟨rest, -, hl, he⟩ | ⟨-, he⟩
  · rw [he]
    exact ⟨sesInv_compact hm hc hl, by simpa [valueOk] using hevs'⟩
  · rw [he]
    exact ⟨hc, hevs'⟩

theorem receiveBytes_keeps {p : Params} {t : SesState} {data : Bytes} (hm : t.mode = .connected)
    (ht : SesCiphers p t) (hrx : RxHolds t.rx data.length) : (receiveBytes p t data).keeps p := by
  rcases receiveBytes_cases p t data with
    ⟨hh, he⟩ | ⟨-, hl, he⟩ | ⟨-, e, -, he⟩ | ⟨-, l0, l1, rest, f, -, -, -, -, he⟩
  · rw [he]
    exact receiveFrames_keeps data hm ht hh rfl
  · rw [he]
    exact ⟨sesInv_of_connected hm (ht.of_eq rfl rfl rfl) hrx hl, rfl⟩
  · rw [he]
    exact ⟨ht, rfl⟩
  · rw [he]
    exact receiveFrames_keeps _ hm (ht.handshake f) rfl rfl

/-- In a good state the filled region loads, so the extraction runs on it and on the read together (R250). -/
theorem sesReceive_eq {p : Params} {t : SesState} {d : Bytes} (ht : SesInv p t) (hm : t.mode = .connected)
    (hd : d ≠ []) (hc : t.fill + d.length ≤ p.recvCapacity) :
    ∃ data, data.length = t.fill + d.length ∧
      sesReceive p t (.data d) = receiveBytes p { t with rx := t.rx.store t.fill d } data := by
  obtain ⟨old, -, hl, hr⟩ := rxLoad_ok (capacity := p.recvCapacity) (m := t.rx) (a := 0) (n := t.fill)
    (by omega) (fun i _ hi => ht.rx_some i (by omega))
  exact ⟨old ++ d, by simp [hl], sesReceive_data hm hl (by simpa using hr) hd (by omega)⟩

theorem sesReceive_keeps {p : Params} {t : SesState} (ht : SesInv p t) (h : HostRead) :
    (sesReceive p t h).keeps p := by
  by_cases hm : t.mode = .connected
  swap
  · simp [sesReceive, hm, SesEnd.keeps]
  cases h with
  | failed =>
    simp only [sesReceive, hm, ne_eq, not_true_eq_false, if_false]
    exact ⟨ht.ciphers, rfl⟩
  | data d =>
    have hfill := ht.fill_lt
    by_cases hbig : d.length > p.recvCapacity - t.fill
    · simp [sesReceive, hm, hbig, SesEnd.keeps]
    · by_cases hd : d = []
      · simp only [sesReceive, hm, hd, ne_eq, not_true_eq_false, if_false, List.length_nil, if_true,
          Nat.not_lt_zero, gt_iff_lt]
        exact ⟨ht, rfl⟩
      · obtain ⟨data, hl, he⟩ := sesReceive_eq ht hm hd (by omega)
        rw [he]
        exact receiveBytes_keeps hm (ht.ciphers.of_eq rfl rfl rfl) (hl ▸ ht.rxHolds.store d)

/-- What `SES_SEND` can do (R259): raise a non-fatal error, or encrypt one frame on a connected session and then end as
the host answers. -/
theorem sesSend_cases (p : Params) (t : SesState) (w : WrState) (h : HostWrite) :
    (∃ e, sesSend p t w h = .raised e) ∨
    (∃ framed q, t.mode = .connected ∧ scEncrypt p t.outbound framed encOffset = .ok q ∧
      ((h = .allAccepted ∧ sesSend p t w h = .done { t with outbound := q.1 } [.bytes q.2] q.2) ∨
        ∃ k, h = .failedAfter k ∧ sesSend p t w h = .fatal .conn { t with outbound := q.1 } [] (q.2.take k))) := by
  unfold sesSend
  split
  · exact .inl ⟨_, rfl⟩
  rename_i hm
  split
  · exact .inl ⟨_, rfl⟩
  split
  · exact .inl ⟨_, rfl⟩
  split
  · exact .inl ⟨_, rfl⟩
  split
  · exact .inl ⟨_, rfl⟩
  rename_i framed _
  split
  · exact .inl ⟨_, rfl⟩
  rename_i hq
  refine .inr ⟨framed, _, by simpa using hm, hq, ?_⟩
  cases h with
  | allAccepted => exact .inl ⟨rfl, rfl⟩
  | failedAfter k => exact .inr ⟨k, rfl, rfl⟩

theorem sesSend_keeps {p : Params} {t : SesState} (ht : SesInv p t) (w : WrState) (h : HostWrite) :
    (sesSend p t w h).keeps p := by
  rcases sesSend_cases p t w h with ⟨e, he⟩ | ⟨framed, q, hm, hq, ⟨-, he⟩ | ⟨k, -, he⟩⟩
  · rw [he]
    trivial
  · rw [he]
    exact ⟨sesInv_of_connected hm (ht.ciphers.setOutbound (sameSeeding_scEncrypt hq)) ht.rxHolds ht.fill_lt, rfl⟩
  · rw [he]
    exact ⟨ht.ciphers.setOutbound (sameSeeding_scEncrypt hq), rfl⟩

end Sys2Proof.Machine
end

section
/-! Every unit state that a command on values returns meets the invariants of its type (10_state.md R26, R28, R30). -/

namespace Sys2Proof.Machine

theorem rdOk_of_rdNew {buf : Bytes} {m : Mode} {r : RdState} (h : rdNew buf m = .ok r) : rdOk r = true := by
  cases m with
  | noHeader =>
    cases h
    exact (rdOk_iff _).mpr ⟨Nat.zero_le _, by simp, rfl⟩
  | staticHeader =>
    match buf, h with
    | b0 :: b1 :: rest, h =>
      cases h
      exact (rdOk_iff _).mpr ⟨by simp [extHdrBytes], fun _ => Nat.le_refl 2, rfl⟩
  | dynamicHeader =>
    match buf, h with
    | b0 :: b1 :: rest, h =>
      cases h
      exact (rdOk_iff _).mpr ⟨by simp [extHdrBytes], fun _ => Nat.le_refl 2, rfl⟩

theorem rdOk_of_rdTake {r : RdState} {n : Nat} {q : RdState × Bytes} (hr : rdOk r = true)
    (h : rdTake r n = .ok q) : rdOk q.1 = true := by
  obtain ⟨hn, he, -⟩ := rdTake_cases h
  rw [he]
  exact rdOk_advance hr hn

theorem rdOk_of_rdBits {r : RdState} {k : Nat} {q : RdState × BitVec (8 * k)} (hr : rdOk r = true)
    (h : rdBits k r = .ok q) : rdOk q.1 = true := by
  obtain ⟨hn, he, -⟩ := rdBits_cases h
  rw [he]
  exact rdOk_advance hr hn

theorem rdOk_of_rdBool {r : RdState} {q : RdState × Bool} (hr : rdOk r = true) (h : rdBool r = .ok q) :
    rdOk q.1 = true := by
  unfold rdBool at h
  split at h
  · rename_i hb
    cases h
    exact rdOk_of_rdBits hr hb
  · cases h

theorem rdOk_of_rdStr {r : RdState} {q : RdState × Bytes} (hr : rdOk r = true) (h : rdStr r = .ok q) :
    rdOk q.1 = true := by
  unfold rdStr at h
  split at h
  · rename_i hb
    exact rdOk_of_rdTake (rdOk_of_rdBits hr hb) h
  · cases h

theorem rdOk_of_rdFstr {r : RdState} {n : Nat} {trim : Bool} {q : RdState × Bytes} (hr : rdOk r = true)
    (h : rdFstr r n trim = .ok q) : rdOk q.1 = true := by
  unfold rdFstr at h
  split at h
  · rename_i r' x ht
    cases h
    exact rdOk_of_rdTake (q := (r', x)) hr ht
  · cases h

/-- The range check bounds the cursor from above, the clamp from below (R176). -/
theorem rdOk_of_rdGoto {r r' : RdState} {index : Int} (hr : rdOk r = true) (h : rdGoto r index = .ok r') :
    rdOk r' = true := by
  obtain ⟨hpos, hhdr, htag⟩ := (rdOk_iff r).mp hr
  unfold rdGoto at h
  split at h
  · cases h
  · rename_i hrange
    cases h
    refine (rdOk_iff _).mpr ⟨?_, fun hm => ?_, htag⟩
    · simp only
      split
      · rename_i hclamp
        exact Nat.le_trans (hhdr hclamp.1) hpos
      · omega
    · have hm : r.mode ≠ .noHeader := hm
      simp only [ne_eq, hm, not_false_eq_true, true_and]
      split
      · exact Nat.le_refl 2
      · rename_i hclamp
        exact Nat.le_of_not_lt hclamp

theorem rdOk_of_rdSkip {r r' : RdState} {n : Int} (hr : rdOk r = true) (h : rdSkip r n = .ok r') :
    rdOk r' = true := by
  unfold rdSkip at h
  split at h
  · cases h
  · split at h
    · cases h
    · cases h
      exact rdOk_advance hr (by omega)

/-- What a construction that ends `Ok` gives (R190): a zeroed buffer of at least 6 bytes, with the tag behind the
reserved region when there is one. -/
theorem wrNew_cases {tag size : Option Int} {w : WrState} (h : wrNew tag size = .ok w) :
    ∃ cap, 6 ≤ cap ∧ (w = ⟨zeros cap, 0, none⟩ ∨
      ∃ t : BitVec 16, w = ⟨memWrite (zeros cap) 4 (bytesLe 2 t), 6, some t⟩) := by
  unfold wrNew at h
  split at h
  · cases h
  split at h
  · cases h
  rename_i hsize
  refine ⟨size.elim wrDefaultSize Int.toNat, ?_, ?_⟩
  · cases size with
    | none => decide
    | some n =>
      simp only [Option.any_some, decide_eq_true_eq, wrMinSize] at hsize
      simp only [Option.elim_some]
      omega
  · cases size <;> cases tag <;> cases h
    exacts [.inl rfl, .inr ⟨_, rfl⟩, .inl rfl, .inr ⟨_, rfl⟩]

/-- A tagged writer starts with its reserved region zeroed and its tag behind it (R190). -/
theorem wrOk_of_wrNew {tag size : Option Int} {w : WrState} (h : wrNew tag size = .ok w) : wrOk w = true := by
  obtain ⟨cap, hcap, rfl | ⟨t, rfl⟩⟩ := wrNew_cases h
  · exact (wrOk_iff _).mpr ⟨Nat.zero_le _, fun t ht => by cases ht⟩
  · have hlen : (zeros cap).length = cap := zeros_length cap
    have htag : (bytesLe 2 t).length = 2 := bytesLe_length 2 t
    refine (wrOk_iff _).mpr ⟨?_, fun t' ht => ?_⟩
    · rw [memWrite_length (by omega), hlen]
      exact hcap
    · cases ht
      refine ⟨Nat.le_refl 6, ?_, ?_⟩
      · rw [memRead_zero, memWrite_take _ (Nat.le_refl 4) (by omega), zeros, zeros, List.take_replicate,
          Nat.min_eq_left (by omega)]
      · have hread := memRead_memWrite (buf := zeros cap) (a := 4) (bytesLe 2 t) (by omega)
        rwa [htag] at hread

theorem wrOk_of_wrStr {w w' : WrState} {t : Bytes} (hw : wrOk w = true) (h : wrStr w t = .ok w') :
    wrOk w' = true := by
  unfold wrStr at h
  split at h
  · cases h
  · cases h
    exact wrOk_wrPut _ hw

theorem wrOk_of_wrFstr {w w' : WrState} {t : Bytes} {n : Nat} (hw : wrOk w = true) (h : wrFstr w t n = .ok w') :
    wrOk w' = true := by
  unfold wrFstr at h
  split at h
  · cases h
  · cases h
    exact wrOk_wrPut _ hw

/-- The trim cuts nothing of a tagged writer's reserved region, which lies before the cursor (R206). -/
theorem wrOk_wrToWire {w : WrState} (hw : wrOk w = true) : wrOk (wrToWire w).1 = true := by
  obtain ⟨hpos, htag⟩ := (wrOk_iff w).mp hw
  refine (wrOk_iff _).mpr ⟨by simp [wrToWire, hpos], fun t ht => ?_⟩
  obtain ⟨h6, h0, h4⟩ := htag t ht
  have hread : ∀ a n, a + n ≤ 6 → memRead (w.buf.take w.pos) a n = memRead w.buf a n := by
    intro a n han
    rw [memRead, memRead, List.drop_take, List.take_take, Nat.min_eq_left (by omega)]
  exact ⟨h6, (hread 0 4 (by omega)).trans h0, (hread 4 2 (by omega)).trans h4⟩

/-- The results of a command on values belong to their types, when it ends `Ok`. -/
def resultsOk (r : Except ErrCode (List Value)) : Prop := ∀ vs, r = .ok vs → vs.all valueOk = true

theorem resultsOk_ok {vs : List Value} (h : vs.all valueOk = true) : resultsOk (.ok vs) := by
  rintro _ ⟨⟩
  exact h

theorem resultsOk_map {α : Type} {x : Except ErrCode α} {f : α → List Value}
    (h : ∀ a, x = .ok a → (f a).all valueOk = true) : resultsOk (x.map f) := by
  cases x with
  | error e => exact fun _ he => by cases he
  | ok a => exact resultsOk_ok (h a rfl)

/-- Results of types without an invariant. -/
theorem resultsOk_map_plain {α : Type} {x : Except ErrCode α} {f : α → List Value}
    (h : ∀ a, (f a).all valueOk = true) : resultsOk (x.map f) := resultsOk_map fun a _ => h a

/-- Every command but the four that write the session is a command on values (R23): it returns good values for good
operands, and `SES_STATUS` those of a good session. -/
theorem exec_eq_finish {i : Instr} (h : i.opcode ∉ sessionWriters) (s : State) :
    ∃ r, exec i s = finish s r ∧ (i.wf = true → SesInv Config.params s.ses → resultsOk r) := by
  cases i with
  | vecInit | btNew | btBlock | scNew | scInit | scQuery | rdTowire | rdPos | rdAbslen | rdDatalen | rdTag
  | wrPos | wrAbslen | wrDatalen => exact ⟨.ok _, rfl, fun _ _ => resultsOk_ok rfl⟩
  | vecBytes | vecHigh | vecShuffle | rdExthdr | sesFramehdr =>
    exact ⟨_, rfl, fun _ _ => resultsOk_map_plain fun _ => rfl⟩
  | scEncrypt =>
    exact ⟨_, rfl, fun hwf _ => resultsOk_map fun _ hq => by simp [valueOk, (sameSeeding_scEncrypt hq).keeps_scOk hwf]⟩
  | scDecrypt =>
    exact ⟨_, rfl, fun hwf _ => resultsOk_map fun _ hq => by simp [valueOk, (sameSeeding_scDecrypt hq).keeps_scOk hwf]⟩
  | rdNew => exact ⟨_, rfl, fun _ _ => resultsOk_map fun _ hq => by simp [valueOk, rdOk_of_rdNew hq]⟩
  | rdI8 | rdU8 | rdI16 | rdU16 | rdI32 | rdU32 | rdI64 | rdU64 =>
    exact ⟨_, rfl, fun hwf _ => resultsOk_map fun _ hq => by simp [valueOk, rdOk_of_rdBits hwf hq]⟩
  | rdBool => exact ⟨_, rfl, fun hwf _ => resultsOk_map fun _ hq => by simp [valueOk, rdOk_of_rdBool hwf hq]⟩
  | rdBytes => exact ⟨_, rfl, fun hwf _ => resultsOk_map fun _ hq => by simp [valueOk, rdOk_of_rdTake hwf hq]⟩
  | rdStr => exact ⟨_, rfl, fun hwf _ => resultsOk_map fun _ hq => by simp [valueOk, rdOk_of_rdStr hwf hq]⟩
  | rdFstr => exact ⟨_, rfl, fun hwf _ => resultsOk_map fun _ hq => by simp [valueOk, rdOk_of_rdFstr hwf hq]⟩
  | rdGoto => exact ⟨_, rfl, fun hwf _ => resultsOk_map fun _ hq => by simp [valueOk, rdOk_of_rdGoto hwf hq]⟩
  | rdSkip => exact ⟨_, rfl, fun hwf _ => resultsOk_map fun _ hq => by simp [valueOk, rdOk_of_rdSkip hwf hq]⟩
  | wrNew => exact ⟨_, rfl, fun _ _ => resultsOk_map fun _ hq => by simp [valueOk, wrOk_of_wrNew hq]⟩
  | wrI8 | wrU8 | wrI16 | wrU16 | wrI32 | wrU32 | wrI64 | wrU64 | wrBool | wrBytes =>
    exact ⟨.ok _, rfl, fun hwf _ => resultsOk_ok (by simp [valueOk, wrOk_wrPut _ hwf])⟩
  | wrStr => exact ⟨_, rfl, fun hwf _ => resultsOk_map fun _ hq => by simp [valueOk, wrOk_of_wrStr hwf hq]⟩
  | wrFstr => exact ⟨_, rfl, fun hwf _ => resultsOk_map fun _ hq => by simp [valueOk, wrOk_of_wrFstr hwf hq]⟩
  | wrTowire => exact ⟨.ok _, rfl, fun hwf _ => resultsOk_ok (by simp [valueOk, wrOk_wrToWire hwf])⟩
  | sesStatus =>
    exact ⟨.ok _, rfl, fun _ hs => resultsOk_ok (by simp [valueOk, hs.outbound_ok, hs.inbound_ok])⟩
  | sesConnect | sesReceive | sesSend | sesClose => simp [Instr.opcode, sessionWriters] at h

end Sys2Proof.Machine
end

section
/-! The obligations of 10_state.md. -/

namespace Sys2Proof.Machine

/-- The invariants of a state speak of its session and its response alone. -/
theorem stateInv_of_response {s' : State} {resp : Response} (ht : SesInv Config.params s'.ses)
    (hresp : s'.response = some resp) (hr : responseOk resp = true) : StateInv s' := by
  refine ⟨ht, fun r he => ?_⟩
  rw [hresp] at he
  cases he
  exact hr

theorem finish_keeps_stateInv {s s' : State} {r : Except ErrCode (List Value)} (hs : SesInv Config.params s.ses)
    (hr : resultsOk r) (h : finish s r = .next s') : StateInv s' := by
  cases r with
  | ok vs =>
    cases h
    exact stateInv_of_response hs rfl (hr vs rfl)
  | error e =>
    cases h
    exact stateInv_of_response hs rfl rfl

theorem finishSes_keeps_stateInv {s s' : State} {r : SesEnd} (hs : SesInv Config.params s.ses)
    (hr : r.keeps Config.params) (h : finishSes s r = .next s') : StateInv s' := by
  rcases finishSes_cases h with ⟨t, vs, sent, rfl, rfl⟩ | ⟨e, rfl, rfl⟩ | ⟨e, t, evs, sent, rfl, rfl⟩
  · obtain ⟨ht, hvs⟩ := hr
    exact stateInv_of_response ht rfl hvs
  · exact stateInv_of_response hs rfl rfl
  · obtain ⟨ht, hevs⟩ := hr
    exact stateInv_of_response (sesInv_teardown ht) rfl hevs

/-- The four commands that write the session. -/
theorem opcode_mem_sessionWriters {i : Instr} (h : i.opcode ∈ sessionWriters) :
    (∃ endpoint a, i = .sesConnect endpoint a) ∨ (∃ a, i = .sesReceive a) ∨ (∃ w a, i = .sesSend w a) ∨
      i = .sesClose := by
  cases i with
  | sesConnect endpoint a => exact .inl ⟨endpoint, a, rfl⟩
  | sesReceive a => exact .inr (.inl ⟨a, rfl⟩)
  | sesSend w a => exact .inr (.inr (.inl ⟨w, a, rfl⟩))
  | sesClose => exact .inr (.inr (.inr rfl))
  | _ => simp [Instr.opcode, sessionWriters] at h

theorem exec_keeps_stateInv {i : Instr} {s s' : State} (hs : SesInv Config.params s.ses) (hwf : i.wf = true)
    (h : exec i s = .next s') : StateInv s' := by
  by_cases hop : i.opcode ∈ sessionWriters
  · rcases opcode_mem_sessionWriters hop with ⟨_, a, rfl⟩ | ⟨a, rfl⟩ | ⟨w, a, rfl⟩ | rfl
    · exact finishSes_keeps_stateInv hs (sesConnect_keeps hs a) h
    · exact finishSes_keeps_stateInv hs (sesReceive_keeps hs a) h
    · exact finishSes_keeps_stateInv hs (sesSend_keeps hs w a) h
    · exact finishSes_keeps_stateInv (r := .done s.ses.teardown [] []) hs ⟨sesInv_teardown hs.ciphers, rfl⟩ h
  · obtain ⟨r, he, hr⟩ := exec_eq_finish hop s
    exact finish_keeps_stateInv hs (hr hwf hs) (he ▸ h)

/-- Settles O49: the step splits into no command, a command that does not decode, and a decoded instruction, whose
operands the decoder has checked. -/
theorem stepKeepsInvariants : Obligations.StepKeepsInvariants := by
  unfold Obligations.StepKeepsInvariants
  intro s s' hs h
  rcases step_cases s with ⟨-, he⟩ | ⟨c, rest, e, -, -, he⟩ | ⟨c, rest, i, -, hdec, he⟩
  · rw [he] at h
    cases h
    exact hs
  · rw [he] at h
    cases h
    exact stateInv_of_response hs.ses rfl rfl
  · obtain ⟨op, -, -, -, hwf⟩ := decode_ok hdec
    exact exec_keeps_stateInv (s := { s with pending := rest }) hs.ses hwf (he ▸ h)

/-- Settles O57: such a command is a command on values, which `finish` ends. -/
theorem valueCommandsKeepTheSession : Obligations.ValueCommandsKeepTheSession := by
  unfold Obligations.ValueCommandsKeepTheSession
  intro i s hop
  obtain ⟨r, he, -⟩ := exec_eq_finish hop s
  obtain ⟨resp, hresp, -⟩ := finish_eq s r
  exact ⟨resp, he.trans hresp⟩

/-- Settles O50: nothing is received, and both ciphers are keyed and not initialized. -/
theorem resetMeetsInvariants : Obligations.ResetMeetsInvariants := by
  unfold Obligations.ResetMeetsInvariants
  have hc : SesCiphers Config.params (SesState.reset Config.params) := {
    ready := fun h => by cases h
    unready := fun _ => ⟨rfl, rfl⟩
    outbound_ok := scOk_scNew _
    inbound_ok := scOk_scNew _
    outbound_key := rfl
    inbound_key := rfl }
  exact ⟨sesInv_of_parts hc rxHolds_nil (recvCapacity_pos _) (fun _ => ⟨rfl, rfl⟩) (fun h => by cases h),
    fun r h => by cases h⟩

end Sys2Proof.Machine
end

section
/-! The fields of the status word (10_state.md R35). -/

namespace Sys2Proof.Machine

theorem flagBit_getLsbD (b : Bool) (i : Nat) : (flagBit b).getLsbD i = (decide (i = 0) && b) := by
  cases b <;> simp [flagBit]

/-- The mode code fills two bits (R265). -/
theorem sesModeCode_getLsbD {i : Nat} (m : SesMode) (hi : 2 ≤ i) : (sesModeCode m).getLsbD i = false := by
  have hlt : (sesModeCode m).toNat < 2 ^ 2 := by cases m <;> decide
  exact Nat.testBit_lt_two_pow (Nat.lt_of_lt_of_le hlt (Nat.pow_le_pow_right (by decide) hi))

/-- The layout of the status word (R35): the mode code, and above it one bit for each flag. -/
theorem statusWord_getLsbD (t : SesState) {i : Nat} (hi : i < 32) :
    (statusWord t).getLsbD i =
      ((sesModeCode t.mode).getLsbD i || (decide (i = 2) && t.handshaken) ||
        (decide (i = 3) && t.outbound.initialized) || (decide (i = 4) && t.inbound.initialized)) := by
  have hflag : ∀ (b : Bool) (k : Nat), (flagBit b <<< k).getLsbD i = (decide (i = k) && b) := by
    intro b k
    rw [BitVec.getLsbD_shiftLeft, flagBit_getLsbD]
    rcases Nat.lt_trichotomy i k with h | rfl | h
    · simp [h, Nat.ne_of_lt h]
    · simp [hi]
    · simp [hi, Nat.not_lt.mpr h.le, h.ne', Nat.sub_ne_zero_of_lt h]
  simp only [statusWord, BitVec.getLsbD_or, hflag]

/-- Settles O34: the fields of the word lie apart, so each is read back at its place. -/
theorem statusReportsSession : Obligations.StatusReportsSession := by
  unfold Obligations.StatusReportsSession
  intro s
  have hmode : (statusWord s.ses).extractLsb' 0 2 = (sesModeCode s.ses.mode).extractLsb' 0 2 := by
    apply BitVec.eq_of_getLsbD_eq
    intro i hi
    simp [hi, statusWord_getLsbD s.ses (i := i) (by omega), show i ≠ 2 ∧ i ≠ 3 ∧ i ≠ 4 by omega]
  have hzero : (statusWord s.ses).extractLsb' 5 27 = 0 := by
    apply BitVec.eq_of_getLsbD_eq
    intro i hi
    simp [hi, statusWord_getLsbD s.ses (i := 5 + i) (by omega), sesModeCode_getLsbD _ (i := 5 + i) (by omega),
      show 5 + i ≠ 2 ∧ 5 + i ≠ 3 ∧ 5 + i ≠ 4 by omega]
  refine ⟨rfl, statusWord s.ses, rfl, ?_, ?_, ?_, ?_, ?_, ?_, hzero⟩
  case refine_1 | refine_2 | refine_3 =>
    intro hm
    rw [hmode, hm]
    decide
  case refine_4 | refine_5 | refine_6 =>
    rw [statusWord_getLsbD _ (by decide), sesModeCode_getLsbD _ (by decide)]
    simp

end Sys2Proof.Machine
end

section
/-! The two directions of a session are independent (20_memory.md R66). -/

namespace Sys2Proof.Machine

/-- The session and the sent bytes that the end of a session command brings, where it brings any, satisfy `P`. -/
def SesEnd.carries (P : SesState → Bytes → Prop) : SesEnd → Prop
  | .done t _ sent => P t sent
  | .raised _ => True
  | .fatal _ t _ sent => P t sent
  | .fault _ => True

theorem SesEnd.carries.imp {P Q : SesState → Bytes → Prop} {r : SesEnd} (h : r.carries P)
    (hPQ : ∀ t sent, P t sent → Q t sent) : r.carries Q := by
  cases r with
  | done t results sent => exact hPQ t sent h
  | raised e => trivial
  | fatal e t evs sent => exact hPQ t sent h
  | fault f => trivial

/-- The ciphers, the flag and the transmit stream after a session command are those the end of the command brings, since
a teardown keeps the ciphers and the flag (R231), or those before it. -/
theorem finishSes_carried {P : SesState → Bytes → Prop} {s s' : State} {r : SesEnd} (hr : r.carries P)
    (h0 : P s.ses []) (h : finishSes s r = .next s') :
    ∃ t sent, P t sent ∧ s'.ses.outbound = t.outbound ∧ s'.ses.inbound = t.inbound ∧
      s'.ses.handshaken = t.handshaken ∧ s'.tx = s.tx ++ sent := by
  rcases finishSes_cases h with ⟨t, vs, sent, rfl, rfl⟩ | ⟨e, rfl, rfl⟩ | ⟨e, t, evs, sent, rfl, rfl⟩
  · exact ⟨t, sent, hr, rfl, rfl, rfl, rfl⟩
  · exact ⟨s.ses, [], h0, rfl, rfl, rfl, (List.append_nil s.tx).symm⟩
  · exact ⟨t, sent, hr, rfl, rfl, rfl, rfl⟩

theorem sesConnect_carries (t : SesState) (h : HostConnect) :
    (sesConnect t h).carries fun t' _ => t'.outbound = t.outbound ∧ t'.inbound = t.inbound := by
  unfold sesConnect
  split
  · trivial
  · cases h with
    | failed => trivial
    | opened => exact ⟨rfl, rfl⟩

theorem sesSend_carries (p : Params) (t : SesState) (w : WrState) (h : HostWrite) :
    (sesSend p t w h).carries fun t' _ => t'.inbound = t.inbound := by
  rcases sesSend_cases p t w h with ⟨e, he⟩ | ⟨framed, q, -, -, ⟨-, he⟩ | ⟨k, -, he⟩⟩
  · rw [he]
    trivial
  · rw [he]
    exact rfl
  · rw [he]
    exact rfl

/-- The sending direction stands: its cipher and the flag are as before. -/
structure OutboundStands (t t' : SesState) : Prop where
  outbound : t'.outbound = t.outbound
  handshaken : t'.handshaken = t.handshaken

/-- What a receive may do to the sending direction: nothing, or seed its cipher by completing the handshake (R246). -/
def ReceiveStep (t t' : SesState) : Prop :=
  OutboundStands t t' ∨ (t.handshaken = false ∧ t'.handshaken = true)

theorem receiveStep_refl (t : SesState) : ReceiveStep t t := .inl ⟨rfl, rfl⟩

/-- The frames go through the inbound cipher alone (R250). -/
theorem receiveFrames_carries (p : Params) (t : SesState) (evs : List Event) (data : Bytes) :
    (receiveFrames p t evs data).carries fun t' sent => OutboundStands t t' ∧ sent = [] := by
  simp only [receiveFrames]
  split
  case h_1 => exact ⟨⟨rfl, rfl⟩, rfl⟩
  case h_2 => exact ⟨⟨rfl, rfl⟩, rfl⟩
  case h_3 => trivial

/-- Only the case of a complete handshake writes the outbound cipher, and it sets the flag (R246, R248). -/
theorem receiveBytes_carries (p : Params) (t : SesState) (data : Bytes) :
    (receiveBytes p t data).carries fun t' sent => ReceiveStep t t' ∧ sent = [] := by
  rcases receiveBytes_cases p t data with
    ⟨-, he⟩ | ⟨-, -, he⟩ | ⟨-, e, -, he⟩ | ⟨hh, l0, l1, rest, f, -, -, -, -, he⟩
  · rw [he]
    exact (receiveFrames_carries p t _ _).imp fun _ _ h => ⟨.inl h.1, h.2⟩
  · rw [he]
    exact ⟨.inl ⟨rfl, rfl⟩, rfl⟩
  · rw [he]
    exact ⟨receiveStep_refl t, rfl⟩
  · rw [he]
    exact (receiveFrames_carries p (commitHandshake t f) _ _).imp fun _ _ h => ⟨.inr ⟨hh, h.1.handshaken⟩, h.2⟩

/-- What `SES_RECEIVE` can do in any state (R250): fail before it takes bytes in, stop, end with the session as it was,
or run the extraction with another receive buffer. -/
theorem sesReceive_cases (p : Params) (t : SesState) (h : HostRead) :
    (∃ e, sesReceive p t h = .raised e) ∨ (∃ f, sesReceive p t h = .fault f) ∨
    sesReceive p t h = .fatal .conn t [] [] ∨ sesReceive p t h = .done t [.events []] [] ∨
    ∃ rx data, sesReceive p t h = receiveBytes p { t with rx := rx } data := by
  unfold sesReceive
  split
  · exact .inl ⟨_, rfl⟩
  cases h with
  | failed => exact .inr (.inr (.inl rfl))
  | data d =>
    simp only
    split
    · exact .inl ⟨_, rfl⟩
    split
    · exact .inr (.inr (.inr (.inl rfl)))
    split
    · exact .inr (.inl ⟨_, rfl⟩)
    split
    · exact .inr (.inl ⟨_, rfl⟩)
    · exact .inr (.inr (.inr (.inr ⟨_, _, rfl⟩)))

theorem sesReceive_carries (p : Params) (t : SesState) (h : HostRead) :
    (sesReceive p t h).carries fun t' sent => ReceiveStep t t' ∧ sent = [] := by
  rcases sesReceive_cases p t h with ⟨e, he⟩ | ⟨f, he⟩ | he | he | ⟨rx, data, he⟩
  · rw [he]
    trivial
  · rw [he]
    trivial
  · rw [he]
    exact ⟨receiveStep_refl t, rfl⟩
  · rw [he]
    exact ⟨receiveStep_refl t, rfl⟩
  · rw [he]
    exact (receiveBytes_carries p { t with rx := rx } data).imp fun _ _ ⟨hstep, hsent⟩ =>
      ⟨hstep.imp_left fun h => ⟨h.outbound, h.handshaken⟩, hsent⟩

/-- A receive, however it ends, takes such a step and sends nothing (R250). -/
theorem receiveUnder_receiveStep {p : Params} {r : HostRead} {s s' : State} (h : receiveUnder p r s = .next s') :
    ReceiveStep s.ses s'.ses ∧ s'.tx = s.tx := by
  obtain ⟨t, sent, ⟨hstep, rfl⟩, hout, -, hhs, htx⟩ :=
    finishSes_carried (sesReceive_carries p s.ses r) ⟨receiveStep_refl s.ses, rfl⟩ h
  refine ⟨?_, htx.trans (List.append_nil s.tx)⟩
  rcases hstep with ⟨ho, hh⟩ | ⟨hb, ha⟩
  · exact .inl ⟨hout.trans ho, hhs.trans hh⟩
  · exact .inr ⟨hb, hhs.trans ha⟩

theorem ReceiveStep.outbound_eq {t t' : SesState} (h : ReceiveStep t t') (hh : t'.handshaken = t.handshaken) :
    t'.outbound = t.outbound := by
  rcases h with hstands | ⟨hbefore, hafter⟩
  · exact hstands.outbound
  · rw [hbefore, hafter] at hh
    cases hh

/-- The handshake completes at most once: after it, a receive leaves the flag set (R33 item 4). -/
theorem ReceiveStep.keeps_handshaken {t t' : SesState} (h : ReceiveStep t t') (hh : t.handshaken = true) :
    t'.handshaken = true := by
  rcases h with hstands | ⟨-, hafter⟩
  · exact hstands.handshaken.trans hh
  · exact hafter

/-- Settles O58: each command's end brings a session in which the other direction stands; for `SES_RECEIVE`, that is so
or the flag has gone up. -/
theorem directionsAreIndependent : Obligations.DirectionsAreIndependent := by
  unfold Obligations.DirectionsAreIndependent
  intro s s' w a r endpoint c
  refine ⟨fun h => ?send, fun h hh => ?handshaken, fun h hh => (receiveUnder_receiveStep h).1.outbound_eq hh,
    fun h => ⟨(receiveUnder_receiveStep h).2, finishSes_pending h⟩, fun h => ?connect, fun h => ?close⟩
  case send =>
    obtain ⟨t, sent, hin, -, ht, -, -⟩ := finishSes_carried (sesSend_carries Config.params s.ses w a) rfl h
    exact ht.trans hin
  case handshaken =>
    have hstep := (receiveUnder_receiveStep h).1
    exact hstep.outbound_eq ((hstep.keeps_handshaken hh).trans hh.symm)
  case connect =>
    obtain ⟨t, sent, ⟨hout, hin⟩, hto, hti, -, -⟩ := finishSes_carried (sesConnect_carries s.ses c) ⟨rfl, rfl⟩ h
    exact ⟨hto.trans hout, hti.trans hin⟩
  case close =>
    cases h
    exact ⟨rfl, rfl⟩

end Sys2Proof.Machine
end

section
/-! The encoder and the decoder are inverse to each other on well-formed instructions (30_encoding.md R77 to R82). -/

namespace Sys2Proof

open Sys2Proof.Machine

/-- A mode is decoded from its own code alone (R86). -/
theorem modeOfCode_eq_some_iff {k : Nat} {m : Mode} : modeOfCode k = some m ↔ k = modeCode m := by
  constructor
  · intro h
    match k, h with
    | 0, h => cases h; rfl
    | 1, h => cases h; rfl
    | 2, h => cases h; rfl
  · rintro rfl
    exact modeOfCode_modeCode m

/-- The operand types of an encoding are those the opcode map lists (R77, R78). -/
theorem operands_map_valueTy (i : Instr) : i.operands.map valueTy = operandTypes i.opcode := by
  cases i <;> rfl

/-- The operand record of an instruction gives it back; a mode passes through its code (R79, R86). -/
theorem assemble_operands (i : Instr) : assemble i.opcode i.operands = .ok i := by
  cases i with
  | rdNew buf m => cases m <;> rfl
  | _ => rfl

/-- A record that assembles is the operand record of the instruction: every operand is kept, and whole (R79). In each
case the opcode selects one branch of `assemble`, and that branch answers on one shape of the record. -/
theorem eq_operands_of_assemble {op : Opcode} {ops : List Value} {i : Instr} (h : assemble op ops = .ok i) :
    op = i.opcode ∧ ops = i.operands := by
  cases op with
  | rdNew =>
    conv at h => lhs; whnf
    split at h
    · split at h
      · rename_i hm
        cases h
        exact ⟨rfl, by rw [modeOfCode_eq_some_iff.mp hm]; rfl⟩
      · cases h
    · cases h
  | _ =>
    conv at h => lhs; whnf
    split at h
    · cases h
      exact ⟨rfl, rfl⟩
    · cases h

/-- Assembling is the inverse of taking the operand record (R79). -/
theorem assemble_eq_ok_iff {op : Opcode} {ops : List Value} {i : Instr} :
    assemble op ops = .ok i ↔ op = i.opcode ∧ ops = i.operands := by
  constructor
  · exact eq_operands_of_assemble
  · rintro ⟨rfl, rfl⟩
    exact assemble_operands i

/-- A word decodes to a command exactly when it is the word of that command (R81). -/
theorem decodeWord_eq_ok_iff {w : BitVec 16} {op : Opcode} : decodeWord w = .ok op ↔ op.word = w := by
  constructor
  · exact fun h => (word_of_mem (decodeWord_ok_mem h)).symm
  · rintro rfl
    exact decodeWord_word op

/-- No two commands share a word (R81). -/
theorem word_injective {op op' : Opcode} (h : op.word = op'.word) : op = op' := by
  have hdec : decodeWord op'.word = .ok op := decodeWord_eq_ok_iff.mpr h
  rw [decodeWord_word] at hdec
  cases hdec
  rfl

/-- The checks of the decoder all pass on the encoding of a well-formed instruction. -/
theorem decode_encode {i : Instr} (hwf : i.wf = true) : decode (encode i) = .ok i := by
  have hty := operands_map_valueTy i
  have hlen : i.operands.length = (operandTypes i.opcode).length := by rw [← hty, List.length_map]
  simp [decode, encode, hty, hlen, assemble_operands, hwf]

/-- The decoder answers an instruction exactly on its encoding, when it is well formed. -/
theorem decode_eq_ok_iff {c : Command} {i : Instr} : decode c = .ok i ↔ encode i = c ∧ i.wf = true := by
  constructor
  · intro h
    obtain ⟨op, hword, -, hasm, hwf⟩ := decode_ok h
    obtain ⟨rfl, hops⟩ := assemble_eq_ok_iff.mp hasm
    refine ⟨?_, hwf⟩
    rw [encode, decodeWord_eq_ok_iff.mp hword, ← hops]
  · rintro ⟨rfl, hwf⟩
    exact decode_encode hwf

/-- Settles O5: the encoding passes every check of the decoder, and its record assembles to the instruction. -/
theorem decodeOfEncodeIsTheInstruction : Obligations.DecodeOfEncodeIsTheInstruction := by
  unfold Obligations.DecodeOfEncodeIsTheInstruction
  intro i hwf
  exact decode_encode hwf

/-- Settles O6: the word is that of the command selected, and the record is the operand record of what it assembles
to. -/
theorem encodeOfDecodeIsTheCommand : Obligations.EncodeOfDecodeIsTheCommand := by
  unfold Obligations.EncodeOfDecodeIsTheCommand
  intro c i h
  exact decode_eq_ok_iff.mp h

/-- Settles O3: a word decodes exactly to the commands whose word it is, and there is at most one. -/
theorem everyWordIsOneCommandOrIllegal : Obligations.EveryWordIsOneCommandOrIllegal := by
  unfold Obligations.EveryWordIsOneCommandOrIllegal
  refine ⟨fun w => ?_, fun op op' => word_injective⟩
  cases hw : decodeWord w with
  | ok op =>
    have hword := decodeWord_eq_ok_iff.mp hw
    exact .inl ⟨op, rfl, fun op' => ⟨fun h => word_injective (h.trans hword.symm), fun h => h ▸ hword⟩⟩
  | error e =>
    refine .inr ⟨e, rfl, fun op' h => ?_⟩
    rw [decodeWord_eq_ok_iff.mpr h] at hw
    cases hw

/-- Settles O4: both instructions have the word, which one opcode has. -/
theorem wordAloneIdentifiesCommand : Obligations.WordAloneIdentifiesCommand := by
  unfold Obligations.WordAloneIdentifiesCommand
  intro w ops ops' i i' h h'
  have hword : i.opcode.word = w := congrArg Command.word (decode_eq_ok_iff.mp h).1
  have hword' : i'.opcode.word = w := congrArg Command.word (decode_eq_ok_iff.mp h').1
  exact word_injective (hword.trans hword'.symm)

/-- Settles O7: the six legal commands are the encodings of their instructions; the other three meet the check that
rejects them. -/
theorem writtenWordsDecode : Obligations.WrittenWordsDecode := by
  unfold Obligations.WrittenWordsDecode
  refine ⟨?_, ?_, ?_, ?_, ?_, ?_, rfl, rfl, rfl⟩
  all_goals exact decode_eq_ok_iff.mpr ⟨rfl, rfl⟩

end Sys2Proof
end

section
/-! What a step does with a command that decodes, and with one that does not (30_encoding.md R75, R77, R80, R86;
60_exceptions.md R282). -/

namespace Sys2Proof.Machine

/-- A step runs the instruction that the next command decodes to (R75, R78). -/
theorem step_of_decode_ok {s : State} {c : Command} {rest : List Command} {i : Instr} (hp : s.pending = c :: rest)
    (hd : decode c = .ok i) : step s = exec i { s with pending := rest } := by
  simp [step, fetch_cons s c rest hp, hd]

/-- A step on a command that decodes to no instruction raises `ILLEGAL` and changes nothing else (R80, R282). -/
theorem step_of_no_decode {s : State} {c : Command} {rest : List Command} (hp : s.pending = c :: rest)
    (hd : ∀ i, decode c ≠ .ok i) :
    step s = .next { s with pending := rest, response := some (.err .illegal []) } := by
  cases he : decode c with
  | ok i => exact absurd he (hd i)
  | error e => simp [step, fetch_cons s c rest hp, he, State.raise]

/-- The commands lie in the units 1 to 6 (R78). -/
theorem word_unit_range (op : Opcode) : 1 ≤ op.word.toNat / 256 ∧ op.word.toNat / 256 ≤ 6 := by
  cases op <;> decide

/-- Settles O1: one equation of the step. -/
theorem stepRunsDecodedCommand : Obligations.StepRunsDecodedCommand := by
  unfold Obligations.StepRunsDecodedCommand
  intro s c rest i hp hd
  exact step_of_decode_ok hp hd

/-- Settles O2: an instruction decoded from a reserved word would be encoded by it, so its opcode would have the word. -/
theorem reservedWordIsIllegal : Obligations.ReservedWordIsIllegal := by
  unfold Obligations.ReservedWordIsIllegal
  intro s w ops rest hp hres
  have hnone : ∀ op : Opcode, op.word ≠ w := by
    rcases hres with hunit | hunit | hnone
    · rintro op rfl
      have := word_unit_range op
      omega
    · rintro op rfl
      have := word_unit_range op
      omega
    · exact hnone
  refine step_of_no_decode hp fun i hd => ?_
  exact hnone i.opcode (congrArg Command.word (decode_eq_ok_iff.mp hd).1)

/-- Settles O8: an instruction decoded from the record would have it as its operand record, whose types are those
listed. -/
theorem operandMismatchIsIllegal : Obligations.OperandMismatchIsIllegal := by
  unfold Obligations.OperandMismatchIsIllegal
  intro s op ops rest hp hty
  refine step_of_no_decode hp fun i hd => hty ?_
  have henc := (decode_eq_ok_iff.mp hd).1
  have hop : i.opcode = op := word_injective (congrArg Command.word henc)
  have hops : i.operands = ops := congrArg Command.operands henc
  rw [← hops, ← hop]
  exact operands_map_valueTy i

/-- The modes have no code from 3 on (R86). -/
theorem modeCode_lt (m : Mode) : modeCode m < 3 := by cases m <;> decide

/-- `RD_NEW` decodes only from the code of a mode (R86). -/
theorem mode_of_decode_rdNew {buf : Bytes} {k : Nat} {i : Instr}
    (h : decode ⟨Opcode.rdNew.word, [.bytes buf, .mode k]⟩ = .ok i) : ∃ m, k = modeCode m := by
  have henc := (decode_eq_ok_iff.mp h).1
  have hop : i.opcode = .rdNew := word_injective (congrArg Command.word henc)
  have hops : i.operands = [.bytes buf, .mode k] := congrArg Command.operands henc
  cases i with
  | rdNew buf' m =>
    cases hops
    exact ⟨m, rfl⟩
  | _ => cases hop

/-- Settles O9: with the code of a mode the command is the encoding of `RD_NEW`, and every mode has a code below 3. -/
theorem modeOperandCodes : Obligations.ModeOperandCodes := by
  unfold Obligations.ModeOperandCodes
  intro s buf k rest hp
  have hmode : ∀ m, k = modeCode m → step s = exec (.rdNew buf m) { s with pending := rest } := by
    rintro m rfl
    exact step_of_decode_ok hp (decode_encode (i := .rdNew buf m) rfl)
  refine ⟨hmode .noHeader, hmode .staticHeader, hmode .dynamicHeader, fun hk => ?_⟩
  refine step_of_no_decode hp fun i hd => ?_
  obtain ⟨m, hm⟩ := mode_of_decode_rdNew hd
  have := modeCode_lt m
  omega

end Sys2Proof.Machine
end

section
/-! A command that ends `Ok` returns the results the opcode map lists for it (30_encoding.md R78, R85). -/

namespace Sys2Proof.Machine

/-- The results of a command on values have the given types, when it ends `Ok`. -/
def resultsTyped (tys : List Ty) : Except ErrCode (List Value) → Prop
  | .ok vs => vs.map valueTy = tys
  | .error _ => True

theorem resultsTyped_map {α : Type} {tys : List Ty} {x : Except ErrCode α} {f : α → List Value}
    (h : ∀ a, (f a).map valueTy = tys) : resultsTyped tys (x.map f) := by
  cases x with
  | ok a => exact h a
  | error e => trivial

/-- The results of a session command have the given types, when it ends `Ok`. -/
def SesEnd.typed (tys : List Ty) : SesEnd → Prop
  | .done _ results _ => results.map valueTy = tys
  | _ => True

theorem finish_typed {s s' : State} {r : Except ErrCode (List Value)} {tys : List Ty} {results : List Value}
    (hr : resultsTyped tys r) (h : finish s r = .next s') (hok : s'.response = some (.ok results)) :
    results.map valueTy = tys := by
  cases r with
  | ok vs =>
    cases h
    cases hok
    exact hr
  | error e =>
    cases h
    cases hok

theorem finishSes_typed {s s' : State} {r : SesEnd} {tys : List Ty} {results : List Value}
    (hr : r.typed tys) (h : finishSes s r = .next s') (hok : s'.response = some (.ok results)) :
    results.map valueTy = tys := by
  rcases finishSes_cases h with ⟨t, vs, sent, rfl, rfl⟩ | ⟨e, rfl, rfl⟩ | ⟨e, t, evs, sent, rfl, rfl⟩
  · cases hok
    exact hr
  · cases hok
  · cases hok

theorem sesConnect_typed (t : SesState) (h : HostConnect) : (sesConnect t h).typed [] := by
  unfold sesConnect
  split
  · trivial
  · cases h with
    | failed => trivial
    | opened => exact rfl

theorem receiveFrames_typed (p : Params) (t : SesState) (evs : List Event) (data : Bytes) :
    (receiveFrames p t evs data).typed [.events] := by
  simp only [receiveFrames]
  split
  case h_1 => exact rfl
  case h_2 => trivial
  case h_3 => trivial

theorem receiveBytes_typed (p : Params) (t : SesState) (data : Bytes) : (receiveBytes p t data).typed [.events] := by
  rcases receiveBytes_cases p t data with
    ⟨-, he⟩ | ⟨-, -, he⟩ | ⟨-, e, -, he⟩ | ⟨-, l0, l1, rest, f, -, -, -, -, he⟩
  · rw [he]
    exact receiveFrames_typed p t _ _
  · rw [he]
    exact rfl
  · rw [he]
    trivial
  · rw [he]
    exact receiveFrames_typed p _ _ _

theorem sesReceive_typed (p : Params) (t : SesState) (h : HostRead) : (sesReceive p t h).typed [.events] := by
  rcases sesReceive_cases p t h with ⟨e, he⟩ | ⟨f, he⟩ | he | he | ⟨rx, data, he⟩
  · rw [he]
    trivial
  · rw [he]
    trivial
  · rw [he]
    trivial
  · rw [he]
    exact rfl
  · rw [he]
    exact receiveBytes_typed p _ data

theorem sesSend_typed (p : Params) (t : SesState) (w : WrState) (h : HostWrite) :
    (sesSend p t w h).typed [.bytes] := by
  rcases sesSend_cases p t w h with ⟨e, he⟩ | ⟨framed, q, -, -, ⟨-, he⟩ | ⟨k, -, he⟩⟩
  · rw [he]
    trivial
  · rw [he]
    exact rfl
  · rw [he]
    trivial

/-- Every command but the four that write the session ends by `finish` (R23), with the results listed for it. -/
theorem exec_eq_finish_typed {i : Instr} (h : i.opcode ∉ sessionWriters) (s : State) :
    ∃ r, exec i s = finish s r ∧ resultsTyped (resultTypes i.opcode) r := by
  cases i with
  | vecInit | btNew | btBlock | scNew | scInit | scQuery | rdTowire | rdPos | rdAbslen | rdDatalen | rdTag
  | wrI8 | wrU8 | wrI16 | wrU16 | wrI32 | wrU32 | wrI64 | wrU64 | wrBool | wrBytes
  | wrTowire | wrPos | wrAbslen | wrDatalen | sesStatus => exact ⟨.ok _, rfl, rfl⟩
  | vecBytes | vecHigh | vecShuffle | scEncrypt | scDecrypt
  | rdNew | rdI8 | rdU8 | rdI16 | rdU16 | rdI32 | rdU32 | rdI64 | rdU64 | rdBool | rdBytes | rdStr | rdFstr
  | rdGoto | rdSkip | rdExthdr | wrNew | wrStr | wrFstr | sesFramehdr =>
    exact ⟨_, rfl, resultsTyped_map fun _ => rfl⟩
  | sesConnect | sesReceive | sesSend | sesClose => simp [Instr.opcode, sessionWriters] at h

/-- Settles O56: the four session commands by their ends, every other command by its results. -/
theorem okReturnsListedResults : Obligations.OkReturnsListedResults := by
  unfold Obligations.OkReturnsListedResults
  intro i s s' results h hok
  by_cases hop : i.opcode ∈ sessionWriters
  · rcases opcode_mem_sessionWriters hop with ⟨_, a, rfl⟩ | ⟨a, rfl⟩ | ⟨w, a, rfl⟩ | rfl
    · exact finishSes_typed (sesConnect_typed s.ses a) h hok
    · exact finishSes_typed (sesReceive_typed Config.params s.ses a) h hok
    · exact finishSes_typed (sesSend_typed Config.params s.ses w a) h hok
    · exact finishSes_typed (r := .done s.ses.teardown [] []) rfl h hok
  · obtain ⟨r, he, hr⟩ := exec_eq_finish_typed hop s
    exact finish_typed hr (he ▸ h) hok

end Sys2Proof.Machine
end

section
/-! A frame that one session sends is received by its peer (45_session_framer.md R252, R257 to R259; 42_stream_cipher.md
R131). -/

namespace Sys2Proof.Machine

/-- The two bytes of a 16-bit value, as the header readers see them (R13). -/
theorem bytesLe_two (w : BitVec 16) : ∃ lo hi, bytesLe 2 w = [lo, hi] ∧ le16 lo hi = w :=
  ⟨_, _, rfl, leBits_bytesLe 2 w⟩

/-- The first header word: the version against the high half of the vector (R257). -/
def headerWord0 (g : BitVec 16) (b : BytesN 4) : BitVec 16 := g ^^^ le16 b[2] b[3]

/-- The four bytes of a frame header over a payload of `n` bytes (R257). -/
def headerBytes (g : BitVec 16) (b : BytesN 4) (n : Nat) : Bytes :=
  bytesLe 2 (headerWord0 g b) ++ bytesLe 2 (headerWord0 g b ^^^ BitVec.ofNat 16 n)

@[simp] theorem headerBytes_length (g : BitVec 16) (b : BytesN 4) (n : Nat) : (headerBytes g b n).length = 4 := by
  simp [headerBytes]

/-- A frame header gives back the length it was made for: the two words differ by it (R71, R251, R257). -/
theorem headerBytes_frameLength (g : BitVec 16) (b : BytesN 4) {n : Nat} (hn : n ≤ 0xFFFF) :
    ∃ b0 b1 b2 b3, headerBytes g b n = [b0, b1, b2, b3] ∧ frameLength b0 b1 b2 b3 = n := by
  obtain ⟨b0, b1, h01, hw0⟩ := bytesLe_two (headerWord0 g b)
  obtain ⟨b2, b3, h23, hw1⟩ := bytesLe_two (headerWord0 g b ^^^ BitVec.ofNat 16 n)
  refine ⟨b0, b1, b2, b3, by rw [headerBytes, h01, h23]; rfl, ?_⟩
  rw [frameLength, hw0, hw1, ← BitVec.xor_assoc, BitVec.xor_self, BitVec.zero_xor, BitVec.toNat_ofNat,
    Nat.mod_eq_of_lt (by omega)]

/-- Two writes that meet fill the front of a buffer. -/
theorem memWrite_front (buf x y : Bytes) :
    memWrite (memWrite buf 0 x) x.length y = x ++ y ++ buf.drop (x.length + y.length) := by
  simp [memWrite, List.drop_append]

/-- `SES_FRAMEHDR` on an initialized cipher, with a buffer and a length in range (R257). -/
theorem frameHeader_eq {c : ScState} {g : BitVec 16} {b : BytesN 4} (hi : c.initialized = true)
    (hg : c.gameVersion = some g) (hv : c.vector = some b) {buf : Bytes} {n : Nat} (hbuf : 4 ≤ buf.length)
    (h4 : 4 ≤ n) (hn : n - 4 ≤ 0xFFFF) :
    frameHeader c buf n = .ok (headerBytes g b (n - 4) ++ buf.drop 4) := by
  have hrange : ¬ (buf.length < frameHdrBytes ∨ n < frameHdrBytes ∨ n - frameHdrBytes > maxPayload) := by
    simp only [frameHdrBytes, maxPayload]
    omega
  have hwrite := memWrite_front buf (bytesLe 2 (headerWord0 g b))
    (bytesLe 2 (headerWord0 g b ^^^ BitVec.ofNat 16 (n - 4)))
  simp only [bytesLe_length] at hwrite
  simp only [frameHeader, hi, hg, hv, vecHigh, Bool.true_eq_false, if_false, if_neg hrange]
  exact congrArg Except.ok hwrite

/-- The payload of a writer's frame: its bytes past the frame-header reservation (R258). -/
def sentPayload (w : WrState) : Bytes := (w.buf.take w.pos).drop 4

theorem sentPayload_length {w : WrState} (hw : wrOk w = true) : (sentPayload w).length = w.pos - 4 := by
  have hpos := ((wrOk_iff w).mp hw).1
  simp [sentPayload, hpos]

/-- The frame `SES_SEND` hands to the socket: the header of the vector before the send, and the payload under that
vector's keystream (R257, R258, R259). -/
def sentFrame (p : Params) (key : BytesN 32) (g : BitVec 16) (b : BytesN 4) (w : WrState) : Bytes :=
  headerBytes g b (w.pos - 4) ++ cryptRange p key b (w.pos - 4) true (sentPayload w)

/-- `SES_SEND` past its checks, with every byte accepted (R259). -/
theorem sesSend_accepted {p : Params} {t : SesState} {w : WrState} {g : BitVec 16} {b : BytesN 4}
    (hw : wrOk w = true) (htag : w.tag ≠ none) (hpos : w.pos - 4 ≤ 0xFFFF) (hm : t.mode = .connected)
    (hi : t.outbound.initialized = true) (hg : t.outbound.gameVersion = some g)
    (hv : t.outbound.vector = some b) :
    sesSend p t w .allAccepted =
      .done { t with outbound := { t.outbound with vector := some (p.shuffle b) } }
        [.bytes (sentFrame p t.outbound.bt.key g b w)] (sentFrame p t.outbound.bt.key g b w) := by
  obtain ⟨hle, htagged⟩ := (wrOk_iff w).mp hw
  obtain ⟨tag, ht⟩ := Option.ne_none_iff_exists'.mp htag
  have h6 := (htagged tag ht).1
  have hlen : (frameOf w).length = w.pos := by simp [frameOf, hle]
  have hheader : frameHeader t.outbound (frameOf w) w.pos = .ok (headerBytes g b (w.pos - 4) ++ sentPayload w) :=
    frameHeader_eq hi hg hv (by omega) (by omega) hpos
  have hencrypt : scEncrypt p t.outbound (headerBytes g b (w.pos - 4) ++ sentPayload w) encOffset =
      .ok ({ t.outbound with vector := some (p.shuffle b) }, sentFrame p t.outbound.bt.key g b w) := by
    rw [scEncrypt_eq p hi hv _ (by simp), List.take_left' (headerBytes_length g b _),
      List.drop_left' (headerBytes_length g b _)]
    simp [sentFrame, sentPayload_length hw]
  simp only [sesSend, hm, ne_eq, not_true_eq_false, htag, hi, Bool.true_eq_false, if_false, hlen,
    show ¬ w.pos - frameHdrBytes > maxPayload from Nat.not_lt.mpr hpos, hheader, hencrypt]

/-- One whole frame in one read, on a handshaken session with nothing waiting (R250, R251, R252): one packet over the
decrypted payload, one shuffle of the inbound vector, and an empty buffer. -/
theorem sesReceive_wholeFrame {p : Params} {t : SesState} {v : BytesN 4} {b0 b1 b2 b3 : Byte} {payload : Bytes}
    (hm : t.mode = .connected) (hh : t.handshaken = true) (hf : t.fill = 0) (hi : t.inbound.initialized = true)
    (hv : t.inbound.vector = some v) (hl : frameLength b0 b1 b2 b3 = payload.length) (h2 : 2 ≤ payload.length)
    (hc : 4 + payload.length ≤ p.recvCapacity) :
    sesReceive p t (.data (b0 :: b1 :: b2 :: b3 :: payload)) =
      .done { t with rx := [], fill := 0, inbound := { t.inbound with vector := some (p.shuffle v) } }
        [.events [.packet ⟨cryptRange p t.inbound.bt.key v payload.length true payload, 2, .dynamicHeader, none⟩]]
        [] := by
  have hrun := sesReceive_data (p := p) (t := t) (old := []) (d := b0 :: b1 :: b2 :: b3 :: payload) hm hf.symm
    (by simp) (by simp) (by simp only [List.length_cons, List.length_nil]; omega)
  have hloop := frameLoop_frame p (payload.length + 3) hi hv b0 b1 b2 b3 payload (by omega) (by omega) (by omega)
  rw [hl, List.take_length, List.drop_length, frameLoop_short p _ _ (d := []) (by decide)] at hloop
  rw [hrun]
  simp only [receiveBytes, hh, if_true, receiveFrames, List.nil_append, List.length_cons, hloop]
  rfl

/-- Settles O48: the header gives the peer the payload's length, and the peer's keystream, which is the sender's, takes
the encryption back. -/
theorem sentFrameIsReceivedByPeer : Obligations.SentFrameIsReceivedByPeer := by
  unfold Obligations.SentFrameIsReceivedByPeer
  intro s u w g b hw htag hpos hcap hsm hsi hsg hsv hum huh huf hui huv hkey
  obtain ⟨tag, ht⟩ := Option.ne_none_iff_exists'.mp htag
  have h6 := (((wrOk_iff w).mp hw).2 tag ht).1
  have hlen := sentPayload_length hw
  obtain ⟨b0, b1, b2, b3, hheader, hframeLength⟩ := headerBytes_frameLength g b hpos
  have hframe : sentFrame Config.params s.ses.outbound.bt.key g b w = b0 :: b1 :: b2 :: b3 ::
      cryptRange Config.params s.ses.outbound.bt.key b (w.pos - 4) true (sentPayload w) := by
    rw [sentFrame, hheader]
    rfl
  have hcipher : (cryptRange Config.params s.ses.outbound.bt.key b (w.pos - 4) true (sentPayload w)).length
      = w.pos - 4 := by rw [cryptRange_length _ _ _ _ _ _ hlen.le, hlen]
  have hplain : cryptRange Config.params s.ses.outbound.bt.key b (w.pos - 4) true
      (cryptRange Config.params s.ses.outbound.bt.key b (w.pos - 4) true (sentPayload w)) = sentPayload w :=
    cryptRange_involutive _ _ _ _ _ _ hlen.le hlen.le
  have hsend := sesSend_accepted (p := Config.params) hw htag hpos hsm hsi hsg hsv
  have hreceive := sesReceive_wholeFrame (p := Config.params) hum huh huf hui huv
    (hframeLength.trans hcipher.symm) (by omega) (by omega)
  rw [hkey, hcipher, hplain, ← hframe] at hreceive
  exact ⟨_, _, _, congrArg (finishSes s) hsend, rfl, congrArg (finishSes u) hreceive, rfl, rfl⟩

end Sys2Proof.Machine
end

section
/-! The block transform: where the key expansion puts the bytes of the secret (41_vector_transform.md R105 to R108). -/

namespace Sys2Proof.Machine

/-- The bytes of a 64-bit value, most significant first (R13, R55). -/
theorem bytesBe64_getElem (v : BitVec 64) {i : Nat} (hi : i < 8) :
    (bytesBe64 v)[i] = v.extractLsb' (56 - 8 * i) 8 := by
  interval_cases i <;> rfl

/-- A byte of the expanded key, at each of the 32 positions (R105, R106). -/
theorem expandKey_getElem (secret : BitVec 64) (j : Fin 32) :
    (expandKey secret)[j] = if j.val % 4 = 0 then secret.extractLsb' (56 - 8 * (j.val / 4)) 8 else 0 := by
  simp only [expandKey, Fin.getElem_fin, Vector.getElem_ofFn]
  split
  case isTrue => exact bytesBe64_getElem secret (by omega)
  case isFalse => rfl

/-- `BT_NEW` completes for every secret (R107). -/
theorem exec_btNew (secret : BitVec 64) (s : State) :
    exec (.btNew secret) s = .next { s with response := some (.ok [.bt (btNew secret)]) } := rfl

/-- `BT_BLOCK` completes for every transform and block (R108). -/
theorem exec_btBlock (t : BtState) (block : BytesN 16) (s : State) :
    exec (.btBlock t block) s = .next { s with response := some (.ok [.bytes16 (btBlock Config.params t block)]) } :=
  rfl

/-- Settles O11: the transform's key is the expanded key, read position by position. -/
theorem keyExpansionPlacesSecretBytes : Obligations.KeyExpansionPlacesSecretBytes := by
  unfold Obligations.KeyExpansionPlacesSecretBytes
  intro s secret
  exact ⟨rfl, btNew secret, exec_btNew secret s, expandKey_getElem secret⟩

/-- Settles O12: the encrypted block is by definition the parameter's value at the transform's key. -/
theorem blockTransformEncryptsOneBlock : Obligations.BlockTransformEncryptsOneBlock := by
  unfold Obligations.BlockTransformEncryptsOneBlock
  intro s t block
  exact ⟨rfl, exec_btBlock t block s⟩

end Sys2Proof.Machine
end

section
/-! The vector commands, on a vector that has a value and on one that has none (41_vector_transform.md R100 to R103). -/

namespace Sys2Proof.Machine

/-- The high half of a vector's value: its last byte above the one before (R54, R102). -/
theorem vecHigh_some (b : BytesN 4) : vecHigh (some b) = .ok (b[3] ++ b[2]) :=
  congrArg Except.ok (leBits_pair b[2] b[3])

/-- `VEC_INIT` completes whatever the vector held (R100). -/
theorem exec_vecInit (v : VecState) (raw : BitVec 32) (s : State) :
    exec (.vecInit v raw) s = .next { s with response := some (.ok [.vec (vecOfRaw raw)]) } := rfl

/-- `VEC_BYTES` ends as the bytes of its vector do (R101). -/
theorem exec_vecBytes (v : VecState) (s : State) :
    exec (.vecBytes v) s = finish s ((vecBytes v).map fun b => [.bytes4 b]) := rfl

/-- `VEC_HIGH` ends as the high half of its vector does (R102). -/
theorem exec_vecHigh (v : VecState) (s : State) :
    exec (.vecHigh v) s = finish s ((vecHigh v).map fun x => [.u16 x]) := rfl

/-- `VEC_SHUFFLE` ends as the shuffle of its vector under the instance's parameters does (R103). -/
theorem exec_vecShuffle (v : VecState) (s : State) :
    exec (.vecShuffle v) s = finish s ((vecShuffle Config.params v).map fun v' => [.vec v']) := rfl

/-- Settles O10: each command on a vector is evaluated at a value and at none; the shuffle's property is the one its
parameter carries (R6). -/
theorem vectorCommands : Obligations.VectorCommands := by
  unfold Obligations.VectorCommands
  intro s v raw b
  refine ⟨exec_vecInit v raw s, ?bytes, ?bytesUninit, ?high, ?highUninit, ?shuffle, ?shuffleUninit,
    Config.params.shuffle_ne, rfl, rfl, rfl, rfl⟩
  case bytes | bytesUninit => rw [exec_vecBytes]; rfl
  case high => rw [exec_vecHigh, vecHigh_some]; rfl
  case highUninit => rw [exec_vecHigh]; rfl
  case shuffle | shuffleUninit => rw [exec_vecShuffle]; rfl

end Sys2Proof.Machine
end

section
/-! The stream cipher's commands: what each answers, an encryption taken back by a decryption, and the vector after a
sequence of calls (42_stream_cipher.md R120 to R132). -/

namespace Sys2Proof.Machine

/-- `SC_NEW` completes for every secret (R120). -/
theorem exec_scNew (secret : BitVec 64) (s : State) :
    exec (.scNew secret) s = .next { s with response := some (.ok [.sc (scNew secret)]) } := rfl

/-- `SC_INIT` completes whatever the cipher held (R121). -/
theorem exec_scInit (c : ScState) (iv : BitVec 32) (g : BitVec 16) (s : State) :
    exec (.scInit c iv g) s = .next { s with response := some (.ok [.sc (scInit c iv g)]) } := rfl

/-- `SC_ENCRYPT` ends as the encryption under the machine's parameters does (R127). -/
theorem exec_scEncrypt (c : ScState) (buf : Bytes) (o : Nat) (s : State) :
    exec (.scEncrypt c buf o) s =
      finish s ((scEncrypt Config.params c buf o).map fun q => [.sc q.1, .bytes q.2]) := rfl

/-- `SC_DECRYPT` ends as the decryption under the machine's parameters does (R128). -/
theorem exec_scDecrypt (c : ScState) (buf : Bytes) (s : State) :
    exec (.scDecrypt c buf) s =
      finish s ((scDecrypt Config.params c buf).map fun q => [.sc q.1, .bytes q.2]) := rfl

/-- `SC_QUERY` completes, initialized or not (R129). -/
theorem exec_scQuery (c : ScState) (s : State) :
    exec (.scQuery c) s =
      .next { s with response := some (.ok [.bool c.initialized, .vec c.vector, .optU16 c.gameVersion]) } := rfl

/-- The vector seeded from a value holds its bytes, least significant first (R54, R100). -/
theorem vecOfRaw_eq (iv : BitVec 32) :
    vecOfRaw iv = some #v[iv.extractLsb' 0 8, iv.extractLsb' 8 8, iv.extractLsb' 16 8, iv.extractLsb' 24 8] := rfl

/-- Settles O13: the three commands always complete, and the vector's bytes are those of the value it is seeded from. -/
theorem cipherConstructionSeedingQuery : Obligations.CipherConstructionSeedingQuery := by
  unfold Obligations.CipherConstructionSeedingQuery
  intro s c secret iv g
  refine ⟨exec_scNew secret s, ?init, exec_scQuery c s, rfl, rfl, rfl⟩
  case init => rw [exec_scInit, scInit, vecOfRaw_eq]

/-- An uninitialized cipher refuses to encrypt, wherever the offset is (R127). -/
theorem scEncrypt_uninit (p : Params) {c : ScState} (hi : c.initialized = false) (buf : Bytes) (o : Nat) :
    scEncrypt p c buf o = .error .uninit := by
  simp [scEncrypt, hi]

/-- An initialized cipher refuses an offset past the end (R127). -/
theorem scEncrypt_bounds (p : Params) {c : ScState} (hi : c.initialized = true) {buf : Bytes} {o : Nat}
    (ho : buf.length < o) : scEncrypt p c buf o = .error .bounds := by
  simp [scEncrypt, hi, ho]

/-- An uninitialized cipher refuses to decrypt (R128). -/
theorem scDecrypt_uninit (p : Params) {c : ScState} (hi : c.initialized = false) (buf : Bytes) :
    scDecrypt p c buf = .error .uninit := by
  simp [scDecrypt, hi]

/-- A byte of the range after the chunk loop over the whole of it (R130). -/
theorem cryptRange_getElem?_of_getElem? (p : Params) (key : BytesN 32) (v : BytesN 4) {d : Bytes} {q : Nat} {x : Byte}
    (hx : d[q]? = some x) :
    (cryptRange p key v d.length true d)[q]? = some (x ^^^ keystream p key v q) := by
  rw [cryptRange_getElem? p key v _ d q le_rfl, hx, Option.map_some]

/-- Settles O14: the bytes before the offset stand in front of the encrypted range, whose bytes are those of the closed
form. -/
theorem encryptXorsKeystream : Obligations.EncryptXorsKeystream := by
  unfold Obligations.EncryptXorsKeystream
  intro s c buf o
  refine ⟨rfl, fun hi => ?uninit, fun hi ho => ?bounds, fun v hi hv ho => ?effect⟩
  case uninit => rw [exec_scEncrypt, scEncrypt_uninit _ hi]; rfl
  case bounds => rw [exec_scEncrypt, scEncrypt_bounds _ hi ho]; rfl
  case effect =>
    have htake : (buf.take o).length = o := List.length_take_of_le ho
    have hdrop : (buf.drop o).length = buf.length - o := List.length_drop
    refine ⟨_, by rw [exec_scEncrypt, scEncrypt_eq _ hi hv buf ho]; rfl, ?length, List.take_left' htake, ?range⟩
    case length => rw [List.length_append, cryptRange_length _ _ _ _ _ _ hdrop.le, htake, hdrop]; omega
    case range =>
      intro q x hx
      rw [List.getElem?_append_right (by omega), htake, Nat.add_sub_cancel_left, ← hdrop]
      exact cryptRange_getElem?_of_getElem? _ _ _ (by rw [List.getElem?_drop, hx])

/-- Settles O15: the result is the encrypted range alone, whose bytes are those of the closed form. -/
theorem decryptXorsKeystream : Obligations.DecryptXorsKeystream := by
  unfold Obligations.DecryptXorsKeystream
  intro s c buf
  refine ⟨rfl, fun hi => ?uninit, fun v hi hv => ?effect⟩
  case uninit => rw [exec_scDecrypt, scDecrypt_uninit _ hi]; rfl
  case effect =>
    exact ⟨_, by rw [exec_scDecrypt, scDecrypt_eq _ hi hv buf]; rfl, cryptRange_length _ _ _ _ _ _ le_rfl,
      fun _ _ hx => cryptRange_getElem?_of_getElem? _ _ _ hx⟩

/-- An initialized cipher in a legal state holds a vector (R26). -/
theorem exists_vector_of_scOk {c : ScState} (hok : scOk c = true) (hi : c.initialized = true) :
    ∃ v, c.vector = some v := by
  simp only [scOk, hi, beq_iff_eq] at hok
  exact Option.isSome_iff_exists.mp (Bool.and_eq_true_iff.mp hok.symm).1

/-- Encrypting past a header leaves the header and encrypts the payload (R127). -/
theorem scEncrypt_append (p : Params) {c : ScState} {v : BytesN 4} (hi : c.initialized = true)
    (hv : c.vector = some v) {h : Bytes} {o : Nat} (ho : h.length = o) (x : Bytes) :
    scEncrypt p c (h ++ x) o = .ok ({ c with vector := some (p.shuffle v) },
      h ++ cryptRange p c.bt.key v x.length true x) := by
  rw [scEncrypt_eq p hi hv _ (by simp [← ho]), List.take_left' ho, List.drop_left' ho, List.length_append, ho,
    Nat.add_sub_cancel_left]

/-- Decrypting an encrypted payload with the start cipher gives it back (R131). -/
theorem scDecrypt_cryptRange (p : Params) {c : ScState} {v : BytesN 4} (hi : c.initialized = true)
    (hv : c.vector = some v) (x : Bytes) :
    scDecrypt p c (cryptRange p c.bt.key v x.length true x) = .ok ({ c with vector := some (p.shuffle v) }, x) := by
  rw [scDecrypt_eq p hi hv, cryptRange_length _ _ _ _ _ _ le_rfl, cryptRange_involutive _ _ _ _ _ _ le_rfl le_rfl]

/-- Settles O16: both calls use the keystream of the one start cipher, which cancels, and both shuffle its vector. -/
theorem decryptInvertsEncrypt : Obligations.DecryptInvertsEncrypt := by
  unfold Obligations.DecryptInvertsEncrypt
  intro s c h x hok hi h4
  obtain ⟨v, hv⟩ := exists_vector_of_scOk hok hi
  refine ⟨{ c with vector := some (Config.params.shuffle v) },
    h ++ cryptRange Config.params c.bt.key v x.length true x, ?encrypt, ?decrypt⟩
  case encrypt => rw [exec_scEncrypt, scEncrypt_append _ hi hv h4]; rfl
  case decrypt => rw [List.drop_left' h4, exec_scDecrypt, scDecrypt_cryptRange _ hi hv]; rfl

/-- A command on values whose response is `Ok` had a value, and answered the results made of it. -/
theorem exists_ok_of_finish_map {α : Type} {s s' : State} {r : Except ErrCode α} {f : α → List Value}
    {vs : List Value} (h : finish s (r.map f) = .next s') (hok : s'.response = some (.ok vs)) :
    ∃ q, r = .ok q ∧ f q = vs := by
  cases r with
  | error e => cases h; cases hok
  | ok q => cases h; cases hok; exact ⟨q, rfl, rfl⟩

/-- A call that ends `Ok` with a cipher returns the one it was given, its vector shuffled once (R125, R132). -/
theorem callInstr_ok {s s' : State} {c c' : ScState} {k : CipherCall} {out : Bytes}
    (h : exec (callInstr c k) s = .next s') (hok : s'.response = some (.ok [.sc c', .bytes out])) :
    ∃ v, c.vector = some v ∧ c' = { c with vector := some (Config.params.shuffle v) } := by
  cases k with
  | encrypt buf o =>
    rw [callInstr, exec_scEncrypt] at h
    obtain ⟨_, hq, rfl, rfl⟩ := exists_ok_of_finish_map h hok
    obtain ⟨v, -, hv, -, hc, -⟩ := scEncrypt_ok hq
    exact ⟨v, hv, hc⟩
  | decrypt buf =>
    rw [callInstr, exec_scDecrypt] at h
    obtain ⟨_, hq, rfl, rfl⟩ := exists_ok_of_finish_map h hok
    obtain ⟨v, -, hv, hc, -⟩ := scDecrypt_ok hq
    exact ⟨v, hv, hc⟩

/-- A sequence of calls that all end `Ok` starts with one that shuffles the vector, and goes on from there (R125). -/
theorem runCalls_cons_some {s : State} {c c' : ScState} {k : CipherCall} {ks : List CipherCall}
    (h : runCalls s c (k :: ks) = some c') :
    ∃ v, c.vector = some v ∧ runCalls s { c with vector := some (Config.params.shuffle v) } ks = some c' := by
  rw [runCalls] at h
  split at h
  case h_2 => cases h
  case h_1 s' hexec =>
    split at h
    case h_2 => cases h
    case h_1 c1 out hresp =>
      obtain ⟨v, hv, rfl⟩ := callInstr_ok hexec hresp
      exact ⟨v, hv, h⟩

/-- Settles O17, by induction on the calls: the first shuffles the vector and keeps the key, the rest go on from
there. -/
theorem vectorAfterCallsIsIteratedShuffle : Obligations.VectorAfterCallsIsIteratedShuffle := by
  unfold Obligations.VectorAfterCallsIsIteratedShuffle
  intro s c c' v calls hv h
  induction calls generalizing c v with
  | nil =>
    cases h
    exact ⟨hv, rfl⟩
  | cons k ks ih =>
    obtain ⟨w, hw, hrest⟩ := runCalls_cons_some h
    obtain rfl : v = w := Option.some.inj (hv.symm.trans hw)
    exact ih { c with vector := some (Config.params.shuffle v) } _ rfl hrest

end Sys2Proof.Machine
end

section
/-! The reader's commands: what a field at the cursor reads as, what does not fit, and the cursor afterwards
(43_reader.md R150 to R182). -/

namespace Sys2Proof.Machine

/-! ### The dispatcher, one equation per command -/

/-- `RD_NEW` ends as the construction of its reader does (R150). -/
theorem exec_rdNew (buf : Bytes) (m : Mode) (s : State) :
    exec (.rdNew buf m) s = finish s ((rdNew buf m).map fun r => [.rd r]) := rfl

/-- A typed read ends as the read of a field of its width does, under its type (R153 to R160). -/
theorem exec_rdI8 (r : RdState) (s : State) :
    exec (.rdI8 r) s = finish s ((rdBits 1 r).map fun q => [.rd q.1, .i8 q.2]) := rfl

theorem exec_rdU8 (r : RdState) (s : State) :
    exec (.rdU8 r) s = finish s ((rdBits 1 r).map fun q => [.rd q.1, .u8 q.2]) := rfl

theorem exec_rdI16 (r : RdState) (s : State) :
    exec (.rdI16 r) s = finish s ((rdBits 2 r).map fun q => [.rd q.1, .i16 q.2]) := rfl

theorem exec_rdU16 (r : RdState) (s : State) :
    exec (.rdU16 r) s = finish s ((rdBits 2 r).map fun q => [.rd q.1, .u16 q.2]) := rfl

theorem exec_rdI32 (r : RdState) (s : State) :
    exec (.rdI32 r) s = finish s ((rdBits 4 r).map fun q => [.rd q.1, .i32 q.2]) := rfl

theorem exec_rdU32 (r : RdState) (s : State) :
    exec (.rdU32 r) s = finish s ((rdBits 4 r).map fun q => [.rd q.1, .u32 q.2]) := rfl

theorem exec_rdI64 (r : RdState) (s : State) :
    exec (.rdI64 r) s = finish s ((rdBits 8 r).map fun q => [.rd q.1, .i64 q.2]) := rfl

theorem exec_rdU64 (r : RdState) (s : State) :
    exec (.rdU64 r) s = finish s ((rdBits 8 r).map fun q => [.rd q.1, .u64 q.2]) := rfl

/-- `RD_BOOL` ends as the read of a boolean does (R161). -/
theorem exec_rdBool (r : RdState) (s : State) :
    exec (.rdBool r) s = finish s ((rdBool r).map fun q => [.rd q.1, .bool q.2]) := rfl

/-- `RD_BYTES` ends as the read of its bytes does (R162). -/
theorem exec_rdBytes (r : RdState) (n : Nat) (s : State) :
    exec (.rdBytes r n) s = finish s ((rdTake r n).map fun q => [.rd q.1, .bytes q.2]) := rfl

/-- `RD_STR` ends as the read of the length and the string does (R163). -/
theorem exec_rdStr (r : RdState) (s : State) :
    exec (.rdStr r) s = finish s ((rdStr r).map fun q => [.rd q.1, .bytes q.2]) := rfl

/-- `RD_FSTR` ends as the read of its field does (R165). -/
theorem exec_rdFstr (r : RdState) (n : Nat) (trim : Bool) (s : State) :
    exec (.rdFstr r n trim) s = finish s ((rdFstr r n trim).map fun q => [.rd q.1, .bytes q.2]) := rfl

/-- `RD_GOTO` ends as the move does (R176). -/
theorem exec_rdGoto (r : RdState) (index : Int) (s : State) :
    exec (.rdGoto r index) s = finish s ((rdGoto r index).map fun r' => [.rd r']) := rfl

/-- `RD_SKIP` ends as the move does (R177). -/
theorem exec_rdSkip (r : RdState) (n : Int) (s : State) :
    exec (.rdSkip r n) s = finish s ((rdSkip r n).map fun r' => [.rd r']) := rfl

/-- `RD_TOWIRE` always completes (R178). -/
theorem exec_rdTowire (r : RdState) (s : State) :
    exec (.rdTowire r) s = .next { s with response := some (.ok [.bytes (rdToWire r)]) } := rfl

/-- `RD_EXTHDR` ends as the read of the external header does (R173). -/
theorem exec_rdExthdr (r : RdState) (s : State) :
    exec (.rdExthdr r) s = finish s ((extHeader r.buf).map fun x => [.u16 x]) := rfl

/-- `RD_POS` always completes (R179). -/
theorem exec_rdPos (r : RdState) (s : State) :
    exec (.rdPos r) s = .next { s with response := some (.ok [.nat r.pos]) } := rfl

/-- `RD_ABSLEN` always completes (R180). -/
theorem exec_rdAbslen (r : RdState) (s : State) :
    exec (.rdAbslen r) s = .next { s with response := some (.ok [.nat r.buf.length]) } := rfl

/-- `RD_DATALEN` always completes (R181). -/
theorem exec_rdDatalen (r : RdState) (s : State) :
    exec (.rdDatalen r) s = .next { s with response := some (.ok [.nat (r.buf.length - 2)]) } := rfl

/-- `RD_TAG` always completes (R182). -/
theorem exec_rdTag (r : RdState) (s : State) :
    exec (.rdTag r) s = .next { s with response := some (.ok [.optU16 r.tag]) } := rfl

/-- A command on values whose operation gives a value answers the results made of it. -/
theorem finish_map_ok {α : Type} (s : State) {r : Except ErrCode α} {q : α} (f : α → List Value) (h : r = .ok q) :
    finish s (r.map f) = .next { s with response := some (.ok (f q)) } := by
  rw [h, Except.map, finish_ok]

/-- A command on values whose operation fails answers its error. -/
theorem finish_map_error {α : Type} (s : State) {r : Except ErrCode α} {e : ErrCode} (f : α → List Value)
    (h : r = .error e) : finish s (r.map f) = .next { s with response := some (.err e []) } := by
  rw [h, Except.map, finish_error]

/-! ### Little-endian fields -/

/-- The first byte of a little-endian field is its least significant one (R13). -/
theorem leBits_cons (w : Nat) (b : Byte) (bs : Bytes) : leBits (w + 8) (b :: bs) = leBits w bs ++ b := by
  apply BitVec.eq_of_toNat_eq
  have hb : b.toNat < 256 := b.isLt
  have hor := Nat.shiftLeft_add_eq_or_of_lt (i := 8) hb (leNat bs % 2 ^ w)
  have hmod : (b.toNat + 256 * leNat bs) % 256 = b.toNat := by omega
  have hdiv : (b.toNat + 256 * leNat bs) / 256 = leNat bs := by omega
  simp only [leBits, leNat, BitVec.toNat_ofNat, BitVec.toNat_append]
  rw [← hor, Nat.shiftLeft_eq, show 2 ^ (w + 8) = 256 * 2 ^ w by ring, Nat.mod_mul, hmod, hdiv]
  ring

/-- The one byte of an 8-bit field (R13). -/
theorem leBits_singleton (b : Byte) : leBits 8 [b] = b := by
  simp [leBits, leNat]

/-- The four bytes of a little-endian 32-bit value, the last one highest (R13). -/
theorem leBits_four (b0 b1 b2 b3 : Byte) : leBits 32 [b0, b1, b2, b3] = b3 ++ b2 ++ b1 ++ b0 := by
  rw [leBits_cons, leBits_cons, leBits_pair]

/-- The eight bytes of a little-endian 64-bit value, the last one highest (R13). -/
theorem leBits_eight (b0 b1 b2 b3 b4 b5 b6 b7 : Byte) :
    leBits 64 [b0, b1, b2, b3, b4, b5, b6, b7] = b7 ++ b6 ++ b5 ++ b4 ++ b3 ++ b2 ++ b1 ++ b0 := by
  rw [leBits_cons, leBits_cons, leBits_cons, leBits_cons, leBits_four]

/-- The length two bytes give, as a number (R13, R163). -/
theorem toNat_bytePair (b0 b1 : Byte) : (b1 ++ b0 : BitVec 16).toNat = b0.toNat + 256 * b1.toNat := by
  have h0 : b0.toNat < 2 ^ 8 := b0.isLt
  have h1 : b1.toNat < 2 ^ 8 := b1.isLt
  rw [← leBits_pair]
  simp only [leBits, leNat, BitVec.toNat_ofNat]
  omega

/-! ### A field at the cursor -/

/-- A cursor with a byte behind it lies within the buffer. -/
theorem pos_le_length_of_drop {buf tail : Bytes} {a : Nat} {b : Byte} (h : buf.drop a = b :: tail) :
    a ≤ buf.length := by
  by_contra hlt
  rw [List.drop_eq_nil_of_le (by omega)] at h
  cases h

/-- The buffer ends where the bytes behind a cursor do. -/
theorem length_eq_of_drop {buf x : Bytes} {a : Nat} (ha : a ≤ buf.length) (h : buf.drop a = x) :
    buf.length = a + x.length := by
  rw [← h, List.length_drop]
  omega

/-- The next bytes at the cursor are taken as they stand, and the cursor moves past them (R152). -/
theorem rdTake_of_drop {r : RdState} {x tail : Bytes} {n : Nat} (hn : x.length = n) (hpos : r.pos ≤ r.buf.length)
    (h : r.buf.drop r.pos = x ++ tail) : rdTake r n = .ok ({ r with pos := r.pos + n }, x) := by
  have hlen := length_eq_of_drop hpos h
  rw [List.length_append] at hlen
  rw [rdTake_ok (by omega), memRead, h, List.take_left' hn]

/-- A field at the cursor is read as its little-endian bits, and the cursor moves past it (R153 to R160). -/
theorem rdBits_of_drop {r : RdState} {x tail : Bytes} {k : Nat} {v : BitVec (8 * k)} (hk : x.length = k)
    (hv : leBits (8 * k) x = v) (hpos : r.pos ≤ r.buf.length) (h : r.buf.drop r.pos = x ++ tail) :
    rdBits k r = .ok ({ r with pos := r.pos + k }, v) := by
  rw [rdBits, rdTake_of_drop hk hpos h, ← hv]

/-- One byte at the cursor (R153, R154). -/
theorem rdBits_one {r : RdState} {b0 : Byte} {tail : Bytes} (h : r.buf.drop r.pos = b0 :: tail) :
    rdBits 1 r = .ok ({ r with pos := r.pos + 1 }, b0) :=
  rdBits_of_drop (x := [b0]) rfl (leBits_singleton b0) (pos_le_length_of_drop h) h

/-- Two bytes at the cursor (R155, R156). -/
theorem rdBits_two {r : RdState} {b0 b1 : Byte} {tail : Bytes} (h : r.buf.drop r.pos = b0 :: b1 :: tail) :
    rdBits 2 r = .ok ({ r with pos := r.pos + 2 }, b1 ++ b0) :=
  rdBits_of_drop (x := [b0, b1]) rfl (leBits_pair b0 b1) (pos_le_length_of_drop h) h

/-- Four bytes at the cursor (R157, R158). -/
theorem rdBits_four {r : RdState} {b0 b1 b2 b3 : Byte} {tail : Bytes}
    (h : r.buf.drop r.pos = b0 :: b1 :: b2 :: b3 :: tail) :
    rdBits 4 r = .ok ({ r with pos := r.pos + 4 }, b3 ++ b2 ++ b1 ++ b0) :=
  rdBits_of_drop (x := [b0, b1, b2, b3]) rfl (leBits_four b0 b1 b2 b3) (pos_le_length_of_drop h) h

/-- Eight bytes at the cursor (R159, R160). -/
theorem rdBits_eight {r : RdState} {b0 b1 b2 b3 b4 b5 b6 b7 : Byte} {tail : Bytes}
    (h : r.buf.drop r.pos = b0 :: b1 :: b2 :: b3 :: b4 :: b5 :: b6 :: b7 :: tail) :
    rdBits 8 r = .ok ({ r with pos := r.pos + 8 }, b7 ++ b6 ++ b5 ++ b4 ++ b3 ++ b2 ++ b1 ++ b0) :=
  rdBits_of_drop (x := [b0, b1, b2, b3, b4, b5, b6, b7]) rfl (leBits_eight b0 b1 b2 b3 b4 b5 b6 b7)
    (pos_le_length_of_drop h) h

/-- Settles O19: each width reads its bytes at the cursor, one above the other, and a signed read is the unsigned one of
its width. -/
theorem typedReadsAreLittleEndian : Obligations.TypedReadsAreLittleEndian := by
  unfold Obligations.TypedReadsAreLittleEndian
  intro s r b0 b1 b2 b3 b4 b5 b6 b7 tail
  refine ⟨fun h => ?one, fun h => ?two, fun h => ?four, fun h => ?eight, fun h => ?oneShort, fun h => ?twoShort,
    fun h => ?fourShort, fun h => ?eightShort, rfl, rfl, rfl, rfl, rfl, rfl, rfl, rfl⟩
  case one => exact ⟨by rw [exec_rdI8, finish_map_ok _ _ (rdBits_one h)],
    by rw [exec_rdU8, finish_map_ok _ _ (rdBits_one h)]⟩
  case two => exact ⟨by rw [exec_rdI16, finish_map_ok _ _ (rdBits_two h)],
    by rw [exec_rdU16, finish_map_ok _ _ (rdBits_two h)]⟩
  case four => exact ⟨by rw [exec_rdI32, finish_map_ok _ _ (rdBits_four h)],
    by rw [exec_rdU32, finish_map_ok _ _ (rdBits_four h)]⟩
  case eight => exact ⟨by rw [exec_rdI64, finish_map_ok _ _ (rdBits_eight h)],
    by rw [exec_rdU64, finish_map_ok _ _ (rdBits_eight h)]⟩
  case oneShort => exact ⟨by rw [exec_rdI8, finish_map_error _ _ (rdBits_error h)],
    by rw [exec_rdU8, finish_map_error _ _ (rdBits_error h)]⟩
  case twoShort => exact ⟨by rw [exec_rdI16, finish_map_error _ _ (rdBits_error h)],
    by rw [exec_rdU16, finish_map_error _ _ (rdBits_error h)]⟩
  case fourShort => exact ⟨by rw [exec_rdI32, finish_map_error _ _ (rdBits_error h)],
    by rw [exec_rdU32, finish_map_error _ _ (rdBits_error h)]⟩
  case eightShort => exact ⟨by rw [exec_rdI64, finish_map_error _ _ (rdBits_error h)],
    by rw [exec_rdU64, finish_map_error _ _ (rdBits_error h)]⟩

/-! ### Booleans, arrays and strings -/

/-- A boolean is false at 0x00 alone (R161). -/
theorem rdBool_of_drop {r : RdState} {b : Byte} {tail : Bytes} (h : r.buf.drop r.pos = b :: tail) :
    rdBool r = .ok ({ r with pos := r.pos + 1 }, decide (b ≠ 0)) := by
  rw [rdBool, rdBits_one h]
  simp [bne, Bool.beq_eq_decide_eq]

/-- A boolean past the end is not read (R161). -/
theorem rdBool_error {r : RdState} (h : r.buf.length < r.pos + 1) : rdBool r = .error .bounds := by
  rw [rdBool, rdBits_error h]

/-- Settles O20: a boolean is a read of one byte, and an array is the bytes taken. -/
theorem booleanAndArrayReads : Obligations.BooleanAndArrayReads := by
  unfold Obligations.BooleanAndArrayReads
  intro s r b x tail n
  refine ⟨fun h => ?bool, fun hpos h => ?array, fun h => ?boolShort, fun h => ?arrayShort, rfl, rfl⟩
  case bool => rw [exec_rdBool, finish_map_ok _ _ (rdBool_of_drop h)]
  case array => rw [exec_rdBytes, finish_map_ok _ _ (rdTake_of_drop rfl hpos h)]
  case boolShort => rw [exec_rdBool, finish_map_error _ _ (rdBool_error h)]
  case arrayShort => rw [exec_rdBytes, finish_map_error _ _ (rdTake_error h)]

/-- A string whose length field does not fit is not read (R163). -/
theorem rdStr_error {r : RdState} (h : r.buf.length < r.pos + 2) : rdStr r = .error .bounds := by
  rw [rdStr, rdBits_error h]

/-- Behind its length field, a string is the taking of as many bytes as that counts (R163). -/
theorem rdStr_of_drop {r : RdState} {b0 b1 : Byte} {tail : Bytes} (h : r.buf.drop r.pos = b0 :: b1 :: tail) :
    rdStr r = rdTake { r with pos := r.pos + 2 } (b0.toNat + 256 * b1.toNat) := by
  simp only [rdStr, rdBits_two h, toNat_bytePair]

/-- Settles O21: the bytes behind the length field hold the string or are too few for it. -/
theorem stringRead : Obligations.StringRead := by
  unfold Obligations.StringRead
  intro s r b0 b1 tail
  have hlength (h : r.buf.drop r.pos = b0 :: b1 :: tail) : r.buf.length = r.pos + (tail.length + 2) :=
    length_eq_of_drop (pos_le_length_of_drop h) h
  refine ⟨rfl, fun h => ?noLength, fun h hfit => ?fits, fun h hshort => ?short⟩
  case noLength => rw [exec_rdStr, finish_map_error _ _ (rdStr_error h)]
  case fits =>
    have hlen := hlength h
    have hrest : r.buf.drop (r.pos + 2) = tail := by rw [← List.drop_drop, h]; rfl
    have hread := (rdStr_of_drop h).trans (rdTake_of_drop (List.length_take_of_le hfit) (by simp only; omega)
      (hrest.trans (List.take_append_drop _ tail).symm))
    rw [exec_rdStr, finish_map_ok _ _ hread]
  case short =>
    have hlen := hlength h
    have hread := (rdStr_of_drop h).trans (rdTake_error (by simp only; omega))
    rw [exec_rdStr, finish_map_error _ _ hread]

/-- The trim removes the trailing zeros and no more (R165). -/
theorem trimNul_append_zeros {y : Bytes} (hy : y.getLast? ≠ some 0) (k : Nat) :
    trimNul (y ++ List.replicate k 0) = y := by
  induction k with
  | zero =>
    rw [List.replicate_zero, List.append_nil, trimNul, List.rdropWhile_eq_self_iff]
    intro hne hlast
    exact hy (by rw [List.getLast?_eq_some_getLast hne, beq_iff_eq.mp hlast])
  | succ k ih =>
    rw [List.replicate_succ', ← List.append_assoc, trimNul, List.rdropWhile_concat_pos (· == 0) _ 0 rfl]
    exact ih

/-- A fixed-length string is the bytes taken, trimmed or not (R165). -/
theorem rdFstr_of_drop {r : RdState} {x tail : Bytes} {n : Nat} (hn : x.length = n) (hpos : r.pos ≤ r.buf.length)
    (h : r.buf.drop r.pos = x ++ tail) (trim : Bool) :
    rdFstr r n trim = .ok ({ r with pos := r.pos + n }, if trim then trimNul x else x) := by
  rw [rdFstr, rdTake_of_drop hn hpos h]

/-- A fixed-length string past the end is not read (R165). -/
theorem rdFstr_error {r : RdState} {n : Nat} (h : r.buf.length < r.pos + n) (trim : Bool) :
    rdFstr r n trim = .error .bounds := by
  rw [rdFstr, rdTake_error h]

/-- Settles O22: both reads take the field and its zeros, and the trim takes the zeros off. -/
theorem fixedStringRead : Obligations.FixedStringRead := by
  unfold Obligations.FixedStringRead
  intro s r n y tail k trim
  refine ⟨rfl, fun h => ?short, fun hpos h hy => ?fits⟩
  case short => rw [exec_rdFstr, finish_map_error _ _ (rdFstr_error h trim)]
  case fits =>
    have hread := rdFstr_of_drop (by rw [List.length_append, List.length_replicate]) hpos h
    refine ⟨?trimmed, ?whole⟩
    case trimmed => rw [exec_rdFstr, finish_map_ok _ _ (hread true), if_pos rfl, trimNul_append_zeros hy]
    case whole => rw [exec_rdFstr, finish_map_ok _ _ (hread false), if_neg Bool.false_ne_true]

/-! ### Construction, the external header, and moves of the cursor -/

/-- The external header is the first two bytes (R164). -/
theorem extHeader_cons (b0 b1 : Byte) (rest : Bytes) : extHeader (b0 :: b1 :: rest) = .ok (b1 ++ b0) :=
  congrArg Except.ok (leBits_pair b0 b1)

/-- There is no external header in fewer than two bytes (R173). -/
theorem extHeader_error {buf : Bytes} (h : buf.length < 2) : extHeader buf = .error .bounds := by
  match buf, h with
  | [], _ => rfl
  | [_], _ => rfl

/-- A reader without a header starts at 0, over any buffer (R150). -/
theorem rdNew_noHeader (buf : Bytes) : rdNew buf .noHeader = .ok ⟨buf, 0, .noHeader, none⟩ := rfl

/-- A `StaticHeader` reader starts past the header and keeps it as its tag (R150). -/
theorem rdNew_static (b0 b1 : Byte) (rest : Bytes) :
    rdNew (b0 :: b1 :: rest) .staticHeader = .ok ⟨b0 :: b1 :: rest, 2, .staticHeader, some (b1 ++ b0)⟩ := by
  rw [rdNew, extHeader_cons]

/-- A reader with a header is not made over a buffer that cannot hold one (R150). -/
theorem rdNew_error {buf : Bytes} {m : Mode} (hm : m ≠ .noHeader) (h : buf.length < 2) :
    rdNew buf m = .error .bounds := by
  cases m with
  | noHeader => exact absurd rfl hm
  | staticHeader | dynamicHeader => rw [rdNew, extHeader_error h]

/-- Settles O18: a header mode reads the external header, and only `StaticHeader` keeps it. -/
theorem readerConstruction : Obligations.ReaderConstruction := by
  unfold Obligations.ReaderConstruction
  intro s buf b0 b1 rest
  refine ⟨rfl, ?noHeader, ?static, ?dynamic, fun h => ⟨?staticShort, ?dynamicShort⟩⟩
  case noHeader => rw [exec_rdNew, finish_map_ok _ _ (rdNew_noHeader buf)]
  case static => rw [exec_rdNew, finish_map_ok _ _ (rdNew_static b0 b1 rest)]
  case dynamic => rw [exec_rdNew, finish_map_ok _ _ (rdNew_dynamic (by simp))]
  case staticShort => rw [exec_rdNew, finish_map_error _ _ (rdNew_error (by decide) h)]
  case dynamicShort => rw [exec_rdNew, finish_map_error _ _ (rdNew_error (by decide) h)]

/-- An offset outside the buffer is refused before the clamp (R176). -/
theorem rdGoto_error {r : RdState} {i : Int} (h : i < 0 ∨ (r.buf.length : Int) < i) :
    rdGoto r i = .error .bounds :=
  if_pos h

/-- An offset within the buffer is where the cursor goes, but for the clamp (R176). -/
theorem rdGoto_ok {r : RdState} {p : Nat} (h : p ≤ r.buf.length) :
    rdGoto r p = .ok { r with pos := if r.mode ≠ .noHeader ∧ p < 2 then 2 else p } :=
  if_neg (by omega)

/-- A skip by less than 1 or past the end is refused (R177). -/
theorem rdSkip_error {r : RdState} {i : Int} (h : i < 1 ∨ (r.buf.length : Int) < r.pos + i) :
    rdSkip r i = .error .bounds := by
  rw [rdSkip]
  split
  case isTrue => rfl
  case isFalse hi => exact if_pos (h.resolve_left hi)

/-- A skip within the buffer moves the cursor by its amount (R177). -/
theorem rdSkip_ok {r : RdState} {p : Nat} (h1 : 1 ≤ p) (h : r.pos + p ≤ r.buf.length) :
    rdSkip r p = .ok { r with pos := r.pos + p } := by
  rw [rdSkip, if_neg (by omega), if_neg (by omega), Int.toNat_natCast]

/-- Settles O23: an offset within the buffer is clamped exactly in a header mode below 2. -/
theorem cursorMoves : Obligations.CursorMoves := by
  unfold Obligations.CursorMoves
  intro s r i p
  refine ⟨rfl, rfl, fun h => ?outside, fun h hkept => ?kept, fun h hmode hp => ?clamped, fun h => ?skipOutside,
    fun h1 h => ?skip⟩
  case outside => rw [exec_rdGoto, finish_map_error _ _ (rdGoto_error h)]
  case kept =>
    have hno : ¬(r.mode ≠ .noHeader ∧ p < 2) := fun ⟨hm, hp⟩ => hkept.elim hm (Nat.not_le.mpr hp)
    rw [exec_rdGoto, finish_map_ok _ _ (rdGoto_ok h), if_neg hno]
  case clamped => rw [exec_rdGoto, finish_map_ok _ _ (rdGoto_ok h), if_pos ⟨hmode, hp⟩]
  case skipOutside => rw [exec_rdSkip, finish_map_error _ _ (rdSkip_error h)]
  case skip => rw [exec_rdSkip, finish_map_ok _ _ (rdSkip_ok h1 h)]

/-- Without a header the wire bytes are those before the cursor (R178). -/
theorem rdToWire_noHeader {r : RdState} (h : r.mode = .noHeader) : rdToWire r = r.buf.take r.pos := if_pos h

/-- In a header mode the wire bytes are those past the header (R178). -/
theorem rdToWire_header {r : RdState} (h : r.mode ≠ .noHeader) : rdToWire r = r.buf.drop 2 := if_neg h

/-- Settles O24: no query returns a reader, and only the external header can fail to be there. -/
theorem readerQueries : Obligations.ReaderQueries := by
  unfold Obligations.ReaderQueries
  intro s r b0 b1 rest
  refine ⟨fun h => ?wireNoHeader, fun h => ?wireHeader, fun h => ?header, fun h => ?headerShort, exec_rdPos r s,
    exec_rdAbslen r s, exec_rdDatalen r s, exec_rdTag r s, rfl, rfl, rfl, rfl, rfl, rfl⟩
  case wireNoHeader => rw [exec_rdTowire, rdToWire_noHeader h]
  case wireHeader => rw [exec_rdTowire, rdToWire_header h]
  case header => rw [exec_rdExthdr, h, finish_map_ok _ _ (extHeader_cons b0 b1 rest)]
  case headerShort => rw [exec_rdExthdr, finish_map_error _ _ (extHeader_error h)]

end Sys2Proof.Machine
end

section
/-! The writer's commands: how a writer starts, what a write puts at the cursor and how far it grows the buffer, and
what finalizing returns (44_writer.md R190 to R209). -/

namespace Sys2Proof.Machine

/-! ### The dispatcher, one equation per command -/

/-- `WR_NEW` ends as the construction of its writer does (R190). -/
theorem exec_wrNew (tag size : Option Int) (s : State) :
    exec (.wrNew tag size) s = finish s ((wrNew tag size).map fun w => [.wr w]) := rfl

/-- A typed write always completes, and puts the bytes of its value (R194 to R201). -/
theorem exec_wrI8 (w : WrState) (v : BitVec 8) (s : State) :
    exec (.wrI8 w v) s = finish s (.ok [.wr (wrPut w (bytesLe 1 v))]) := rfl

theorem exec_wrU8 (w : WrState) (v : BitVec 8) (s : State) :
    exec (.wrU8 w v) s = finish s (.ok [.wr (wrPut w (bytesLe 1 v))]) := rfl

theorem exec_wrI16 (w : WrState) (v : BitVec 16) (s : State) :
    exec (.wrI16 w v) s = finish s (.ok [.wr (wrPut w (bytesLe 2 v))]) := rfl

theorem exec_wrU16 (w : WrState) (v : BitVec 16) (s : State) :
    exec (.wrU16 w v) s = finish s (.ok [.wr (wrPut w (bytesLe 2 v))]) := rfl

theorem exec_wrI32 (w : WrState) (v : BitVec 32) (s : State) :
    exec (.wrI32 w v) s = finish s (.ok [.wr (wrPut w (bytesLe 4 v))]) := rfl

theorem exec_wrU32 (w : WrState) (v : BitVec 32) (s : State) :
    exec (.wrU32 w v) s = finish s (.ok [.wr (wrPut w (bytesLe 4 v))]) := rfl

theorem exec_wrI64 (w : WrState) (v : BitVec 64) (s : State) :
    exec (.wrI64 w v) s = finish s (.ok [.wr (wrPut w (bytesLe 8 v))]) := rfl

theorem exec_wrU64 (w : WrState) (v : BitVec 64) (s : State) :
    exec (.wrU64 w v) s = finish s (.ok [.wr (wrPut w (bytesLe 8 v))]) := rfl

/-- `WR_BOOL` always completes (R202). -/
theorem exec_wrBool (w : WrState) (v : Bool) (s : State) :
    exec (.wrBool w v) s = finish s (.ok [.wr (wrPut w [boolByte v])]) := rfl

/-- `WR_BYTES` always completes (R203). -/
theorem exec_wrBytes (w : WrState) (b : Bytes) (s : State) :
    exec (.wrBytes w b) s = finish s (.ok [.wr (wrPut w b)]) := rfl

/-- `WR_STR` ends as the write of the length and the string does (R204). -/
theorem exec_wrStr (w : WrState) (t : Bytes) (s : State) :
    exec (.wrStr w t) s = finish s ((wrStr w t).map fun w' => [.wr w']) := rfl

/-- `WR_FSTR` ends as the write of its field does (R205). -/
theorem exec_wrFstr (w : WrState) (t : Bytes) (n : Nat) (s : State) :
    exec (.wrFstr w t n) s = finish s ((wrFstr w t n).map fun w' => [.wr w']) := rfl

/-- `WR_TOWIRE` always completes (R206). -/
theorem exec_wrTowire (w : WrState) (s : State) :
    exec (.wrTowire w) s = finish s (.ok [.wr (wrToWire w).1, .bytes (wrToWire w).2]) := rfl

/-- `WR_POS` always completes (R207). -/
theorem exec_wrPos (w : WrState) (s : State) : exec (.wrPos w) s = finish s (.ok [.nat w.pos]) := rfl

/-- `WR_ABSLEN` always completes (R208). -/
theorem exec_wrAbslen (w : WrState) (s : State) : exec (.wrAbslen w) s = finish s (.ok [.nat w.buf.length]) := rfl

/-- `WR_DATALEN` always completes (R209). -/
theorem exec_wrDatalen (w : WrState) (s : State) :
    exec (.wrDatalen w) s = finish s (.ok [.nat (w.buf.length - 2)]) := rfl

/-! ### The bytes of a value -/

/-- The bytes of a number are its digits to base 256, least significant first (R13). -/
theorem bytesLeNat_eq_map (k v : Nat) :
    bytesLeNat k v = (List.range k).map fun i => BitVec.ofNat 8 (v >>> (8 * i)) := by
  induction k generalizing v with
  | zero => rfl
  | succ k ih =>
    rw [bytesLeNat, ih, List.range_succ_eq_map, List.map_cons, List.map_map]
    refine congrArg₂ List.cons rfl (List.map_congr_left fun i _ => congrArg (BitVec.ofNat 8) ?_)
    calc (v / 256) >>> (8 * i) = v >>> 8 >>> (8 * i) := by rw [Nat.shiftRight_eq_div_pow v 8]
      _ = v >>> (8 * i.succ) := by rw [← Nat.shiftRight_add, Nat.mul_succ, Nat.add_comm]

/-- The bytes of a value are its slices of 8 bits, lowest first (R13). -/
theorem bytesLe_eq_map (k : Nat) (v : BitVec (8 * k)) :
    bytesLe k v = (List.range k).map fun i => v.extractLsb' (8 * i) 8 :=
  bytesLeNat_eq_map k v.toNat

/-- The one byte of an 8-bit value (R194, R195). -/
theorem bytesLe_one (v : BitVec 8) : bytesLe 1 v = [v] := by
  simp [bytesLe, bytesLeNat]

/-- The two bytes of a number that fits them (R13). -/
theorem bytesLe_two_ofNat {n : Nat} (h : n ≤ 65535) :
    bytesLe 2 (BitVec.ofNat 16 n) = [BitVec.ofNat 8 n, BitVec.ofNat 8 (n / 256)] := by
  rw [bytesLe, BitVec.toNat_ofNat, Nat.mod_eq_of_lt (by omega)]
  rfl

/-- The two bytes of an integer that fits them (R190). -/
theorem bytesLe_two_ofInt {t : Int} (h0 : 0 ≤ t) (h : t ≤ 0xFFFF) :
    bytesLe 2 (BitVec.ofInt 16 t) = [BitVec.ofInt 8 t, BitVec.ofInt 8 (t / 256)] := by
  lift t to Nat using h0
  have hdiv : (t : Int) / 256 = ((t / 256 : Nat) : Int) := rfl
  rw [hdiv, BitVec.ofInt_natCast, BitVec.ofInt_natCast, BitVec.ofInt_natCast, bytesLe_two_ofNat (by omega)]

/-- Settles O27: each typed write puts the slices of its value. -/
theorem typedWritesPutLittleEndianBytes : Obligations.TypedWritesPutLittleEndianBytes := by
  unfold Obligations.TypedWritesPutLittleEndianBytes
  intro s w v8 v16 v32 v64
  have h16 := bytesLe_eq_map 2 v16
  have h32 := bytesLe_eq_map 4 v32
  have h64 := bytesLe_eq_map 8 v64
  refine ⟨?i8, ?u8, ?i16, ?u16, ?i32, ?u32, ?i64, ?u64, exec_wrBool w true s, exec_wrBool w false s,
    rfl, rfl, rfl, rfl, rfl, rfl, rfl, rfl, rfl⟩
  case i8 => rw [exec_wrI8, bytesLe_one, finish_ok]
  case u8 => rw [exec_wrU8, bytesLe_one, finish_ok]
  case i16 => rw [exec_wrI16, h16]; rfl
  case u16 => rw [exec_wrU16, h16]; rfl
  case i32 => rw [exec_wrI32, h32]; rfl
  case u32 => rw [exec_wrU32, h32]; rfl
  case i64 => rw [exec_wrI64, h64]; rfl
  case u64 => rw [exec_wrU64, h64]; rfl

/-! ### A write at the cursor -/

/-- A write leaves each byte before it alone (R15). -/
theorem memWrite_getElem?_before {buf : Bytes} {a i : Nat} (v : Bytes) (ha : a ≤ buf.length) (hi : i < a) :
    (memWrite buf a v)[i]? = buf[i]? := by
  rw [memWrite, List.append_assoc, List.getElem?_append_left (by rw [List.length_take]; omega),
    List.getElem?_take_of_lt hi]

/-- A write puts its bytes one by one from its address on (R15). -/
theorem memWrite_getElem?_inside {buf v : Bytes} {a i : Nat} (ha : a ≤ buf.length) (hi : i < v.length) :
    (memWrite buf a v)[a + i]? = v[i]? := by
  have htake : (buf.take a).length = a := List.length_take_of_le ha
  rw [memWrite, List.append_assoc, List.getElem?_append_right (by omega), htake, Nat.add_sub_cancel_left,
    List.getElem?_append_left hi]

/-- A write leaves each byte behind it alone (R15). -/
theorem memWrite_getElem?_after {buf v : Bytes} {a i : Nat} (ha : a ≤ buf.length) (hi : a + v.length ≤ i) :
    (memWrite buf a v)[i]? = buf[i]? := by
  have hfront : (buf.take a ++ v).length = a + v.length := by
    rw [List.length_append, List.length_take_of_le ha]
  rw [memWrite, List.getElem?_append_right (by omega), hfront, List.getElem?_drop]
  congr 1
  omega

/-- A byte of a buffer grown by zeros is the one that stood there, or 0x00 (R191). -/
theorem getElem?_append_zeros (buf : Bytes) {n i : Nat} (hi : i < buf.length + n) :
    (buf ++ zeros n)[i]? = some (buf.getD i 0) := by
  by_cases hold : i < buf.length
  case pos => rw [List.getElem?_append_left hold, List.getD_eq_getElem _ _ hold, List.getElem?_eq_getElem hold]
  case neg =>
    rw [List.getElem?_append_right (by omega), List.getD_eq_default _ _ (by omega), zeros,
      List.getElem?_replicate_of_lt (by omega)]

/-- Settles O26: the buffer is grown by the least number of steps, and the bytes are written into it at the cursor. -/
theorem writeGrowsByLeastSteps : Obligations.WriteGrowsByLeastSteps := by
  unfold Obligations.WriteGrowsByLeastSteps
  intro s w x hpos
  obtain ⟨k, heq, hfit, hleast⟩ := wrPut_spec w x
  have hbuf : (wrPut w x).buf = memWrite (w.buf ++ zeros (64 * k)) w.pos x := congrArg WrState.buf heq
  have hgrown : (w.buf ++ zeros (64 * k)).length = w.buf.length + 64 * k := by
    rw [List.length_append, zeros_length]
  have hlen : (wrPut w x).buf.length = w.buf.length + 64 * k := by
    rw [hbuf, memWrite_length (by omega), hgrown]
  refine ⟨rfl, exec_wrBytes w x s, wrPut_pos w x, wrPut_tag w x, ⟨k, hlen, by omega, fun j hj => ?least⟩,
    fun i hi => ?before, fun i hi => ?inside, fun i hi hilen => ?after⟩
  case least =>
    have := hleast j hj
    omega
  case before => rw [hbuf, memWrite_getElem?_before x (by omega) hi, List.getElem?_append_left (by omega)]
  case inside => rw [hbuf, memWrite_getElem?_inside (by omega) hi]
  case after => rw [hbuf, memWrite_getElem?_after (by omega) hi, getElem?_append_zeros _ (by omega)]

/-! ### Strings -/

/-- A string that its 16-bit length can count is put behind it (R204). -/
theorem wrStr_ok (w : WrState) {t : Bytes} (h : t.length ≤ 65535) :
    wrStr w t = .ok (wrPut w (bytesLe 2 (BitVec.ofNat 16 t.length) ++ t)) :=
  if_neg (Nat.not_lt.mpr h)

/-- A string that its 16-bit length cannot count is not written (R204). -/
theorem wrStr_error (w : WrState) {t : Bytes} (h : 65535 < t.length) : wrStr w t = .error .bounds := if_pos h

/-- A string that fits its field is put with the field's padding (R205). -/
theorem wrFstr_ok (w : WrState) {t : Bytes} {n : Nat} (h : t.length ≤ n) :
    wrFstr w t n = .ok (wrPut w (t ++ zeros (n - t.length))) :=
  if_neg (Nat.not_lt.mpr h)

/-- A string longer than its field is not written (R205). -/
theorem wrFstr_error (w : WrState) {t : Bytes} {n : Nat} (h : n < t.length) : wrFstr w t n = .error .bounds :=
  if_pos h

/-- Settles O28: each string write is one put when its check passes, and the length is two bytes. -/
theorem stringWrites : Obligations.StringWrites := by
  unfold Obligations.StringWrites
  intro s w t n
  refine ⟨rfl, rfl, fun h => ?tooLong, fun h => ?string, fun h => ?overField, fun h => ?field⟩
  case tooLong => rw [exec_wrStr, finish_map_error _ _ (wrStr_error w h)]
  case string => rw [exec_wrStr, finish_map_ok _ _ (wrStr_ok w h), bytesLe_two_ofNat h]
  case overField => rw [exec_wrFstr, finish_map_error _ _ (wrFstr_error w h)]
  case field => rw [exec_wrFstr, finish_map_ok _ _ (wrFstr_ok w h), zeros]

/-! ### Construction and finalization -/

/-- What a writer holds before its first write: 4 reserved bytes and the tag, when it has one (R190). -/
def writerHead : Option (BitVec 16) → Bytes
  | none => []
  | some t => zeros 4 ++ bytesLe 2 t

/-- A writer over `cap` bytes with nothing written (R190). -/
def freshWriter (cap : Nat) (tag : Option (BitVec 16)) : WrState :=
  ⟨writerHead tag ++ zeros (cap - (writerHead tag).length), (writerHead tag).length, tag⟩

/-- A tag that fits 16 bits, or none (R190). -/
def TagFits (tag : Option Int) : Prop := ∀ t, tag = some t → 0 ≤ t ∧ t ≤ 0xFFFF

/-- The capacity a size asks for: at least 6 bytes, and 64 when no size is given (R190). -/
def CapacityFor (size : Option Int) (cap : Nat) : Prop :=
  (size = none ∧ cap = 64) ∨ (size = some (cap : Int) ∧ 6 ≤ cap)

theorem CapacityFor.six_le {size : Option Int} {cap : Nat} (h : CapacityFor size cap) : 6 ≤ cap := by
  obtain ⟨-, rfl⟩ | ⟨-, h6⟩ := h
  · decide
  · exact h6

/-- The check of the tag finds nothing exactly when the tag fits (R190). -/
theorem tagCheck_iff (tag : Option Int) :
    ¬ tag.any (fun t : Int => decide (t < 0 ∨ t > 0xFFFF)) = true ↔ TagFits tag := by
  cases tag with
  | none => simp [TagFits]
  | some t => simp [TagFits]

/-- A tag that does not fit is refused whatever the size (R190). -/
theorem wrNew_validation {tag : Option Int} (h : ¬ TagFits tag) (size : Option Int) :
    wrNew tag size = .error .validation :=
  if_pos (not_not.mp (mt (tagCheck_iff tag).mp h))

/-- Behind a tag that fits, a size below 6 is refused (R190). -/
theorem wrNew_bounds {tag : Option Int} (htag : TagFits tag) {n : Int} (hn : n < 6) :
    wrNew tag (some n) = .error .bounds := by
  rw [wrNew, if_neg ((tagCheck_iff tag).mpr htag)]
  exact if_pos (decide_eq_true hn)

/-- The tag behind the reserved bytes fills the front of the zeroed buffer (R190). -/
theorem memWrite_zeros_tag {cap : Nat} (hcap : 6 ≤ cap) (t : BitVec 16) :
    memWrite (zeros cap) 4 (bytesLe 2 t) = writerHead (some t) ++ zeros (cap - 6) := by
  simp [memWrite, writerHead, zeros, List.take_replicate, Nat.min_eq_left (show 4 ≤ cap by omega)]

/-- The cursor of a fresh writer lies inside its buffer (R30). -/
theorem freshWriter_pos_le (cap : Nat) (tag : Option (BitVec 16)) :
    (freshWriter cap tag).pos ≤ (freshWriter cap tag).buf.length := by
  simp [freshWriter]

/-- Before its cursor a fresh writer holds its head alone (R190). -/
theorem freshWriter_take (cap : Nat) (tag : Option (BitVec 16)) :
    (freshWriter cap tag).buf.take (freshWriter cap tag).pos = writerHead tag :=
  List.take_left

theorem freshWriter_none (cap : Nat) : freshWriter cap none = ⟨zeros cap, 0, none⟩ := rfl

/-- The tag is stored behind the reserved bytes of a zeroed buffer (R190). -/
theorem freshWriter_some {cap : Nat} (hcap : 6 ≤ cap) (t : BitVec 16) :
    freshWriter cap (some t) = ⟨memWrite (zeros cap) 4 (bytesLe 2 t), 6, some t⟩ := by
  rw [memWrite_zeros_tag hcap]
  rfl

/-- With a tag that fits and a size in range the writer is a fresh one (R190). -/
theorem wrNew_ok {tag size : Option Int} {cap : Nat} (htag : TagFits tag) (hsize : CapacityFor size cap) :
    wrNew tag size = .ok (freshWriter cap (tag.map (BitVec.ofInt 16))) := by
  have hsizeCheck : ¬ size.any (fun n : Int => decide (n < (wrMinSize : Int))) = true := by
    obtain ⟨rfl, -⟩ | ⟨rfl, hcap⟩ := hsize
    · exact Bool.false_ne_true
    · simpa using hcap
  unfold wrNew
  rw [if_neg ((tagCheck_iff tag).mpr htag), if_neg hsizeCheck]
  cases tag with
  | none =>
    rw [Option.map_none, freshWriter_none]
    obtain ⟨rfl, rfl⟩ | ⟨rfl, -⟩ := hsize <;> rfl
  | some t =>
    rw [Option.map_some, freshWriter_some hsize.six_le]
    obtain ⟨rfl, rfl⟩ | ⟨rfl, -⟩ := hsize <;> rfl

/-- A construction that ends `Ok` passed both checks, and its writer is a fresh one (R190). -/
theorem exists_cap_of_wrNew {tag size : Option Int} {w : WrState} (h : wrNew tag size = .ok w) :
    ∃ cap, w = freshWriter cap (tag.map (BitVec.ofInt 16)) := by
  have htag : TagFits tag := by
    by_contra hno
    rw [wrNew_validation hno] at h
    cases h
  have hsize : ∃ cap, CapacityFor size cap := by
    cases size with
    | none => exact ⟨64, .inl ⟨rfl, rfl⟩⟩
    | some n =>
      by_cases hn : n < 6
      case pos =>
        rw [wrNew_bounds htag hn] at h
        cases h
      case neg => exact ⟨n.toNat, .inr ⟨congrArg some (by omega), by omega⟩⟩
  obtain ⟨cap, hcap⟩ := hsize
  rw [wrNew_ok htag hcap] at h
  exact ⟨cap, (Except.ok.inj h).symm⟩

/-- Settles O25: the tag's check comes first, then the size's, and past both the writer is a fresh one. -/
theorem writerConstruction : Obligations.WriterConstruction := by
  unfold Obligations.WriterConstruction
  intro s tag size t cap
  have hnone : TagFits none := fun t ht => by cases ht
  have hsome : TagFits (some t) ↔ 0 ≤ t ∧ t ≤ 0xFFFF := by simp [TagFits]
  refine ⟨rfl, fun h => ?badTag, fun htag ⟨n, hsize, hn⟩ => ?badSize, fun hsize => ⟨?untagged, fun h0 h => ?tagged⟩⟩
  case badTag =>
    have hbad : ¬ TagFits (some t) := by rw [hsome]; omega
    rw [exec_wrNew, finish_map_error _ _ (wrNew_validation hbad size)]
  case badSize =>
    have hfits : TagFits tag := by
      obtain rfl | ⟨rfl, ht⟩ := htag
      · exact hnone
      · exact hsome.mpr ht
    rw [exec_wrNew, hsize, finish_map_error _ _ (wrNew_bounds hfits hn)]
  case untagged =>
    rw [exec_wrNew, finish_map_ok _ _ (wrNew_ok hnone hsize)]
    rfl
  case tagged =>
    rw [exec_wrNew, finish_map_ok _ _ (wrNew_ok (hsome.mpr ⟨h0, h⟩) hsize), freshWriter, Option.map_some, writerHead,
      bytesLe_two_ofInt h0 h]
    rfl

/-- An untagged writer is finalized to its bytes before the cursor (R206). -/
theorem wrToWire_untagged {w : WrState} (h : w.tag = none) :
    wrToWire w = ({ w with buf := w.buf.take w.pos }, w.buf.take w.pos) := by
  rw [wrToWire, h]

/-- A tagged writer is finalized to its bytes before the cursor, past the 4 reserved ones (R206). -/
theorem wrToWire_tagged {w : WrState} (h : w.tag ≠ none) :
    wrToWire w = ({ w with buf := w.buf.take w.pos }, (w.buf.take w.pos).drop 4) := by
  obtain ⟨t, ht⟩ := Option.ne_none_iff_exists'.mp h
  rw [wrToWire, ht]

/-- Settles O29: the tag alone decides what finalizing returns, and no query returns a writer. -/
theorem writerFinalizationAndQueries : Obligations.WriterFinalizationAndQueries := by
  unfold Obligations.WriterFinalizationAndQueries
  intro s w
  refine ⟨fun h => ?untagged, fun h => ?tagged, exec_wrPos w s, exec_wrAbslen w s, exec_wrDatalen w s,
    rfl, rfl, rfl, rfl⟩
  case untagged => rw [exec_wrTowire, wrToWire_untagged h, finish_ok]
  case tagged => rw [exec_wrTowire, wrToWire_tagged h, finish_ok]

end Sys2Proof.Machine
end

section
/-! Reads over a finalized writer return the values written (44_writer.md R210): what each operation puts on the wire,
that its matching read gives the value back, and both over a sequence. -/

namespace Sys2Proof.Machine

/-! ### One operation -/

/-- The bytes an operation puts (R194 to R205). -/
def WriteOp.wire : WriteOp → Bytes
  | .i8 v | .u8 v => bytesLe 1 v
  | .i16 v | .u16 v => bytesLe 2 v
  | .i32 v | .u32 v => bytesLe 4 v
  | .i64 v | .u64 v => bytesLe 8 v
  | .bool v => [boolByte v]
  | .bytes b => b
  | .str t => bytesLe 2 (BitVec.ofNat 16 t.length) ++ t
  | .fstr t n _ => t ++ zeros (n - t.length)

/-- The check an operation makes before it writes (R204, R205). -/
def WriteOp.fits : WriteOp → Bool
  | .str t => decide (t.length ≤ 65535)
  | .fstr t n _ => decide (t.length ≤ n)
  | _ => true

/-- An operation that passes its check puts its bytes, and any other raises `BOUNDS` (R194 to R205). -/
theorem exec_writeInstr (k : WriteOp) (w : WrState) (s : State) :
    exec (k.writeInstr w) s =
      finish s (if k.fits then .ok [.wr (wrPut w k.wire)] else .error .bounds) := by
  cases k with
  | str t =>
    by_cases h : t.length ≤ 65535
    case pos =>
      rw [if_pos (show (WriteOp.str t).fits = true from decide_eq_true h)]
      exact finish_map_ok s _ (wrStr_ok w h)
    case neg =>
      rw [if_neg (show ¬ (WriteOp.str t).fits = true from mt of_decide_eq_true h)]
      exact finish_map_error s _ (wrStr_error w (Nat.not_le.mp h))
  | fstr t n trim =>
    by_cases h : t.length ≤ n
    case pos =>
      rw [if_pos (show (WriteOp.fstr t n trim).fits = true from decide_eq_true h)]
      exact finish_map_ok s _ (wrFstr_ok w h)
    case neg =>
      rw [if_neg (show ¬ (WriteOp.fstr t n trim).fits = true from mt of_decide_eq_true h)]
      exact finish_map_error s _ (wrFstr_error w (Nat.not_le.mp h))
  | _ => rfl

/-- The trim sees through the padding of a field (R165, R205). -/
theorem trimNul_append_padding (t : Bytes) (n : Nat) : trimNul (t ++ zeros n) = trimNul t := by
  induction n with
  | zero => rw [zeros, List.replicate_zero, List.append_nil]
  | succ n ih =>
    rw [zeros, List.replicate_succ', ← List.append_assoc, trimNul, List.rdropWhile_concat_pos (· == 0) _ 0 rfl]
    exact ih

/-- The trim keeps exactly the strings that do not end in 0x00 (R165, R210). -/
theorem trimNul_eq_self_iff (t : Bytes) : trimNul t = t ↔ t.getLast? ≠ some 0 := by
  rw [trimNul, List.rdropWhile_eq_self_iff]
  cases t using List.reverseRecOn with
  | nil => simp
  | append_singleton xs x => simp

/-- A string is read back behind the length it was written with (R163, R204). -/
theorem rdStr_of_wire {r : RdState} {t tail : Bytes} (hlen : t.length ≤ 65535) (hpos : r.pos ≤ r.buf.length)
    (h : r.buf.drop r.pos = bytesLe 2 (BitVec.ofNat 16 t.length) ++ (t ++ tail)) :
    rdStr r = .ok ({ r with pos := r.pos + (2 + t.length) }, t) := by
  have hfield := rdBits_of_drop (k := 2) (bytesLe_length 2 _) (leBits_bytesLe 2 _) hpos h
  have hn : (BitVec.ofNat 16 t.length).toNat = t.length := by
    rw [BitVec.toNat_ofNat, Nat.mod_eq_of_lt (by omega)]
  have hbehind : r.buf.drop (r.pos + 2) = t ++ tail := by
    rw [← List.drop_drop, h, List.drop_left' (bytesLe_length 2 _)]
  have hpos2 : r.pos + 2 ≤ r.buf.length := by
    rw [length_eq_of_drop hpos h, List.length_append, bytesLe_length]
    omega
  simp only [rdStr, hfield, hn]
  rw [rdTake_of_drop rfl hpos2 hbehind, Nat.add_assoc]

/-- The read that matches an operation, at the operation's bytes, returns the value written and moves past them
(R210). -/
theorem exec_readInstr {k : WriteOp} {r : RdState} {tail : Bytes} (hfits : k.fits = true)
    (hpos : r.pos ≤ r.buf.length) (h : r.buf.drop r.pos = k.wire ++ tail) (s : State) :
    exec (k.readInstr r) s =
      finish s (.ok [.rd { r with pos := r.pos + k.wire.length }, k.readValue]) := by
  have hbits {n : Nat} (v : BitVec (8 * n)) (hk : k.wire = bytesLe n v) :
      rdBits n r = .ok ({ r with pos := r.pos + k.wire.length }, v) := by
    rw [hk, bytesLe_length]
    exact rdBits_of_drop (bytesLe_length n v) (leBits_bytesLe n v) hpos (hk ▸ h)
  cases k with
  | i8 v | u8 v => exact finish_map_ok s _ (hbits (n := 1) v rfl)
  | i16 v | u16 v => exact finish_map_ok s _ (hbits (n := 2) v rfl)
  | i32 v | u32 v => exact finish_map_ok s _ (hbits (n := 4) v rfl)
  | i64 v | u64 v => exact finish_map_ok s _ (hbits (n := 8) v rfl)
  | bool v =>
    have hvalue : decide (boolByte v ≠ 0) = v := by cases v <;> rfl
    rw [WriteOp.readInstr, exec_rdBool, finish_map_ok _ _ (rdBool_of_drop h), hvalue]
    rfl
  | bytes b => exact finish_map_ok s _ (rdTake_of_drop rfl hpos h)
  | str t =>
    have hread := rdStr_of_wire (of_decide_eq_true hfits) hpos (h.trans (List.append_assoc ..))
    rw [WriteOp.wire, List.length_append, bytesLe_length]
    exact finish_map_ok s _ hread
  | fstr t n trim =>
    have hlen : t.length ≤ n := of_decide_eq_true hfits
    have hfield : (t ++ zeros (n - t.length)).length = n := by rw [List.length_append, zeros_length]; omega
    have hread := rdFstr_of_drop hfield hpos h trim
    rw [trimNul_append_padding] at hread
    rw [WriteOp.wire, hfield]
    exact finish_map_ok s _ hread

/-! ### Sequences of operations -/

/-- A sequence of writes that all end `Ok` starts with one that passes its check, and goes on from there. -/
theorem runWrites_cons_some {s : State} {w w' : WrState} {k : WriteOp} {ks : List WriteOp}
    (h : runWrites s w (k :: ks) = some w') : k.fits = true ∧ runWrites s (wrPut w k.wire) ks = some w' := by
  rw [runWrites, exec_writeInstr] at h
  by_cases hk : k.fits = true
  case pos =>
    rw [if_pos hk] at h
    exact ⟨hk, h⟩
  case neg =>
    rw [if_neg hk] at h
    cases h

/-- A sequence of writes that all end `Ok` keeps the tag and puts the bytes of its operations one behind the other. -/
theorem runWrites_some {s : State} {w w' : WrState} {ops : List WriteOp} (hpos : w.pos ≤ w.buf.length)
    (h : runWrites s w ops = some w') :
    (∀ k ∈ ops, k.fits = true) ∧ w'.tag = w.tag ∧
      w'.buf.take w'.pos = w.buf.take w.pos ++ ops.flatMap WriteOp.wire := by
  induction ops generalizing w with
  | nil =>
    cases h
    exact ⟨fun k hk => absurd hk List.not_mem_nil, rfl, (List.append_nil _).symm⟩
  | cons k ks ih =>
    obtain ⟨hk, hrest⟩ := runWrites_cons_some h
    obtain ⟨hks, htag, htake⟩ := ih (wrPut_pos_le w k.wire) hrest
    refine ⟨List.forall_mem_cons.mpr ⟨hk, hks⟩, htag, ?_⟩
    rw [htake, wrPut_take_pos _ hpos, List.append_assoc, List.flatMap_cons]

/-- The matching reads over the bytes of operations that pass their checks return the values written, in order. -/
theorem runReads_wire {ops : List WriteOp} {r : RdState} (hfits : ∀ k ∈ ops, k.fits = true)
    (hpos : r.pos ≤ r.buf.length) (h : r.buf.drop r.pos = ops.flatMap WriteOp.wire) (s : State) :
    runReads s r ops = some (ops.map WriteOp.readValue) := by
  induction ops generalizing r with
  | nil => rfl
  | cons k ks ih =>
    obtain ⟨hk, hks⟩ := List.forall_mem_cons.mp hfits
    rw [List.flatMap_cons] at h
    have hlen : r.pos + k.wire.length ≤ r.buf.length := by
      rw [length_eq_of_drop hpos h, List.length_append]
      omega
    have hbehind : r.buf.drop (r.pos + k.wire.length) = ks.flatMap WriteOp.wire := by
      rw [← List.drop_drop, h, List.drop_left]
    have hrest := ih (r := { r with pos := r.pos + k.wire.length }) hks hlen hbehind
    rw [runReads, exec_readInstr hk hpos h, finish_ok]
    exact congrArg (Option.map (k.readValue :: ·)) hrest

/-! ### The header of the wire bytes -/

/-- What stands before the written bytes on the wire: the tag, when the writer has one (R206). -/
def wireHead : Option (BitVec 16) → Bytes
  | none => []
  | some t => bytesLe 2 t

/-- Finalizing a writer drops the reserved bytes before its tag and nothing else (R206). -/
theorem wrToWire_of_take {w : WrState} {body : Bytes} (h : w.buf.take w.pos = writerHead w.tag ++ body) :
    (wrToWire w).2 = wireHead w.tag ++ body := by
  cases htag : w.tag with
  | none => rw [wrToWire_untagged htag, h, htag]; rfl
  | some t =>
    rw [wrToWire_tagged (by rw [htag]; exact Option.some_ne_none t), h, htag]
    rfl

/-- A reader of the matching framing stands behind the header of the wire bytes, and a `StaticHeader` one holds the
writer's tag (R150, R210). -/
theorem rdNew_wire {tag : Option (BitVec 16)} {m : Mode} (hm : tag = none ↔ m = .noHeader) (body : Bytes) :
    ∃ r, rdNew (wireHead tag ++ body) m = .ok r ∧ (m = .staticHeader → r.tag = tag) ∧
      r.pos ≤ r.buf.length ∧ r.buf.drop r.pos = body := by
  cases tag with
  | none =>
    obtain rfl := hm.mp rfl
    exact ⟨_, rdNew_noHeader _, nofun, Nat.zero_le _, rfl⟩
  | some t =>
    obtain ⟨lo, hi, hbytes, hvalue⟩ := bytesLe_two t
    rw [wireHead, hbytes]
    have hlen : 2 ≤ ([lo, hi] ++ body).length := by simp
    cases m with
    | noHeader => exact absurd (hm.mpr rfl) (Option.some_ne_none t)
    | staticHeader =>
      exact ⟨_, rdNew_static lo hi body, fun _ => congrArg some ((leBits_pair lo hi).symm.trans hvalue), hlen, rfl⟩
    | dynamicHeader => exact ⟨_, rdNew_dynamic hlen, nofun, hlen, rfl⟩

/-- Settles O30: the writes leave their bytes behind the writer's head; finalizing turns the head into the reader's
header, and behind that each read meets the bytes of its own write. -/
theorem writerReaderRoundTrip : Obligations.WriterReaderRoundTrip := by
  unfold Obligations.WriterReaderRoundTrip
  refine ⟨trimNul_eq_self_iff, fun s s1 tag size w0 w ops hnew hresp hwrites => ?_⟩
  obtain ⟨_, hq, hq0⟩ := exists_ok_of_finish_map (exec_wrNew tag size s ▸ hnew) hresp
  cases hq0
  obtain ⟨cap, rfl⟩ := exists_cap_of_wrNew hq
  obtain ⟨hfits, htag, htake⟩ := runWrites_some (freshWriter_pos_le cap _) hwrites
  replace htag : w.tag = tag.map (BitVec.ofInt 16) := htag
  rw [freshWriter_take, ← htag] at htake
  have hwire := wrToWire_of_take htake
  refine ⟨_, (wrToWire w).1, (wrToWire w).2, exec_wrTowire w s, rfl, fun m hm => ?_⟩
  have hm' : w.tag = none ↔ m = .noHeader := by
    rw [htag]
    exact Option.map_eq_none_iff.trans hm
  obtain ⟨r, hr, hrtag, hpos, hdrop⟩ := rdNew_wire hm' (ops.flatMap WriteOp.wire)
  rw [hwire]
  refine ⟨_, r, (exec_rdNew _ m s).trans (finish_map_ok s _ hr), rfl, fun hstatic => ?rdTag,
    runReads_wire hfits hpos hdrop s⟩
  case rdTag => rw [exec_rdTag, hrtag hstatic, htag]

end Sys2Proof.Machine
end

section
/-! The session commands that take no byte in: reset, connecting, closing, the frame header and sending, and what
`SES_RECEIVE` checks before it takes a read in (45_session_framer.md R237, R240, R250, R257 to R259, R263). -/

namespace Sys2Proof.Machine

/-! ### The dispatcher and the ends of a session command -/

/-- `SES_CONNECT` ends as the connection does; the endpoint is the host's (R240). -/
theorem exec_sesConnect (endpoint : Bytes) (h : HostConnect) (s : State) :
    exec (.sesConnect endpoint h) s = finishSes s (sesConnect s.ses h) := rfl

/-- `SES_CLOSE` completes from every state (R263). -/
theorem exec_sesClose (s : State) : exec .sesClose s = finishSes s (.done s.ses.teardown [] []) := rfl

/-- `SES_FRAMEHDR` ends as the header of the outbound cipher does (R257). -/
theorem exec_sesFramehdr (buf : Bytes) (n : Nat) (s : State) :
    exec (.sesFramehdr buf n) s = finish s ((frameHeader s.ses.outbound buf n).map fun b => [.bytes b]) := rfl

/-- An end `Ok` that sends nothing leaves the transmit stream as it was. -/
theorem finishSes_done (s : State) (t : SesState) (vs : List Value) :
    finishSes s (.done t vs []) = .next { s with ses := t, response := some (.ok vs) } := by
  rw [finishSes, List.append_nil]
  rfl

/-- A non-fatal error changes nothing but the response (R280 item 1). -/
theorem finishSes_raised (s : State) (e : ErrCode) :
    finishSes s (.raised e) = .next { s with response := some (.err e []) } := rfl

/-- A fatal error that sends nothing tears the session down and leaves the transmit stream as it was (R280 item 2). -/
theorem finishSes_fatal (s : State) (e : ErrCode) (t : SesState) (evs : List Event) :
    finishSes s (.fatal e t evs []) = .next { s with ses := t.teardown, response := some (.err e evs) } := by
  rw [finishSes, List.append_nil]
  rfl

/-! ### Reset, connecting and closing -/

/-- Settles O31: no cell is listed at reset, and both ciphers are `SC_NEW` of the secret. -/
theorem resetSessionState : Obligations.ResetSessionState := by
  unfold Obligations.ResetSessionState
  exact ⟨rfl, rfl, rfl, Memory.read_nil, rfl, rfl⟩

/-- Connecting is refused once connected or closed, whatever the host answers (R240). -/
theorem sesConnect_state {t : SesState} (hm : t.mode ≠ .disconnected) (h : HostConnect) :
    sesConnect t h = .raised .state := if_pos hm

/-- A stream that the host could not open (R240). -/
theorem sesConnect_failed {t : SesState} (hm : t.mode = .disconnected) : sesConnect t .failed = .raised .conn :=
  if_neg (not_not_intro hm)

/-- A stream that the host opened (R240). -/
theorem sesConnect_opened {t : SesState} (hm : t.mode = .disconnected) :
    sesConnect t .opened = .done { t with mode := .connected } [] [] :=
  if_neg (not_not_intro hm)

/-- Settles O32: one check of the mode, then the host's answer. -/
theorem connectFollowsItsRule : Obligations.ConnectFollowsItsRule := by
  unfold Obligations.ConnectFollowsItsRule
  intro s endpoint h
  refine ⟨rfl, fun hm => ?refused, fun hm => ⟨?failed, ?opened⟩⟩
  case refused => rw [exec_sesConnect, sesConnect_state hm, finishSes_raised]
  case failed => rw [exec_sesConnect, sesConnect_failed hm, finishSes_raised]
  case opened => rw [exec_sesConnect, sesConnect_opened hm, finishSes_done]

/-- Settles O33: closing is the teardown and no more. -/
theorem closeTearsDown : Obligations.CloseTearsDown := by
  unfold Obligations.CloseTearsDown
  intro s
  refine ⟨rfl, ?_⟩
  rw [exec_sesClose, finishSes_done]
  rfl

/-! ### The frame header -/

/-- The two bytes of a 16-bit value, the low one first (R13). -/
theorem bytesLe_two_eq (w : BitVec 16) : bytesLe 2 w = [w.extractLsb' 0 8, w.extractLsb' 8 8] :=
  bytesLe_eq_map 2 w

/-- A 16-bit value read from two bytes has the second one above the first (R13). -/
theorem le16_eq_append (b0 b1 : Byte) : le16 b0 b1 = b1 ++ b0 := leBits_pair b0 b1

/-- The header, byte by byte: the version against the vector's high half, and that against the length (R257). -/
theorem headerBytes_eq {g w0 w1 : BitVec 16} {b : BytesN 4} {n : Nat} (h0 : w0 = g ^^^ (b[3] ++ b[2]))
    (h1 : w1 = w0 ^^^ BitVec.ofNat 16 n) :
    headerBytes g b n = [w0.extractLsb' 0 8, w0.extractLsb' 8 8, w1.extractLsb' 0 8, w1.extractLsb' 8 8] := by
  have hw0 : headerWord0 g b = w0 := by rw [headerWord0, le16_eq_append, h0]
  rw [headerBytes, hw0, ← h1, bytesLe_two_eq, bytesLe_two_eq]
  rfl

/-- Before the handshake there is no header, whatever the buffer and the length (R257). -/
theorem frameHeader_uninit {c : ScState} (hi : c.initialized = false) (buf : Bytes) (n : Nat) :
    frameHeader c buf n = .error .uninit := if_pos hi

/-- A header that the buffer or the length rules out (R257). -/
theorem frameHeader_bounds {c : ScState} (hi : c.initialized = true) {buf : Bytes} {n : Nat}
    (h : buf.length < 4 ∨ n < 4 ∨ 0xFFFF < n - 4) : frameHeader c buf n = .error .bounds := by
  rw [frameHeader, if_neg (by simp [hi])]
  exact if_pos h

/-- Settles O35: the three answers of the header. -/
theorem frameHeaderFollowsItsRule : Obligations.FrameHeaderFollowsItsRule := by
  unfold Obligations.FrameHeaderFollowsItsRule
  intro s buf n
  refine ⟨rfl, fun hi => ?uninit, fun hi h => ?bounds, fun g w0 w1 b hi hg hv hbuf h4 hn h0 h1 => ?header⟩
  case uninit => rw [exec_sesFramehdr, finish_map_error _ _ (frameHeader_uninit hi buf n)]
  case bounds => rw [exec_sesFramehdr, finish_map_error _ _ (frameHeader_bounds hi h)]
  case header =>
    rw [exec_sesFramehdr, finish_map_ok _ _ (frameHeader_eq hi hg hv hbuf h4 hn), headerBytes_eq h0 h1]

/-! ### Sending -/

/-- Nothing is sent outside `Connected` (R259). -/
theorem sesSend_notConnected (p : Params) {t : SesState} (hm : t.mode ≠ .connected) (w : WrState) (h : HostWrite) :
    sesSend p t w h = .raised .state := if_pos hm

/-- An untagged writer has no room for a header (R259). -/
theorem sesSend_untagged (p : Params) {t : SesState} {w : WrState} (hm : t.mode = .connected) (htag : w.tag = none)
    (h : HostWrite) : sesSend p t w h = .raised .state := by
  rw [sesSend, if_neg (not_not_intro hm), if_pos htag]

/-- Nothing is sent before the handshake (R259). -/
theorem sesSend_uninit (p : Params) {t : SesState} {w : WrState} (hm : t.mode = .connected) (htag : w.tag ≠ none)
    (hi : t.outbound.initialized = false) (h : HostWrite) : sesSend p t w h = .raised .uninit := by
  rw [sesSend, if_neg (not_not_intro hm), if_neg htag, if_pos hi]

/-- A payload that a header cannot count is not sent (R259). -/
theorem sesSend_bounds (p : Params) {t : SesState} {w : WrState} (hw : wrOk w = true) (hm : t.mode = .connected)
    (htag : w.tag ≠ none) (hi : t.outbound.initialized = true) (hlong : 0xFFFF < w.pos - 4) (h : HostWrite) :
    sesSend p t w h = .raised .bounds := by
  have hlen : (frameOf w).length = w.pos := List.length_take_of_le ((wrOk_iff w).mp hw).1
  rw [sesSend, if_neg (not_not_intro hm), if_neg htag, if_neg (by simp [hi]), hlen]
  exact if_pos hlong

/-- The host's answer decides only what follows the encryption: a socket that fails after `k` bytes has the first `k`
of the frame it would have accepted, and the session is torn down with the cipher as the encryption left it (R259). -/
theorem sesSend_failedAfter {p : Params} {t t' : SesState} {w : WrState} {vs : List Value} {frame : Bytes}
    (h : sesSend p t w .allAccepted = .done t' vs frame) (k : Nat) :
    sesSend p t w (.failedAfter k) = .fatal .conn t' [] (frame.take k) := by
  unfold sesSend at h ⊢
  split at h
  · cases h
  split at h
  · cases h
  split at h
  · cases h
  split at h
  · cases h
  rename_i hm htag hi hlong
  rw [if_neg hm, if_neg htag, if_neg hi, if_neg hlong]
  split at h
  · cases h
  split at h
  · cases h
  cases h
  rfl

/-- The bytes of the frame past its header: those of the writer under the keystream (R258, R259). -/
theorem sentFrame_getElem? (p : Params) (key : BytesN 32) (g : BitVec 16) (b : BytesN 4) {w : WrState}
    (hw : wrOk w = true) {q : Nat} {x : Byte} (hq : 4 + q < w.pos) (hx : w.buf[4 + q]? = some x) :
    (sentFrame p key g b w)[4 + q]? = some (x ^^^ keystream p key b q) := by
  have hpayload : (sentPayload w)[q]? = some x := by
    rw [sentPayload, List.getElem?_drop, List.getElem?_take_of_lt hq, hx]
  rw [sentFrame, List.getElem?_append_right (by simp), headerBytes_length, Nat.add_sub_cancel_left,
    ← sentPayload_length hw]
  exact cryptRange_getElem?_of_getElem? p key b hpayload

/-- Settles O36: the checks in order; past them the frame is `sentFrame`, whatever the host answers. -/
theorem sendFollowsItsRule : Obligations.SendFollowsItsRule := by
  unfold Obligations.SendFollowsItsRule
  intro s w h hw
  refine ⟨rfl, fun hm => ?mode, fun hm htag => ?untagged, fun hm htag hi => ?uninit,
    fun hm htag hi hlong => ?bounds, fun g w0 w1 b hm htag hi hg hv hn h0 h1 => ?sent⟩
  case mode => rw [exec_sesSend, sendUnder, sesSend_notConnected _ hm, finishSes_raised]
  case untagged => rw [exec_sesSend, sendUnder, sesSend_untagged _ hm htag, finishSes_raised]
  case uninit => rw [exec_sesSend, sendUnder, sesSend_uninit _ hm htag hi, finishSes_raised]
  case bounds => rw [exec_sesSend, sendUnder, sesSend_bounds _ hw hm htag hi hlong, finishSes_raised]
  case sent =>
    obtain ⟨tag, ht⟩ := Option.ne_none_iff_exists'.mp htag
    have h6 := (((wrOk_iff w).mp hw).2 tag ht).1
    have hsend := sesSend_accepted (p := Config.params) hw htag hn hm hi hg hv
    refine ⟨sentFrame Config.params s.ses.outbound.bt.key g b w, ?length, ?header,
      fun q x hq hx => sentFrame_getElem? _ _ _ _ hw hq hx, ?accepted, fun k => ?failed⟩
    case length =>
      rw [sentFrame, List.length_append, headerBytes_length,
        cryptRange_length _ _ _ _ _ _ (sentPayload_length hw).le, sentPayload_length hw]
      omega
    case header => rw [sentFrame, List.take_left' (headerBytes_length g b _), headerBytes_eq h0 h1]
    case accepted => rw [exec_sesSend, sendUnder, hsend]; rfl
    case failed => rw [exec_sesSend, sendUnder, sesSend_failedAfter hsend k]; rfl

/-! ### What `SES_RECEIVE` checks -/

/-- Nothing is received outside `Connected` (R250). -/
theorem sesReceive_notConnected (p : Params) {t : SesState} (hm : t.mode ≠ .connected) (h : HostRead) :
    sesReceive p t h = .raised .state := if_pos hm

/-- A failed read is fatal (R250, R276). -/
theorem sesReceive_failed (p : Params) {t : SesState} (hm : t.mode = .connected) :
    sesReceive p t .failed = .fatal .conn t [] [] := if_neg (not_not_intro hm)

/-- A read longer than the free space is refused (R250, R282). -/
theorem sesReceive_tooLong {p : Params} {t : SesState} {d : Bytes} (hm : t.mode = .connected)
    (hd : p.recvCapacity - t.fill < d.length) : sesReceive p t (.data d) = .raised .illegal := by
  rw [sesReceive, if_neg (not_not_intro hm)]
  exact if_pos hd

/-- An empty read changes nothing (R250). -/
theorem sesReceive_nil (p : Params) {t : SesState} (hm : t.mode = .connected) :
    sesReceive p t (.data []) = .done t [.events []] [] := by
  rw [sesReceive, if_neg (not_not_intro hm)]
  exact (if_neg (Nat.not_lt_zero _)).trans (if_pos rfl)

/-- Settles O37: the four answers that come before any byte is taken in. -/
theorem receiveChecksAndEmptyRead : Obligations.ReceiveChecksAndEmptyRead := by
  unfold Obligations.ReceiveChecksAndEmptyRead
  intro s h d
  refine ⟨rfl, fun hm => ?mode, fun hm => ⟨?failed, ?empty, fun hd => ?tooLong⟩⟩
  case mode => rw [exec_sesReceive, receiveUnder, sesReceive_notConnected _ hm, finishSes_raised]
  case failed => rw [exec_sesReceive, receiveUnder, sesReceive_failed _ hm, finishSes_fatal]; rfl
  case empty => rw [exec_sesReceive, receiveUnder, sesReceive_nil _ hm, finishSes_done]
  case tooLong => rw [exec_sesReceive, receiveUnder, sesReceive_tooLong hm hd, finishSes_raised]

end Sys2Proof.Machine
end

section
/-! The sub-version's value (45_session_framer.md R247). -/

namespace Sys2Proof.Machine

/-- The byte of a decimal digit (R247). -/
theorem toNat_digitByte {d : Nat} (hd : d < 10) : (BitVec.ofNat 8 (0x30 + d)).toNat = 0x30 + d := by
  rw [BitVec.toNat_ofNat, Nat.mod_eq_of_lt (by omega)]

theorem isDigit_digitByte {d : Nat} (hd : d < 10) : isDigit (BitVec.ofNat 8 (0x30 + d)) = true := by
  rw [isDigit, toNat_digitByte hd]
  exact decide_eq_true (by omega)

theorem isDigit_eq_false {b : Byte} (hb : b.toNat < 0x30 ∨ 0x39 < b.toNat) : isDigit b = false :=
  decide_eq_false (by omega)

/-- One more digit at the end multiplies the value by ten (R247). -/
theorem decimalValue_concat (x : Bytes) (b : Byte) :
    decimalValue (x ++ [b]) = 10 * decimalValue x + (b.toNat - 0x30) := by
  rw [decimalValue, List.foldl_append]
  rfl

/-- The value of the digits' bytes is the number with those digits, the last one least significant (R247). -/
theorem decimalValue_digits {ds : List Nat} (hds : ∀ d ∈ ds, d < 10) :
    decimalValue (ds.map fun d => BitVec.ofNat 8 (0x30 + d)) = Nat.ofDigits 10 ds.reverse := by
  induction ds using List.reverseRecOn with
  | nil => rfl
  | append_singleton ds d ih =>
    have hd : d < 10 := hds d (by simp)
    rw [List.map_append, List.map_singleton, decimalValue_concat, toNat_digitByte hd,
      ih fun e he => hds e (List.mem_append_left _ he), List.reverse_append, List.reverse_singleton,
      List.singleton_append, Nat.ofDigits_cons]
    omega

/-- Settles O40: the digits fold into their number; a byte that is no digit, or no byte at all, fails the check. -/
theorem subversionValueIsDecimal : Obligations.SubversionValueIsDecimal := by
  unfold Obligations.SubversionValueIsDecimal
  refine ⟨fun ds hne hds => ?digits, fun x y b hb => ?other, rfl⟩
  case digits =>
    have hall : (ds.map fun d => BitVec.ofNat 8 (0x30 + d)).all isDigit = true := by
      simp only [List.all_map, List.all_eq_true, Function.comp_apply]
      exact fun d hd => isDigit_digitByte (hds d hd)
    rw [subversionValue, if_pos ⟨mt List.map_eq_nil_iff.mp hne, hall⟩, decimalValue_digits hds]
  case other =>
    refine if_neg fun ⟨_, hall⟩ => ?_
    have hdigit := List.all_eq_true.mp hall b (by simp)
    rw [isDigit_eq_false hb] at hdigit
    cases hdigit

end Sys2Proof.Machine
end

section
/-! What one read gives a session with nothing waiting: a handshake, whole, partial or malformed, and a frame, whole or
of a bad length (45_session_framer.md R245 to R253). -/

namespace Sys2Proof.Machine

/-- The session with a read stored behind the bytes it holds (R250). -/
def SesState.storeRead (t : SesState) (d : Bytes) : SesState := { t with rx := t.rx.store t.fill d }

@[simp] theorem SesState.storeRead_mode (t : SesState) (d : Bytes) : (t.storeRead d).mode = t.mode := rfl
@[simp] theorem SesState.storeRead_handshaken (t : SesState) (d : Bytes) :
    (t.storeRead d).handshaken = t.handshaken := rfl
@[simp] theorem SesState.storeRead_rx (t : SesState) (d : Bytes) :
    (t.storeRead d).rx = t.rx.store t.fill d := rfl
@[simp] theorem SesState.storeRead_fill (t : SesState) (d : Bytes) : (t.storeRead d).fill = t.fill := rfl
@[simp] theorem SesState.storeRead_outbound (t : SesState) (d : Bytes) :
    (t.storeRead d).outbound = t.outbound := rfl
@[simp] theorem SesState.storeRead_inbound (t : SesState) (d : Bytes) : (t.storeRead d).inbound = t.inbound := rfl

/-- The first read of a session with nothing waiting is all that the extraction runs on (R250). -/
theorem sesReceive_first {p : Params} {t : SesState} {d : Bytes} (hm : t.mode = .connected) (hf : t.fill = 0)
    (hd : d ≠ []) (hc : d.length ≤ p.recvCapacity) :
    sesReceive p t (.data d) = receiveBytes p (t.storeRead d) d :=
  sesReceive_data (old := []) hm hf.symm (by simp) hd (by simpa using hc)

/-! ### Frames -/

/-- The payload length that a frame header gives, with the second byte of each word above its first (R71, R251). -/
theorem frameLength_eq (b0 b1 b2 b3 : Byte) : frameLength b0 b1 b2 b3 = ((b1 ++ b0) ^^^ (b3 ++ b2)).toNat := by
  rw [frameLength, le16_eq_append, le16_eq_append]

/-- On a handshaken session the extraction is that of frames (R250). -/
theorem receiveBytes_handshaken (p : Params) {t : SesState} (hh : t.handshaken = true) (data : Bytes) :
    receiveBytes p t data = receiveFrames p t [] data := if_pos hh

/-- A bad frame length at the head ends fatally with the inbound cipher as it was (R251). -/
theorem receiveFrames_badLength {p : Params} (t : SesState) (evs : List Event) {b0 b1 b2 b3 : Byte} (tail : Bytes)
    (h : frameLength b0 b1 b2 b3 < 2 ∨ p.recvCapacity < 4 + frameLength b0 b1 b2 b3) :
    receiveFrames p t evs (b0 :: b1 :: b2 :: b3 :: tail) = .fatal .framing t evs [] := by
  simp only [receiveFrames, List.length_cons, frameLoop_badLength p _ t.inbound b0 b1 b2 b3 tail h, List.append_nil]

/-- Settles O44: the loop stops at the first header. -/
theorem badFrameLengthIsFatal : Obligations.BadFrameLengthIsFatal := by
  unfold Obligations.BadFrameLengthIsFatal
  intro p s b0 b1 b2 b3 tail hm hh hf hc hbad
  rw [← frameLength_eq] at hbad
  rw [receiveUnder, sesReceive_first hm hf (by simp) (by simp only [List.length_cons]; omega),
    receiveBytes_handshaken p (t := s.ses.storeRead _) hh, receiveFrames_badLength _ _ _ hbad, finishSes_fatal]
  rfl

/-- Settles O38: the frame's bytes are decrypted with the keystream, and nothing of them remains. -/
theorem wholeFrameGivesOnePacket : Obligations.WholeFrameGivesOnePacket := by
  unfold Obligations.WholeFrameGivesOnePacket
  intro s b0 b1 b2 b3 payload v hm hh hf hi hv hl h2 hc
  rw [← frameLength_eq] at hl
  refine ⟨_, cryptRange_length _ _ _ _ _ _ le_rfl, fun q x hx => cryptRange_getElem?_of_getElem? _ _ _ hx, ?_⟩
  rw [exec_sesReceive, receiveUnder, sesReceive_wholeFrame hm hh hf hi hv hl.symm h2 hc, finishSes_done]

/-! ### The handshake -/

/-- Before the handshake, a single byte waits (R248). -/
theorem receiveBytes_one (p : Params) {t : SesState} (hh : t.handshaken = false) (l0 : Byte) :
    receiveBytes p t [l0] = .done { t with fill := 1 } [.events []] [] := by
  simp [receiveBytes, hh]

/-- A handshake that can never fit is fatal as soon as its length is there (R248). -/
theorem receiveBytes_tooLong {p : Params} {t : SesState} (hh : t.handshaken = false) {l0 l1 : Byte}
    (hc : p.recvCapacity < 2 + (le16 l0 l1).toNat) (rest : Bytes) :
    receiveBytes p t (l0 :: l1 :: rest) = .fatal .framing t [] [] := by
  rw [receiveBytes, if_neg (by simp [hh])]
  exact if_pos hc

/-- A handshake that is not yet whole waits (R248). -/
theorem receiveBytes_partial {p : Params} {t : SesState} (hh : t.handshaken = false) {l0 l1 : Byte} {rest : Bytes}
    (hc : 2 + (le16 l0 l1).toNat ≤ p.recvCapacity) (hl : rest.length < (le16 l0 l1).toNat) :
    receiveBytes p t (l0 :: l1 :: rest) = .done { t with fill := rest.length + 2 } [.events []] [] := by
  rw [receiveBytes, if_neg (by simp [hh])]
  exact (if_neg (Nat.not_lt.mpr hc)).trans (if_pos hl)

/-- A whole handshake whose fields do not fit its packet is fatal, whatever follows it (R245, R250). -/
theorem receiveBytes_malformed {p : Params} {t : SesState} (hh : t.handshaken = false) {l0 l1 : Byte}
    {packet : Bytes} (hl : (le16 l0 l1).toNat = packet.length) (hc : 2 + packet.length ≤ p.recvCapacity)
    {e : ErrCode} (hp : parseHandshake packet = .error e) (tail : Bytes) :
    receiveBytes p t (l0 :: l1 :: (packet ++ tail)) = .fatal .handshake t [] [] := by
  rw [receiveBytes, if_neg (by simp [hh])]
  simp only [hl, if_neg (Nat.not_lt.mpr hc), hp, List.take_left, List.length_append,
    show ¬ packet.length + tail.length < packet.length by omega, if_false]

/-- A whole handshake seeds both ciphers, and the extraction goes on with the frames behind it (R246, R250). -/
theorem receiveBytes_handshake {p : Params} {t : SesState} (hh : t.handshaken = false) {l0 l1 : Byte}
    {packet : Bytes} (hl : (le16 l0 l1).toNat = packet.length) (hc : 2 + packet.length ≤ p.recvCapacity)
    {f : HsFields} (hp : parseHandshake packet = .ok f) (tail : Bytes) :
    receiveBytes p t (l0 :: l1 :: (packet ++ tail)) = receiveFrames p (commitHandshake t f) [hsEvent f] tail := by
  rw [receiveBytes, if_neg (by simp [hh])]
  simp only [hl, if_neg (Nat.not_lt.mpr hc), hp, List.take_left, List.drop_left, List.length_append,
    show ¬ packet.length + tail.length < packet.length by omega, if_false]

/-- Settles O43: the length, once its two bytes are there, decides which of the two it is. -/
theorem handshakeWaitsOrIsTooLong : Obligations.HandshakeWaitsOrIsTooLong := by
  unfold Obligations.HandshakeWaitsOrIsTooLong
  intro p s l0 l1 tail hm hh hf
  have hcap := p.capacity_ge
  rw [← le16_eq_append]
  refine ⟨?one, fun htail => ?_⟩
  case one =>
    rw [receiveUnder, sesReceive_first hm hf (by simp) (by rw [List.length_singleton]; omega),
      receiveBytes_one p (t := s.ses.storeRead _) hh, finishSes_done, SesState.storeRead, hf]
  have hfirst := sesReceive_first (p := p) (d := l0 :: l1 :: tail) hm hf (by simp)
    (by simp only [List.length_cons]; omega)
  refine ⟨fun hc hl => ?waits, fun hc => ?tooLong⟩
  case waits =>
    rw [receiveUnder, hfirst, receiveBytes_partial (t := s.ses.storeRead _) hh hc hl, finishSes_done,
      SesState.storeRead, hf, Nat.add_comm tail.length 2]
  case tooLong =>
    rw [receiveUnder, hfirst, receiveBytes_tooLong (t := s.ses.storeRead _) hh hc, finishSes_fatal]
    rfl

/-- On the wire a packet follows the two bytes that count it (R248). -/
theorem handshakeRead_eq {packet : Bytes} (hlen : packet.length ≤ 0xFFFF) (tail : Bytes) :
    ∃ l0 l1, bytesLe 2 (BitVec.ofNat 16 packet.length) ++ packet ++ tail = l0 :: l1 :: (packet ++ tail) ∧
      (le16 l0 l1).toNat = packet.length := by
  obtain ⟨l0, l1, hbytes, hvalue⟩ := bytesLe_two (BitVec.ofNat 16 packet.length)
  refine ⟨l0, l1, by rw [hbytes]; rfl, ?_⟩
  rw [hvalue, BitVec.toNat_ofNat, Nat.mod_eq_of_lt (by omega)]

/-- A handshake in one read is what the extraction runs on, whatever follows it in the read (R248, R250). -/
theorem sesReceive_handshakeRead {p : Params} {t : SesState} {packet tail : Bytes} (hm : t.mode = .connected)
    (hf : t.fill = 0) (hlen : packet.length ≤ 0xFFFF) (hc : 2 + packet.length + tail.length ≤ p.recvCapacity) :
    ∃ l0 l1 u, (le16 l0 l1).toNat = packet.length ∧ (∃ rx, u = { t with rx := rx }) ∧
      sesReceive p t (.data (bytesLe 2 (BitVec.ofNat 16 packet.length) ++ packet ++ tail)) =
        receiveBytes p u (l0 :: l1 :: (packet ++ tail)) := by
  obtain ⟨l0, l1, hread, hl⟩ := handshakeRead_eq hlen tail
  refine ⟨l0, l1, t.storeRead (l0 :: l1 :: (packet ++ tail)), hl, ⟨_, rfl⟩, ?_⟩
  rw [hread, sesReceive_first hm hf (by simp) (by simp only [List.length_cons, List.length_append]; omega)]

/-- A handshake in one read ends fatally, with neither cipher seeded, when its packet does not parse (R245, R250). -/
theorem sesReceive_malformed {p : Params} {t : SesState} {packet tail : Bytes} {e : ErrCode}
    (hm : t.mode = .connected) (hh : t.handshaken = false) (hf : t.fill = 0) (hlen : packet.length ≤ 0xFFFF)
    (hc : 2 + packet.length + tail.length ≤ p.recvCapacity) (hp : parseHandshake packet = .error e) :
    ∃ rx, sesReceive p t (.data (bytesLe 2 (BitVec.ofNat 16 packet.length) ++ packet ++ tail)) =
      .fatal .handshake { t with rx := rx } [] [] := by
  obtain ⟨l0, l1, u, hl, ⟨rx, rfl⟩, hrun⟩ := sesReceive_handshakeRead hm hf hlen hc
  exact ⟨rx, hrun.trans (receiveBytes_malformed (t := { t with rx := rx }) hh hl (by omega) hp tail)⟩

/-- A handshake in one read seeds both ciphers when its packet parses, and the extraction goes on with the frames
behind it (R246, R250). -/
theorem sesReceive_handshake {p : Params} {t : SesState} {packet tail : Bytes} {f : HsFields}
    (hm : t.mode = .connected) (hh : t.handshaken = false) (hf : t.fill = 0) (hlen : packet.length ≤ 0xFFFF)
    (hc : 2 + packet.length + tail.length ≤ p.recvCapacity) (hp : parseHandshake packet = .ok f) :
    ∃ rx, sesReceive p t (.data (bytesLe 2 (BitVec.ofNat 16 packet.length) ++ packet ++ tail)) =
      receiveFrames p (commitHandshake { t with rx := rx } f) [hsEvent f] tail := by
  obtain ⟨l0, l1, u, hl, ⟨rx, rfl⟩, hrun⟩ := sesReceive_handshakeRead hm hf hlen hc
  exact ⟨rx, hrun.trans (receiveBytes_handshake (t := { t with rx := rx }) hh hl (by omega) hp tail)⟩

/-- A packet whose fields do not fit in its bytes does not parse (R245). -/
theorem parseHandshake_error {packet : Bytes}
    (h : packet.length < 4 ∨ ∃ (v0 v1 n0 n1 : Byte) (fields : Bytes), packet = v0 :: v1 :: n0 :: n1 :: fields ∧
      (fields.length < (n1 ++ n0).toNat + 4 + 4 + 1 ∨
       15 ≤ packet.length ∧ fields.length < (n1 ++ n0).toNat + 4 + 4 + 1 + 1)) :
    parseHandshake packet = .error .bounds := by
  rw [parseHandshake_eq packet rfl]
  refine if_neg fun ⟨h4, hfields, hcontext⟩ => ?_
  rcases h with hshort | ⟨v0, v1, n0, n1, fields, rfl, hfit⟩
  · omega
  · have hn : leBits 16 (memRead (v0 :: v1 :: n0 :: n1 :: fields) 2 2) = n1 ++ n0 := leBits_pair n0 n1
    rw [hn] at hfields hcontext
    simp only [List.length_cons] at hfields hcontext hfit
    omega

/-- Settles O42: such a packet does not parse. -/
theorem malformedHandshakeIsFatal : Obligations.MalformedHandshakeIsFatal := by
  unfold Obligations.MalformedHandshakeIsFatal
  intro p s packet tail hm hh hf hlen hc hbad
  obtain ⟨rx, hend⟩ := sesReceive_malformed hm hh hf hlen hc (parseHandshake_error hbad)
  rw [receiveUnder, hend, finishSes_fatal]
  rfl

/-- The bytes that stand behind `a` others at the front of a buffer are read at `a` (R15). -/
theorem memRead_of_front {x y buf : Bytes} {a n : Nat} (h : x ++ y <+: buf) (ha : x.length = a) (hn : y.length = n) :
    memRead buf a n = y := by
  obtain ⟨z, rfl⟩ := h
  rw [memRead, List.append_assoc, List.drop_left' ha, List.take_left' hn]

/-- The front of a handshake's packet: the version, and the sub-version behind its length (R245). -/
def handshakeFront (version : BitVec 16) (sub : Bytes) : Bytes :=
  bytesLe 2 version ++ bytesLe 2 (BitVec.ofNat 16 sub.length) ++ sub

theorem handshakeFront_length (version : BitVec 16) (sub : Bytes) :
    (handshakeFront version sub).length = 4 + sub.length := by
  simp only [handshakeFront, List.length_append, bytesLe_length]

/-- The packet of a handshake with these fields, and `extra` behind the locale (R245). -/
def handshakePacket (version : BitVec 16) (sub : Bytes) (lv rv : BitVec 32) (locale : Byte) (extra : Bytes) : Bytes :=
  handshakeFront version sub ++ bytesLe 4 lv ++ bytesLe 4 rv ++ [locale] ++ extra

theorem handshakePacket_length (version : BitVec 16) (sub : Bytes) (lv rv : BitVec 32) (locale : Byte)
    (extra : Bytes) : (handshakePacket version sub lv rv locale extra).length = 4 + sub.length + 9 + extra.length := by
  simp only [handshakePacket, handshakeFront_length, List.length_append, bytesLe_length, List.length_singleton]

section
variable (version : BitVec 16) (sub : Bytes) (lv rv : BitVec 32) (locale : Byte) (extra : Bytes)

/-- Where the fields of a handshake stand in its packet (R245). -/
theorem handshakePacket_fields :
    memRead (handshakePacket version sub lv rv locale extra) 0 2 = bytesLe 2 version ∧
    memRead (handshakePacket version sub lv rv locale extra) 2 2 = bytesLe 2 (BitVec.ofNat 16 sub.length) ∧
    memRead (handshakePacket version sub lv rv locale extra) 4 sub.length = sub ∧
    memRead (handshakePacket version sub lv rv locale extra) (4 + sub.length) 4 = bytesLe 4 lv ∧
    memRead (handshakePacket version sub lv rv locale extra) (4 + sub.length + 4) 4 = bytesLe 4 rv ∧
    memRead (handshakePacket version sub lv rv locale extra) (4 + sub.length + 8) 1 = [locale] := by
  have hfront := handshakeFront_length version sub
  refine ⟨memRead_of_front (x := []) ?_ rfl (by simp), memRead_of_front (x := bytesLe 2 version) ?_ (by simp) (by simp),
    memRead_of_front (x := bytesLe 2 version ++ bytesLe 2 (BitVec.ofNat 16 sub.length)) ?_ (by simp) rfl,
    memRead_of_front (x := handshakeFront version sub) ?_ hfront (by simp),
    memRead_of_front (x := handshakeFront version sub ++ bytesLe 4 lv) ?_ (by simp [hfront]) (by simp),
    memRead_of_front (x := handshakeFront version sub ++ bytesLe 4 lv ++ bytesLe 4 rv) ?_ (by simp [hfront]) rfl⟩
  all_goals simp [handshakePacket, handshakeFront]

/-- The sub-version's length in the packet of a handshake (R245). -/
theorem handshakePacket_subLength (hsub : sub.length ≤ 0xFFFF) :
    sub.length = (leBits 16 (memRead (handshakePacket version sub lv rv locale extra) 2 2)).toNat := by
  obtain ⟨-, hlength, -⟩ := handshakePacket_fields version sub lv rv locale extra
  rw [hlength, leBits_bytesLe 2, BitVec.toNat_ofNat, Nat.mod_eq_of_lt (by omega)]

/-- The context byte of a packet that has one (R245). -/
theorem handshakePacket_context (x : Byte) :
    memRead (handshakePacket version sub lv rv locale (x :: extra)) (4 + sub.length + 9) 1 = [x] :=
  memRead_of_front (x := handshakePacket version sub lv rv locale []) (by simp [handshakePacket])
    (handshakePacket_length version sub lv rv locale []) rfl

end

/-- The packet of a handshake parses to its fields; behind the locale it needs a byte exactly from a length of 15 on
(R245). -/
theorem parseHandshake_packet (version : BitVec 16) {sub : Bytes} (lv rv : BitVec 32) (locale : Byte) {extra : Bytes}
    (hsub : sub.length ≤ 0xFFFF) (hfit : 4 + sub.length + 9 + extra.length < 15 ∨ extra ≠ []) :
    parseHandshake (handshakePacket version sub lv rv locale extra) =
      .ok ⟨version, sub, lv, rv, locale, if 4 + sub.length + 9 + extra.length < 15 then none else extra.head?⟩ := by
  obtain ⟨hversion, -, hsubversion, hlv, hrv, hlocale⟩ := handshakePacket_fields version sub lv rv locale extra
  rw [parseHandshake_eq _ (handshakePacket_subLength version sub lv rv locale extra hsub), handshakePacket_length,
    hversion, hsubversion, hlv, hrv, hlocale, leBits_bytesLe 2, leBits_bytesLe 4, leBits_bytesLe 4, leBits_singleton]
  cases extra with
  | nil =>
    have hshort := hfit.resolve_right (not_not_intro rfl)
    rw [if_pos ⟨by omega, by omega, fun h => absurd h (Nat.not_le.mpr hshort)⟩, if_neg (Nat.not_le.mpr hshort),
      if_pos hshort]
  | cons x rest =>
    rw [List.length_cons, if_pos ⟨by omega, by omega, fun _ => by omega⟩, handshakePacket_context, leBits_singleton,
      List.head?_cons, ← ite_not]
    simp only [Nat.not_le]

/-- A packet of 15 bytes or more that ends with the locale does not parse (R245). -/
theorem parseHandshake_noContext (version : BitVec 16) {sub : Bytes} (lv rv : BitVec 32) (locale : Byte)
    (hsub : sub.length ≤ 0xFFFF) (h15 : 15 ≤ 4 + sub.length + 9) :
    parseHandshake (handshakePacket version sub lv rv locale []) = .error .bounds := by
  rw [parseHandshake_eq _ (handshakePacket_subLength version sub lv rv locale [] hsub), handshakePacket_length]
  refine if_neg fun ⟨_, _, hcontext⟩ => ?_
  simp only [List.length_nil] at hcontext
  omega

/-- Settles O41: the packet parses to its fields, or lacks the context byte. -/
theorem handshakeSeedsBothCiphers : Obligations.HandshakeSeedsBothCiphers := by
  unfold Obligations.HandshakeSeedsBothCiphers
  intro p s version sub extra packet lv rv locale hm hh hf hpacket hlen hc
  obtain rfl : packet = handshakePacket version sub lv rv locale extra := hpacket
  have hlength := handshakePacket_length version sub lv rv locale extra
  have hsub : sub.length ≤ 0xFFFF := by omega
  refine ⟨fun hfit => ?seeds, fun h15 hextra => ?noContext⟩
  case seeds =>
    rw [hlength] at hfit
    obtain ⟨rx, hend⟩ := sesReceive_handshake (tail := []) hm hh hf hlen (by simpa using hc)
      (parseHandshake_packet version lv rv locale hsub hfit)
    rw [List.append_nil] at hend
    rw [receiveUnder, hend, hlength]
    exact finishSes_done _ _ _
  case noContext =>
    subst hextra
    obtain ⟨rx, hend⟩ := sesReceive_malformed (tail := []) hm hh hf hlen (by simpa using hc)
      (parseHandshake_noContext version lv rv locale hsub (hlength ▸ h15))
    rw [List.append_nil] at hend
    rw [receiveUnder, hend, finishSes_fatal]
    rfl

end Sys2Proof.Machine
end

section
/-! Reads in a row and one read of all their bytes (45_session_framer.md R250, R253, R254; 60_exceptions.md R280): how
an end continues after an earlier read, first for the frames, then with the handshake before them, then for
`SES_RECEIVE`. -/

namespace Sys2Proof.Machine

/-! ### The bytes a session holds -/

/-- The session holds exactly these bytes, received and not yet framed (R250). -/
structure SesState.Holds (t : SesState) (held : Bytes) : Prop where
  length : held.length = t.fill
  read : ∀ i (hi : i < held.length), t.rx.read i = some held[i]

/-- The cells from 0 on that hold a value hold some bytes (R33 item 2). -/
theorem SesInv.exists_holds {p : Params} {t : SesState} (ht : SesInv p t) : ∃ held, t.Holds held := by
  have hfill := ht.fill_lt
  obtain ⟨held, -, hl, hr⟩ := rxLoad_ok (capacity := p.recvCapacity) (m := t.rx) (a := 0) (n := t.fill)
    (by omega) (fun i _ hi => ht.rx_some i (by omega))
  exact ⟨held, hl, by simpa using hr⟩

theorem holds_nil {t : SesState} (hf : t.fill = 0) : t.Holds [] := ⟨hf.symm, nofun⟩

/-- A read stored behind the bytes held is held with them (R250). -/
theorem SesState.Holds.storeRead {t : SesState} {held : Bytes} (h : t.Holds held) (d : Bytes) :
    ({ t.storeRead d with fill := (held ++ d).length } : SesState).Holds (held ++ d) := by
  refine ⟨rfl, fun i hi => ?_⟩
  have hlen := h.length
  rw [List.length_append] at hi
  simp only [SesState.storeRead_rx]
  by_cases hold : i < held.length
  case pos => rw [Memory.read_store_outside _ _ _ (.inl (by omega)), h.read i hold, List.getElem_append_left]
  case neg =>
    have hread := Memory.read_store_inside t.rx t.fill d (i := i - held.length) (by omega)
    rw [show t.fill + (i - held.length) = i by omega] at hread
    rw [hread, List.getElem_append_right (by omega)]

/-- After a compaction the session holds the tail (R253). -/
theorem holds_compact (t : SesState) (tail : Bytes) : (t.compact tail).Holds tail :=
  SesState.Holds.storeRead (t := { t with rx := [], fill := 0 }) (holds_nil rfl) tail

/-- `SES_RECEIVE` runs on the bytes held, followed by those of the read (R250). -/
theorem SesState.Holds.receive {p : Params} {t : SesState} {held d : Bytes} (h : t.Holds held)
    (hm : t.mode = .connected) (hd : d ≠ []) (hc : t.fill + d.length ≤ p.recvCapacity) :
    sesReceive p t (.data d) = receiveBytes p (t.storeRead d) (held ++ d) :=
  sesReceive_data hm h.length h.read hd (h.length.symm ▸ hc)

/-! ### An end after earlier events -/

/-- The second end is the first one with the events `evs` before its own (R280). The sessions that a fatal error tears
down may differ in the receive buffer, which the teardown empties. -/
inductive SesEnd.After (evs : List Event) : SesEnd → SesEnd → Prop where
  | done (t : SesState) (evs' : List Event) :
      SesEnd.After evs (.done t [.events evs'] []) (.done t [.events (evs ++ evs')] [])
  | fatal (e : ErrCode) {t t' : SesState} (evs' : List Event) (h : t'.teardown = t.teardown) :
      SesEnd.After evs (.fatal e t evs' []) (.fatal e t' (evs ++ evs') [])

/-! ### Frames -/

/-- A cipher that can decrypt: initialized, with a vector (R26). -/
structure CipherReady (c : ScState) : Prop where
  initialized : c.initialized = true
  vector : c.vector.isSome = true

theorem SesCiphers.inboundReady {p : Params} {t : SesState} (h : SesCiphers p t) (hh : t.handshaken = true) :
    CipherReady t.inbound :=
  ⟨(h.ready hh).2.1, h.inbound_vector hh⟩

theorem CipherReady.frameLoop {c : ScState} (h : CipherReady c) (p : Params) (k : Nat) (d : Bytes) :
    CipherReady (frameLoop p k c d).inbound := by
  obtain ⟨hi, -, -, hv⟩ := frameLoop_inbound p k c d
  exact ⟨hi.trans h.initialized, hv.trans h.vector⟩

/-- What waits is no longer than what the loop ran on (R253). -/
theorem frameLoop_rest_le {p : Params} {k : Nat} {c : ScState} {d rest : Bytes}
    (h : (frameLoop p k c d).stop = .wait rest) : rest.length ≤ d.length := by
  induction k generalizing c d with
  | zero =>
    cases h
    exact le_rfl
  | succ k ih =>
    rcases frameLoop_cases p k c d with ⟨he, -⟩ | he | ⟨he, -⟩ | ⟨v, b0, b1, b2, b3, body, rfl, hi, hv, h2, hc, hb⟩
    · rw [he] at h
      cases h
      exact le_rfl
    · rw [he] at h
      cases h
    · rw [he] at h
      cases h
    · rw [frameLoop_frame p k hi hv b0 b1 b2 b3 body h2 hc hb] at h
      have hrest := ih h
      simp only [List.length_drop] at hrest
      simp only [List.length_cons]
      omega

/-- When the frame part ends `Ok`: the loop waits, and the tail it leaves is compacted (R250, R253). -/
theorem receiveFrames_done {p : Params} {t t1 : SesState} {evs evs1 : List Event} {data sent : Bytes}
    (hready : CipherReady t.inbound) (h : receiveFrames p t evs data = .done t1 [.events evs1] sent) :
    ∃ tail, (frameLoop p data.length t.inbound data).stop = .wait tail ∧
      t1 = { t with inbound := (frameLoop p data.length t.inbound data).inbound }.compact tail ∧
      evs1 = evs ++ (frameLoop p data.length t.inbound data).events := by
  rcases receiveFrames_cases evs data hready.initialized hready.vector with ⟨tail, hstop, -, he⟩ | ⟨-, he⟩
  · rw [he] at h
    cases h
    exact ⟨tail, hstop, rfl, rfl⟩
  · rw [he] at h
    cases h

/-- The frame part depends on the session outside the buffer, and on the bytes through the loop: two runs whose loops
differ in the events already emitted end after each other. -/
theorem receiveFrames_after {p : Params} {t u : SesState} {evs evs1 evs2 emitted : List Event} {data rest : Bytes}
    (hm : u.mode = t.mode) (hs : OutboundStands t u) (hready : CipherReady u.inbound)
    (hloop : frameLoop p data.length t.inbound data =
      { frameLoop p rest.length u.inbound rest with
        events := emitted ++ (frameLoop p rest.length u.inbound rest).events })
    (hevs : evs ++ emitted = evs1 ++ evs2) :
    SesEnd.After evs1 (receiveFrames p u evs2 rest) (receiveFrames p t evs data) := by
  have hcompact (c : ScState) (tail : Bytes) :
      ({ t with inbound := c } : SesState).compact tail = ({ u with inbound := c } : SesState).compact tail := by
    simp only [SesState.compact, hm, hs.outbound, hs.handshaken]
  have hteardown (c : ScState) :
      ({ t with inbound := c } : SesState).teardown = ({ u with inbound := c } : SesState).teardown := by
    simp only [SesState.teardown, hs.outbound, hs.handshaken]
  rcases receiveFrames_cases evs2 rest hready.initialized hready.vector with ⟨tail, hstop, -, he⟩ | ⟨hstop, he⟩
  · rw [he]
    simp only [receiveFrames, hloop, hstop, ← List.append_assoc, hevs]
    rw [List.append_assoc, hcompact]
    exact .done _ _
  · rw [he]
    simp only [receiveFrames, hloop, hstop, ← List.append_assoc, hevs]
    rw [List.append_assoc]
    exact .fatal _ _ (hteardown _)

/-- After frames that end `Ok`, the session goes on from the tail it holds as the frames of both parts would
(R253, R254). -/
theorem receiveFrames_join {p : Params} {t t1 : SesState} {evs evs1 : List Event} {d1 : Bytes}
    (hready : CipherReady t.inbound) (h : receiveFrames p t evs d1 = .done t1 [.events evs1] []) (d2 : Bytes)
    (rx : Memory) :
    ∃ tail, tail.length ≤ d1.length ∧ t1.Holds tail ∧ t1.mode = t.mode ∧ t1.handshaken = t.handshaken ∧
      SesEnd.After evs1 (receiveFrames p (t1.storeRead d2) [] (tail ++ d2))
        (receiveFrames p { t with rx := rx } evs (d1 ++ d2)) := by
  obtain ⟨tail, hstop, rfl, rfl⟩ := receiveFrames_done hready h
  refine ⟨tail, frameLoop_rest_le hstop, holds_compact _ _, rfl, rfl, ?_⟩
  exact receiveFrames_after (t := { t with rx := rx }) (emitted := (frameLoop p d1.length t.inbound d1).events) rfl
    ⟨rfl, rfl⟩ (hready.frameLoop p _ _) (frameLoop_join d2 le_rfl le_rfl hstop) (List.append_nil _).symm

/-- When the frames of two parts end `Ok`, so do those of the first (R254). -/
theorem receiveFrames_split {p : Params} {t t' : SesState} {rx : Memory} {evs evs' : List Event} {d1 d2 : Bytes}
    (hready : CipherReady t.inbound)
    (h : receiveFrames p { t with rx := rx } evs (d1 ++ d2) = .done t' [.events evs'] []) :
    ∃ t1 evs1, receiveFrames p t evs d1 = .done t1 [.events evs1] [] := by
  obtain ⟨rest, hstop, -, -⟩ := receiveFrames_done (t := { t with rx := rx }) hready h
  obtain ⟨mid, hmid, -⟩ := frameLoop_append p _ d1.length t.inbound d1 d2 rest le_rfl le_rfl hstop
  exact ⟨{ t with inbound := (frameLoop p d1.length t.inbound d1).inbound }.compact mid,
    evs ++ (frameLoop p d1.length t.inbound d1).events, by simp only [receiveFrames, hmid]⟩

/-! ### The handshake before the frames -/

/-- Before the handshake, the bytes received decide what the extraction does with any session: wait for more; or,
whatever follows them, end fatally; or, whatever follows them, take the handshake and go on with the frames behind it
(R248, R250). -/
theorem handshakeBytes_cases (p : Params) (data : Bytes) :
    (∀ t : SesState, t.handshaken = false →
      receiveBytes p t data = .done { t with fill := data.length } [.events []] []) ∨
    (∃ e, ∀ (t : SesState) (d : Bytes), t.handshaken = false → receiveBytes p t (data ++ d) = .fatal e t [] []) ∨
    (∃ f tail, tail.length ≤ data.length ∧ ∀ (t : SesState) (d : Bytes), t.handshaken = false →
      receiveBytes p t (data ++ d) = receiveFrames p (commitHandshake t f) [hsEvent f] (tail ++ d)) := by
  match data with
  | [] => exact .inl fun t hh => by simp [receiveBytes, hh]
  | [l0] => exact .inl fun t hh => receiveBytes_one p hh l0
  | l0 :: l1 :: rest =>
    by_cases hc : p.recvCapacity < 2 + (le16 l0 l1).toNat
    · exact .inr (.inl ⟨.framing, fun t d hh => receiveBytes_tooLong hh hc _⟩)
    · by_cases hl : rest.length < (le16 l0 l1).toNat
      · exact .inl fun t hh => receiveBytes_partial hh (Nat.not_lt.mp hc) hl
      · obtain ⟨packet, tail, rfl, hpacket⟩ : ∃ packet tail, rest = packet ++ tail ∧
            (le16 l0 l1).toNat = packet.length :=
          ⟨_, _, (List.take_append_drop _ rest).symm, (List.length_take_of_le (Nat.not_lt.mp hl)).symm⟩
        have hassoc (d : Bytes) : l0 :: l1 :: (packet ++ tail) ++ d = l0 :: l1 :: (packet ++ (tail ++ d)) := by simp
        cases hp : parseHandshake packet with
        | error e =>
          refine .inr (.inl ⟨.handshake, fun t d hh => ?_⟩)
          rw [hassoc, receiveBytes_malformed hh hpacket (by omega) hp]
        | ok f =>
          refine .inr (.inr ⟨f, tail, by simp only [List.length_cons, List.length_append]; omega, fun t d hh => ?_⟩)
          rw [hassoc, receiveBytes_handshake hh hpacket (by omega) hp]

theorem commitHandshake_inboundReady (t : SesState) (f : HsFields) : CipherReady (commitHandshake t f).inbound :=
  ⟨rfl, rfl⟩

/-- Before the handshake the extraction does not depend on `fill` (R250). -/
theorem receiveBytes_after_fill (p : Params) {t : SesState} (hh : t.handshaken = false) (n : Nat) (data : Bytes) :
    SesEnd.After [] (receiveBytes p { t with fill := n } data) (receiveBytes p t data) := by
  rcases handshakeBytes_cases p data with hwait | ⟨e, hfatal⟩ | ⟨f, tail, -, htake⟩
  · rw [hwait t hh, hwait { t with fill := n } hh]
    exact .done _ _
  · have h1 := hfatal t [] hh
    have h2 := hfatal { t with fill := n } [] hh
    rw [List.append_nil] at h1 h2
    rw [h1, h2]
    exact .fatal e [] rfl
  · have h1 := htake t [] hh
    have h2 := htake { t with fill := n } [] hh
    rw [List.append_nil] at h1 h2
    rw [h1, h2]
    exact receiveFrames_after (emitted := []) rfl ⟨rfl, rfl⟩ (commitHandshake_inboundReady _ f) rfl
      (List.append_nil _)

/-- After an extraction that ends `Ok`, the session goes on from the bytes it holds as the extraction of both parts
would (R250, R253). -/
theorem receiveBytes_join {p : Params} {t t1 : SesState} {evs1 : List Event} {data : Bytes}
    (hready : t.handshaken = true → CipherReady t.inbound)
    (hholds : ({ t with fill := data.length } : SesState).Holds data)
    (h : receiveBytes p t data = .done t1 [.events evs1] []) (d : Bytes) :
    ∃ held, held.length ≤ data.length ∧ t1.Holds held ∧ t1.mode = t.mode ∧
      SesEnd.After evs1 (receiveBytes p (t1.storeRead d) (held ++ d))
        (receiveBytes p { t with rx := t.rx.store data.length d } (data ++ d)) := by
  by_cases hh : t.handshaken = true
  case pos =>
    rw [receiveBytes_handshaken p hh] at h
    obtain ⟨tail, hlen, hheld, hm, hh1, hafter⟩ := receiveFrames_join (hready hh) h d (t.rx.store data.length d)
    refine ⟨tail, hlen, hheld, hm, ?_⟩
    rwa [receiveBytes_handshaken p (t := t1.storeRead d) (hh1.trans hh),
      receiveBytes_handshaken p (t := { t with rx := t.rx.store data.length d }) hh]
  case neg =>
    rw [Bool.not_eq_true] at hh
    rcases handshakeBytes_cases p data with hwait | ⟨e, hfatal⟩ | ⟨f, tail, htail, htake⟩
    · rw [hwait t hh] at h
      cases h
      exact ⟨data, le_rfl, hholds, rfl,
        receiveBytes_after_fill p (t := { t with rx := t.rx.store data.length d }) hh data.length (data ++ d)⟩
    · have hend := hfatal t [] hh
      rw [List.append_nil, h] at hend
      cases hend
    · have hend := htake t [] hh
      rw [List.append_nil, List.append_nil, h] at hend
      obtain ⟨held, hlen, hheld, hm, hh1, hafter⟩ :=
        receiveFrames_join (commitHandshake_inboundReady t f) hend.symm d (t.rx.store data.length d)
      refine ⟨held, hlen.trans htail, hheld, hm, ?_⟩
      rwa [receiveBytes_handshaken p (t := t1.storeRead d) hh1, htake { t with rx := t.rx.store data.length d } d hh]

/-- When the extraction of two parts ends `Ok`, so does that of the first (R254). -/
theorem receiveBytes_split {p : Params} {t t' : SesState} {rx : Memory} {evs : List Event} {data d : Bytes}
    (hready : t.handshaken = true → CipherReady t.inbound)
    (h : receiveBytes p { t with rx := rx } (data ++ d) = .done t' [.events evs] []) :
    ∃ t1 evs1, receiveBytes p t data = .done t1 [.events evs1] [] := by
  by_cases hh : t.handshaken = true
  case pos =>
    rw [receiveBytes_handshaken p (t := { t with rx := rx }) hh] at h
    rw [receiveBytes_handshaken p hh]
    exact receiveFrames_split (hready hh) h
  case neg =>
    rw [Bool.not_eq_true] at hh
    rcases handshakeBytes_cases p data with hwait | ⟨e, hfatal⟩ | ⟨f, tail, -, htake⟩
    · exact ⟨_, _, hwait t hh⟩
    · rw [hfatal { t with rx := rx } d hh] at h
      cases h
    · rw [htake { t with rx := rx } d hh] at h
      have hend := htake t [] hh
      rw [List.append_nil, List.append_nil] at hend
      rw [hend]
      exact receiveFrames_split (t := commitHandshake t f) (commitHandshake_inboundReady t f) h

/-! ### `SES_RECEIVE` -/

/-- A read that ends `Ok` found the session connected and fitted into the free space (R250). -/
theorem sesReceive_done_fits {p : Params} {t t' : SesState} {d sent : Bytes} {vs : List Value}
    (h : sesReceive p t (.data d) = .done t' vs sent) : t.mode = .connected ∧ d.length ≤ p.recvCapacity - t.fill := by
  have hm : t.mode = .connected := by
    by_contra hm
    rw [sesReceive_notConnected p hm] at h
    cases h
  refine ⟨hm, Nat.not_lt.mp fun hd => ?_⟩
  rw [sesReceive_tooLong hm hd] at h
  cases h

/-- Storing two reads one behind the other is storing them together (R250). -/
theorem SesState.storeRead_append (t : SesState) (d1 d2 : Bytes) :
    t.storeRead (d1 ++ d2) =
      { t.storeRead d1 with rx := (t.storeRead d1).rx.store (t.fill + d1.length) d2 } := by
  rw [SesState.storeRead, Memory.store_append]
  rfl

/-- After a read that ends `Ok`, a second read ends as one read of both does, but for the events of the first
(R253, R280). -/
theorem sesReceive_join {p : Params} {t t1 : SesState} {d1 d2 : Bytes} {evs1 : List Event} (ht : SesInv p t)
    (hd1 : d1 ≠ []) (hd2 : d2 ≠ []) (hfit : t.fill + (d1 ++ d2).length ≤ p.recvCapacity)
    (h : sesReceive p t (.data d1) = .done t1 [.events evs1] []) :
    SesEnd.After evs1 (sesReceive p t1 (.data d2)) (sesReceive p t (.data (d1 ++ d2))) := by
  obtain ⟨hm, -⟩ := sesReceive_done_fits h
  obtain ⟨held, hheld⟩ := ht.exists_holds
  rw [List.length_append] at hfit
  rw [hheld.receive hm hd1 (by omega)] at h
  obtain ⟨held1, hlen, hheld1, hm1, hafter⟩ := receiveBytes_join (t := t.storeRead d1) ht.ciphers.inboundReady
    (hheld.storeRead d1) h d2
  have hfill := hheld.length
  have hfill1 := hheld1.length
  rw [List.length_append] at hlen
  rw [hheld1.receive (hm1.trans hm) hd2 (by omega),
    hheld.receive hm (by simp [hd1]) (by rw [List.length_append]; omega)]
  rw [List.length_append, hheld.length, List.append_assoc] at hafter
  rwa [t.storeRead_append]

/-- When one read of two parts ends `Ok`, so does a read of the first, and both fit into the buffer (R254). -/
theorem sesReceive_split {p : Params} {t t' : SesState} {d1 d2 : Bytes} {evs : List Event} (ht : SesInv p t)
    (hd1 : d1 ≠ []) (h : sesReceive p t (.data (d1 ++ d2)) = .done t' [.events evs] []) :
    t.fill + (d1 ++ d2).length ≤ p.recvCapacity ∧
      ∃ t1 evs1, sesReceive p t (.data d1) = .done t1 [.events evs1] [] := by
  obtain ⟨hm, hfits⟩ := sesReceive_done_fits h
  obtain ⟨held, hheld⟩ := ht.exists_holds
  have hfill := ht.fill_lt
  have hfit : t.fill + (d1 ++ d2).length ≤ p.recvCapacity := by omega
  refine ⟨hfit, ?_⟩
  rw [hheld.receive hm (by simp [hd1]) hfit, ← List.append_assoc] at h
  rw [List.length_append] at hfit
  rw [hheld.receive hm hd1 (by omega)]
  exact receiveBytes_split (t := t.storeRead d1) ht.ciphers.inboundReady h

/-- How a receive that ends `Ok` came about: it sends nothing (R250). -/
theorem sesReceive_of_ok {p : Params} {r : HostRead} {s s' : State} {vs : List Value}
    (h : receiveUnder p r s = .next s') (hresp : s'.response = some (.ok vs)) :
    sesReceive p s.ses r = .done s'.ses vs [] := by
  have hcarries := sesReceive_carries p s.ses r
  rcases finishSes_cases h with ⟨t, vs', sent, he, rfl⟩ | ⟨e, -, rfl⟩ | ⟨e, t, evs, sent, -, rfl⟩
  · cases hresp
    rw [he] at hcarries ⊢
    obtain ⟨-, rfl⟩ := hcarries
    rfl
  · cases hresp
  · cases hresp

/-- The states in which the two ends leave the machine: the same session, and the answer of the first with the events
before it. -/
theorem SesEnd.After.finishSes {evs : List Event} {r r' : SesEnd} (h : SesEnd.After evs r r') {mid last : State}
    (hlast : finishSes mid r = .next last) (s : State) :
    ∃ whole, finishSes s r' = .next whole ∧ whole.ses = last.ses ∧
      (∀ evs2, last.response = some (.ok [.events evs2]) → whole.response = some (.ok [.events (evs ++ evs2)])) ∧
      (∀ e evs2, last.response = some (.err e evs2) → whole.response = some (.err e (evs ++ evs2))) := by
  cases h with
  | done t evs' =>
    rw [finishSes_done] at hlast ⊢
    cases hlast
    exact ⟨_, rfl, rfl, fun _ h => (by cases h; rfl), nofun⟩
  | fatal e evs' hteardown =>
    rw [finishSes_fatal] at hlast ⊢
    cases hlast
    exact ⟨_, rfl, hteardown, nofun, fun _ _ h => (by cases h; rfl)⟩

/-- Settles O46: one read of both ends after the first one as the second does. -/
theorem joinedReadsActAsOne : Obligations.JoinedReadsActAsOne := by
  unfold Obligations.JoinedReadsActAsOne
  intro p s mid last d1 d2 evs1 ht hd1 hd2 hfit hmid hresp hlast
  exact (sesReceive_join ht hd1 hd2 hfit (sesReceive_of_ok hmid hresp)).finishSes hlast s

/-- Settles O45: the first part ends `Ok` because the whole does, and the whole ends after it as the second part
does. -/
theorem splitReadGivesSameEvents : Obligations.SplitReadGivesSameEvents := by
  unfold Obligations.SplitReadGivesSameEvents
  intro p s whole d1 d2 evs ht hd1 hd2 hwhole hresp
  have hend := sesReceive_of_ok hwhole hresp
  obtain ⟨hfit, t1, evs1, h1⟩ := sesReceive_split ht hd1 hend
  have hafter := sesReceive_join ht hd1 hd2 hfit h1
  rw [hend] at hafter
  generalize h2 : sesReceive p t1 (.data d2) = r2 at hafter
  cases hafter with
  | done _ evs2 =>
    refine ⟨{ s with ses := t1, response := some (.ok [.events evs1]) },
      { s with ses := whole.ses, response := some (.ok [.events evs2]) }, evs1, evs2, ?mid, rfl, ?last, rfl, rfl, rfl⟩
    case mid => rw [receiveUnder, h1, finishSes_done]
    case last => rw [receiveUnder, h2, finishSes_done]

end Sys2Proof.Machine
end

section
/-! A frame split into reads at any byte boundaries (45_session_framer.md R254): each read but the last leaves the loop
waiting on the bytes so far, and the last one completes the frame. -/

namespace Sys2Proof.Machine

/-- A frame that lacks bytes waits whole, wherever it is cut (R250). -/
theorem frameLoop_cutFrame {p : Params} {b0 b1 b2 b3 : Byte} {payload : Bytes}
    (hl : frameLength b0 b1 b2 b3 = payload.length) (h2 : 2 ≤ payload.length)
    (hc : 4 + payload.length ≤ p.recvCapacity) {x y : Bytes} (hy : y ≠ [])
    (hxy : x ++ y = b0 :: b1 :: b2 :: b3 :: payload) (k : Nat) (c : ScState) :
    frameLoop p k c x = ⟨c, [], .wait x⟩ := by
  have hylen := List.length_pos_iff.mpr hy
  match x, hxy with
  | [], _ | [_], _ | [_, _], _ | [_, _, _], _ => exact frameLoop_short p k c (by simp)
  | c0 :: c1 :: c2 :: c3 :: body, hxy =>
    simp only [List.cons_append, List.cons.injEq] at hxy
    obtain ⟨rfl, rfl, rfl, rfl, rfl⟩ := hxy
    rw [List.length_append] at hl h2 hc
    cases k with
    | zero => rfl
    | succ k => exact frameLoop_wait p k c c0 c1 c2 c3 body (by omega) (by omega) (by omega)

/-- The frame part on bytes that wait keeps them (R253). -/
theorem receiveFrames_wait {p : Params} {t : SesState} {data : Bytes}
    (h : frameLoop p data.length t.inbound data = ⟨t.inbound, [], .wait data⟩) :
    receiveFrames p t [] data = .done (t.compact data) [.events []] [] := by
  simp only [receiveFrames, h]
  rfl

/-- What a whole frame leaves of the session that received it: nothing waits, and the inbound vector is shuffled once
(R252, R253). -/
def SesState.afterFrame (p : Params) (t : SesState) (v : BytesN 4) : SesState :=
  { t with rx := [], fill := 0, inbound := { t.inbound with vector := some (p.shuffle v) } }

/-- The reader over the payload of a frame (R252). -/
def framePacket (p : Params) (c : ScState) (v : BytesN 4) (payload : Bytes) : RdState :=
  ⟨cryptRange p c.bt.key v payload.length true payload, 2, .dynamicHeader, none⟩

/-- The frame part on exactly one whole frame (R252). -/
theorem receiveFrames_wholeFrame {p : Params} {t : SesState} {v : BytesN 4} {b0 b1 b2 b3 : Byte} {payload : Bytes}
    (hi : t.inbound.initialized = true) (hv : t.inbound.vector = some v)
    (hl : frameLength b0 b1 b2 b3 = payload.length) (h2 : 2 ≤ payload.length)
    (hc : 4 + payload.length ≤ p.recvCapacity) :
    receiveFrames p t [] (b0 :: b1 :: b2 :: b3 :: payload) =
      .done (t.afterFrame p v) [.events [.packet (framePacket p t.inbound v payload)]] [] := by
  have hloop := frameLoop_frame p (payload.length + 3) hi hv b0 b1 b2 b3 payload (by omega) (by omega) (by omega)
  rw [hl, List.take_length, List.drop_length, frameLoop_short p _ _ (d := []) (by decide)] at hloop
  simp only [receiveFrames, List.length_cons, hloop]
  rfl

/-- A read that ends `Ok` and the reads after it. -/
theorem runReceives_cons {p : Params} {s : State} {t : SesState} {d : Bytes} {evs : List Event}
    (h : sesReceive p s.ses (.data d) = .done t [.events evs] []) (ds : List Bytes) :
    runReceives p s (d :: ds) =
      (runReceives p { s with ses := t, response := some (.ok [.events evs]) } ds).map fun q => (evs :: q.1, q.2) := by
  rw [runReceives, receiveUnder, h, finishSes_done]

/-- The reads that complete a frame whose first bytes the session holds: no event but for the last read, which gives the
packet (R254). -/
theorem runReceives_frame {p : Params} {v : BytesN 4} {b0 b1 b2 b3 : Byte} {payload : Bytes}
    (hl : frameLength b0 b1 b2 b3 = payload.length) (h2 : 2 ≤ payload.length)
    (hc : 4 + payload.length ≤ p.recvCapacity) {reads : List Bytes} (hreads : ∀ d ∈ reads, d ≠ [])
    (hne : reads ≠ []) {s : State} {held : Bytes} (hm : s.ses.mode = .connected) (hh : s.ses.handshaken = true)
    (hi : s.ses.inbound.initialized = true) (hv : s.ses.inbound.vector = some v) (hheld : s.ses.Holds held)
    (hframe : held ++ reads.flatten = b0 :: b1 :: b2 :: b3 :: payload) :
    ∃ last : State,
      runReceives p s reads = some (List.replicate (reads.length - 1) [] ++
        [[.packet (framePacket p s.ses.inbound v payload)]], last) ∧
      last.ses = s.ses.afterFrame p v := by
  induction reads generalizing s held with
  | nil => exact absurd rfl hne
  | cons d ds ih =>
    obtain ⟨hd, hds⟩ := List.forall_mem_cons.mp hreads
    rw [List.flatten_cons, ← List.append_assoc] at hframe
    have hlen := congrArg List.length hframe
    have hfill := hheld.length
    simp only [List.length_append, List.length_cons] at hlen
    have hrun := hheld.receive (p := p) hm hd (by omega)
    rw [receiveBytes_handshaken p (t := s.ses.storeRead d) hh] at hrun
    cases ds with
    | nil =>
      rw [List.flatten_nil, List.append_nil] at hframe
      rw [hframe, receiveFrames_wholeFrame (t := s.ses.storeRead d) hi hv hl h2 hc] at hrun
      exact ⟨_, runReceives_cons hrun [], rfl⟩
    | cons d' ds' =>
      have hrest : (d' :: ds').flatten ≠ [] := by simp [hds d' (List.mem_cons_self ..)]
      rw [receiveFrames_wait (t := s.ses.storeRead d) (frameLoop_cutFrame hl h2 hc hrest hframe _ _)] at hrun
      obtain ⟨last, hruns, hlast⟩ := ih hds (List.cons_ne_nil _ _)
        (s := { s with ses := (s.ses.storeRead d).compact (held ++ d), response := some (.ok [.events []]) })
        hm hh hi hv (holds_compact _ _) hframe
      exact ⟨last, by rw [runReceives_cons hrun, hruns]; rfl, hlast⟩

/-- Settles O47: the whole frame fits and is long enough, because its read ends with a packet; read in parts, it is
completed by the last one. -/
theorem fragmentationRecovery : Obligations.FragmentationRecovery := by
  unfold Obligations.FragmentationRecovery
  intro p s whole b0 b1 b2 b3 payload reads r ht hh hf hl hreads hflat hwhole hresp
  rw [← frameLength_eq] at hl
  have hend := sesReceive_of_ok hwhole hresp
  obtain ⟨hm, hfits⟩ := sesReceive_done_fits hend
  simp only [List.length_cons] at hfits
  have hready := ht.ciphers.inboundReady hh
  obtain ⟨v, hv⟩ := Option.isSome_iff_exists.mp hready.vector
  rw [sesReceive_first hm hf (by simp) (by simp only [List.length_cons]; omega),
    receiveBytes_handshaken p (t := s.ses.storeRead _) hh] at hend
  have h2 : 2 ≤ payload.length := by
    by_contra hshort
    rw [receiveFrames_badLength _ _ _ (.inl (by omega))] at hend
    cases hend
  have hc : 4 + payload.length ≤ p.recvCapacity := by omega
  rw [receiveFrames_wholeFrame (t := s.ses.storeRead _) hready.initialized hv hl.symm h2 hc] at hend
  have hne : reads ≠ [] := by
    rintro rfl
    cases hflat
  obtain ⟨last, hruns, hlast⟩ :=
    runReceives_frame hl.symm h2 hc hreads hne hm hh hready.initialized hv (holds_nil hf) hflat
  injection hend with hses hevents
  cases hevents
  exact ⟨last, hruns, hlast.trans hses⟩

end Sys2Proof.Machine
end

section
/-! The transitions of the session (45_session_framer.md R230; 10_state.md R33 items 4 and 5). -/

namespace Sys2Proof.Machine

/-- No listed move takes the handshake back (R33 item 4). -/
theorem sesMoves_keeps_handshaken {t t' : SesState} (h : sesMoves t t') (hh : t.handshaken = true) :
    t'.handshaken = true := by
  rcases h with ⟨-, hs⟩ | ⟨-, -, hs⟩ | ⟨-, hno, -, -⟩ | ⟨-, hs⟩ | ⟨-, hno, -, -⟩
  · exact hs.trans hh
  · exact hs.trans hh
  · rw [hno] at hh
    cases hh
  · exact hs.trans hh
  · rw [hno] at hh
    cases hh

/-- No listed move leaves `Closed` (R33 item 5). -/
theorem sesMoves_keeps_closed {t t' : SesState} (h : sesMoves t t') (hcl : t.mode = .closed) :
    t'.mode = .closed := by
  rcases h with ⟨hm, -⟩ | ⟨hm, -, -⟩ | ⟨hm, -, -, -⟩ | ⟨hm, -⟩ | ⟨-, -, hm, -⟩
  · exact hm.trans hcl
  · rw [hm] at hcl
    cases hcl
  · rw [hm] at hcl
    cases hcl
  · exact hm
  · exact hm

/-- A session that stands as it was has made no transition. -/
theorem sesMoves_of_eq {t t' : SesState} (h : t' = t) : sesMoves t t' := .inl ⟨by rw [h], by rw [h]⟩

/-- A teardown closes the session and keeps the flag (R231). -/
theorem sesMoves_closed {t t' : SesState} (hm : t'.mode = .closed) (hh : t'.handshaken = t.handshaken) :
    sesMoves t t' := .inr (.inr (.inr (.inl ⟨hm, hh⟩)))

/-- Connecting opens a session that was disconnected, or changes nothing (R240). -/
theorem sesConnect_moves {s s' : State} {h : HostConnect} (hstep : finishSes s (sesConnect s.ses h) = .next s') :
    sesMoves s.ses s'.ses := by
  by_cases hm : s.ses.mode = .disconnected
  case neg =>
    rw [sesConnect_state hm] at hstep
    cases hstep
    exact sesMoves_of_eq rfl
  case pos =>
    cases h with
    | failed =>
      rw [sesConnect_failed hm] at hstep
      cases hstep
      exact sesMoves_of_eq rfl
    | opened =>
      rw [sesConnect_opened hm] at hstep
      cases hstep
      exact .inr (.inl ⟨hm, rfl, rfl⟩)

/-- Sending keeps the mode and the flag, or tears the session down (R259). -/
theorem sendUnder_moves {p : Params} {w : WrState} {h : HostWrite} {s s' : State}
    (hstep : sendUnder p w h s = .next s') : sesMoves s.ses s'.ses := by
  rw [sendUnder] at hstep
  rcases sesSend_cases p s.ses w h with ⟨e, he⟩ | ⟨framed, q, -, -, ⟨-, he⟩ | ⟨k, -, he⟩⟩
  · rw [he] at hstep
    cases hstep
    exact sesMoves_of_eq rfl
  · rw [he] at hstep
    cases hstep
    exact .inl ⟨rfl, rfl⟩
  · rw [he] at hstep
    cases hstep
    exact sesMoves_closed rfl rfl

/-- The frames leave the mode alone (R250). -/
theorem receiveFrames_carries_mode (p : Params) (t : SesState) (evs : List Event) (data : Bytes) :
    (receiveFrames p t evs data).carries fun t' _ => t'.mode = t.mode := by
  simp only [receiveFrames]
  split
  case h_1 => exact rfl
  case h_2 => exact rfl
  case h_3 => trivial

/-- So does the extraction; the handshake raises the flag alone (R246, R250). -/
theorem receiveBytes_carries_mode (p : Params) (t : SesState) (data : Bytes) :
    (receiveBytes p t data).carries fun t' _ => t'.mode = t.mode := by
  rcases receiveBytes_cases p t data with
    ⟨-, he⟩ | ⟨-, -, he⟩ | ⟨-, e, -, he⟩ | ⟨-, l0, l1, rest, f, -, -, -, -, he⟩
  · rw [he]
    exact receiveFrames_carries_mode p t _ _
  · rw [he]
    exact rfl
  · rw [he]
    exact rfl
  · rw [he]
    exact receiveFrames_carries_mode p (commitHandshake t f) _ _

/-- Receiving keeps the mode of the session it works on, until a fatal error tears that down (R250). -/
theorem sesReceive_carries_mode (p : Params) (t : SesState) (h : HostRead) :
    (sesReceive p t h).carries fun t' _ => t'.mode = t.mode := by
  rcases sesReceive_cases p t h with ⟨e, he⟩ | ⟨f, he⟩ | he | he | ⟨rx, data, he⟩
  · rw [he]
    trivial
  · rw [he]
    trivial
  · rw [he]
    exact rfl
  · rw [he]
    exact rfl
  · rw [he]
    exact receiveBytes_carries_mode p { t with rx := rx } data

/-- After a receive the mode is as before, or the session is closed; outside `Connected` nothing of the session changes
(R250). -/
theorem receiveUnder_mode {p : Params} {r : HostRead} {s s' : State} (h : receiveUnder p r s = .next s') :
    (s'.ses.mode = s.ses.mode ∨ s'.ses.mode = .closed) ∧ (s.ses.mode ≠ .connected → s'.ses = s.ses) := by
  refine ⟨?mode, fun hm => ?refused⟩
  case mode =>
    have hcarries := sesReceive_carries_mode p s.ses r
    rcases finishSes_cases h with ⟨t, vs, sent, he, rfl⟩ | ⟨e, -, rfl⟩ | ⟨e, t, evs, sent, -, rfl⟩
    · rw [he] at hcarries
      exact .inl hcarries
    · exact .inl rfl
    · exact .inr rfl
  case refused =>
    rw [receiveUnder, sesReceive_notConnected p hm] at h
    cases h
    rfl

/-- Receiving completes the handshake, tears the session down, or does both, from `Connected` alone (R250). -/
theorem receiveUnder_moves {p : Params} {r : HostRead} {s s' : State} (h : receiveUnder p r s = .next s') :
    sesMoves s.ses s'.ses := by
  obtain ⟨hmode, hrefused⟩ := receiveUnder_mode h
  by_cases hm : s.ses.mode = .connected
  case neg => exact sesMoves_of_eq (hrefused hm)
  case pos =>
    rcases (receiveUnder_receiveStep h).1 with hstands | ⟨hno, hyes⟩
    · rcases hmode with hsame | hclosed
      · exact .inl ⟨hsame, hstands.handshaken⟩
      · exact sesMoves_closed hclosed hstands.handshaken
    · rcases hmode with hsame | hclosed
      · exact .inr (.inr (.inl ⟨hm, hno, hsame.trans hm, hyes⟩))
      · exact .inr (.inr (.inr (.inr ⟨hm, hno, hclosed, hyes⟩)))

/-- Every command makes a listed move (R230). -/
theorem exec_moves {i : Instr} {s s' : State} (h : exec i s = .next s') : sesMoves s.ses s'.ses := by
  by_cases hop : i.opcode ∈ sessionWriters
  case neg =>
    obtain ⟨resp, he⟩ := valueCommandsKeepTheSession i s hop
    rw [he] at h
    cases h
    exact sesMoves_of_eq rfl
  case pos =>
    rcases opcode_mem_sessionWriters hop with ⟨endpoint, a, rfl⟩ | ⟨a, rfl⟩ | ⟨w, a, rfl⟩ | rfl
    · exact sesConnect_moves h
    · exact receiveUnder_moves h
    · exact sendUnder_moves h
    · cases h
      exact sesMoves_closed rfl rfl

/-- Settles O52: a step runs at most one command. -/
theorem sessionTransitions : Obligations.SessionTransitions := by
  unfold Obligations.SessionTransitions
  intro s s' h
  have hmoves : sesMoves s.ses s'.ses := by
    rcases step_cases s with ⟨-, he⟩ | ⟨c, rest, e, -, -, he⟩ | ⟨c, rest, i, -, -, he⟩
    · rw [he] at h
      cases h
      exact sesMoves_of_eq rfl
    · rw [he] at h
      cases h
      exact sesMoves_of_eq rfl
    · exact exec_moves (s := { s with pending := rest }) (he ▸ h)
  exact ⟨hmoves, sesMoves_keeps_handshaken hmoves, sesMoves_keeps_closed hmoves⟩

end Sys2Proof.Machine
end

section
/-! Which error kinds the operations on values answer (60_exceptions.md R274, R275, R278). -/

namespace Sys2Proof.Machine

/-- Every error of an operation is one of the given kinds. -/
def FailsIn {α : Type} (kinds : List ErrCode) (x : Except ErrCode α) : Prop := ∀ e, x = .error e → e ∈ kinds

theorem failsIn_ok {α : Type} (kinds : List ErrCode) (a : α) : FailsIn kinds (.ok a) := nofun

theorem failsIn_error {α : Type} {kinds : List ErrCode} {e : ErrCode} (h : e ∈ kinds) :
    FailsIn kinds (.error e : Except ErrCode α) := by
  rintro _ ⟨⟩
  exact h

theorem FailsIn.map {α β : Type} {kinds : List ErrCode} {x : Except ErrCode α} (h : FailsIn kinds x) (f : α → β) :
    FailsIn kinds (x.map f) := by
  cases x with
  | ok a => exact failsIn_ok kinds (f a)
  | error e => exact failsIn_error (h e rfl)

theorem FailsIn.mono {α : Type} {kinds kinds' : List ErrCode} {x : Except ErrCode α} (h : FailsIn kinds x)
    (hsub : kinds ⊆ kinds') : FailsIn kinds' x := fun e he => hsub (h e he)

/-! ### Vectors and ciphers -/

theorem vecBytes_failsIn (v : VecState) : FailsIn [.uninit] (vecBytes v) := by
  cases v with
  | none => exact failsIn_error (by decide)
  | some b => exact failsIn_ok _ _

theorem vecHigh_failsIn (v : VecState) : FailsIn [.uninit] (vecHigh v) := by
  cases v with
  | none => exact failsIn_error (by decide)
  | some b => exact failsIn_ok _ _

theorem vecShuffle_failsIn (p : Params) (v : VecState) : FailsIn [.uninit] (vecShuffle p v) := by
  cases v with
  | none => exact failsIn_error (by decide)
  | some b => exact failsIn_ok _ _

theorem crypt_failsIn (p : Params) (c : ScState) (buf : Bytes) (o n : Nat) : FailsIn [.uninit] (crypt p c buf o n) := by
  cases hv : c.vector with
  | none =>
    rw [crypt, hv]
    exact failsIn_error (by decide)
  | some v =>
    rw [crypt_eq p hv]
    exact failsIn_ok _ _

theorem scEncrypt_failsIn (p : Params) (c : ScState) (buf : Bytes) (o : Nat) :
    FailsIn [.uninit, .bounds] (scEncrypt p c buf o) := by
  unfold scEncrypt
  split
  · exact failsIn_error (by decide)
  split
  · exact failsIn_error (by decide)
  · exact (crypt_failsIn p c buf _ _).mono (by decide)

theorem scDecrypt_failsIn (p : Params) (c : ScState) (buf : Bytes) : FailsIn [.uninit] (scDecrypt p c buf) := by
  unfold scDecrypt
  split
  · exact failsIn_error (by decide)
  · exact crypt_failsIn p c buf _ _

theorem frameHeader_failsIn (c : ScState) (buf : Bytes) (n : Nat) :
    FailsIn [.uninit, .bounds] (frameHeader c buf n) := by
  unfold frameHeader
  split
  · exact failsIn_error (by decide)
  split
  · exact failsIn_error (by decide)
  split
  · exact failsIn_ok _ _
  · exact failsIn_error (by decide)

/-! ### Readers -/

theorem rdTake_failsIn (r : RdState) (n : Nat) : FailsIn [.bounds] (rdTake r n) := by
  by_cases h : r.pos + n ≤ r.buf.length
  · rw [rdTake_ok h]
    exact failsIn_ok _ _
  · rw [rdTake_error (Nat.not_le.mp h)]
    exact failsIn_error (by decide)

theorem rdBits_failsIn (k : Nat) (r : RdState) : FailsIn [.bounds] (rdBits k r) := by
  by_cases h : r.pos + k ≤ r.buf.length
  · rw [rdBits_ok h]
    exact failsIn_ok _ _
  · rw [rdBits_error (Nat.not_le.mp h)]
    exact failsIn_error (by decide)

theorem rdBool_failsIn (r : RdState) : FailsIn [.bounds] (rdBool r) := by
  unfold rdBool
  split
  case h_1 => exact failsIn_ok _ _
  case h_2 e he => exact failsIn_error (rdBits_failsIn 1 r e he)

theorem rdStr_failsIn (r : RdState) : FailsIn [.bounds] (rdStr r) := by
  unfold rdStr
  split
  case h_1 r' n _ => exact rdTake_failsIn r' n.toNat
  case h_2 e he => exact failsIn_error (rdBits_failsIn 2 r e he)

theorem rdFstr_failsIn (r : RdState) (n : Nat) (trim : Bool) : FailsIn [.bounds] (rdFstr r n trim) := by
  unfold rdFstr
  split
  case h_1 => exact failsIn_ok _ _
  case h_2 e he => exact failsIn_error (rdTake_failsIn r n e he)

theorem extHeader_failsIn (buf : Bytes) : FailsIn [.bounds] (extHeader buf) := by
  unfold extHeader
  split
  · exact failsIn_ok _ _
  · exact failsIn_error (by decide)

theorem rdNew_failsIn (buf : Bytes) (m : Mode) : FailsIn [.bounds] (rdNew buf m) := by
  cases m with
  | noHeader => exact failsIn_ok _ _
  | staticHeader | dynamicHeader =>
    simp only [rdNew]
    split
    case h_1 => exact failsIn_ok _ _
    case h_2 e he => exact failsIn_error (extHeader_failsIn buf e he)

theorem rdGoto_failsIn (r : RdState) (index : Int) : FailsIn [.bounds] (rdGoto r index) := by
  unfold rdGoto
  split
  · exact failsIn_error (by decide)
  · exact failsIn_ok _ _

theorem rdSkip_failsIn (r : RdState) (n : Int) : FailsIn [.bounds] (rdSkip r n) := by
  unfold rdSkip
  split
  · exact failsIn_error (by decide)
  split
  · exact failsIn_error (by decide)
  · exact failsIn_ok _ _

/-! ### Writers -/

theorem wrNew_failsIn (tag size : Option Int) : FailsIn [.validation, .bounds] (wrNew tag size) := by
  unfold wrNew
  split
  · exact failsIn_error (by decide)
  split
  · exact failsIn_error (by decide)
  cases tag with
  | none => exact failsIn_ok _ _
  | some t => exact failsIn_ok _ _

theorem wrStr_failsIn (w : WrState) (t : Bytes) : FailsIn [.bounds] (wrStr w t) := by
  unfold wrStr
  split
  · exact failsIn_error (by decide)
  · exact failsIn_ok _ _

theorem wrFstr_failsIn (w : WrState) (t : Bytes) (n : Nat) : FailsIn [.bounds] (wrFstr w t n) := by
  unfold wrFstr
  split
  · exact failsIn_error (by decide)
  · exact failsIn_ok _ _

/-! ### The commands on values -/

/-- The kinds that each command on values can end with, read off its operation. -/
def valueErrors : Opcode → List ErrCode
  | .vecBytes | .vecHigh | .vecShuffle | .scDecrypt => [.uninit]
  | .scEncrypt | .sesFramehdr => [.uninit, .bounds]
  | .rdNew | .rdI8 | .rdU8 | .rdI16 | .rdU16 | .rdI32 | .rdU32 | .rdI64 | .rdU64 | .rdBool | .rdBytes | .rdStr
  | .rdFstr | .rdGoto | .rdSkip | .rdExthdr | .wrStr | .wrFstr => [.bounds]
  | .wrNew => [.validation, .bounds]
  | _ => []

/-- They are listed for it (R274, R275, R278). -/
theorem valueErrors_listed (op : Opcode) : ∀ e ∈ valueErrors op, op ∈ mayRaise e := by cases op <;> decide

/-- Every command but the four that write the session ends by `finish` (R23), with an error only of its kinds. -/
theorem exec_eq_finish_failsIn {i : Instr} (h : i.opcode ∉ sessionWriters) (s : State) :
    ∃ r, exec i s = finish s r ∧ FailsIn (valueErrors i.opcode) r := by
  cases i with
  | vecInit | btNew | btBlock | scNew | scInit | scQuery | rdTowire | rdPos | rdAbslen | rdDatalen | rdTag
  | wrI8 | wrU8 | wrI16 | wrU16 | wrI32 | wrU32 | wrI64 | wrU64 | wrBool | wrBytes
  | wrTowire | wrPos | wrAbslen | wrDatalen | sesStatus => exact ⟨.ok _, rfl, failsIn_ok _ _⟩
  | vecBytes v => exact ⟨_, rfl, (vecBytes_failsIn v).map _⟩
  | vecHigh v => exact ⟨_, rfl, (vecHigh_failsIn v).map _⟩
  | vecShuffle v => exact ⟨_, rfl, (vecShuffle_failsIn _ v).map _⟩
  | scEncrypt c buf o => exact ⟨_, rfl, (scEncrypt_failsIn _ c buf o).map _⟩
  | scDecrypt c buf => exact ⟨_, rfl, (scDecrypt_failsIn _ c buf).map _⟩
  | rdNew buf m => exact ⟨_, rfl, (rdNew_failsIn buf m).map _⟩
  | rdI8 r | rdU8 r | rdI16 r | rdU16 r | rdI32 r | rdU32 r | rdI64 r | rdU64 r =>
    exact ⟨_, rfl, (rdBits_failsIn _ r).map _⟩
  | rdBool r => exact ⟨_, rfl, (rdBool_failsIn r).map _⟩
  | rdBytes r n => exact ⟨_, rfl, (rdTake_failsIn r n).map _⟩
  | rdStr r => exact ⟨_, rfl, (rdStr_failsIn r).map _⟩
  | rdFstr r n trim => exact ⟨_, rfl, (rdFstr_failsIn r n trim).map _⟩
  | rdGoto r index => exact ⟨_, rfl, (rdGoto_failsIn r index).map _⟩
  | rdSkip r n => exact ⟨_, rfl, (rdSkip_failsIn r n).map _⟩
  | rdExthdr r => exact ⟨_, rfl, (extHeader_failsIn r.buf).map _⟩
  | wrNew tag size => exact ⟨_, rfl, (wrNew_failsIn tag size).map _⟩
  | wrStr w t => exact ⟨_, rfl, (wrStr_failsIn w t).map _⟩
  | wrFstr w t n => exact ⟨_, rfl, (wrFstr_failsIn w t n).map _⟩
  | sesFramehdr buf n => exact ⟨_, rfl, (frameHeader_failsIn s.ses.outbound buf n).map _⟩
  | sesConnect | sesReceive | sesSend | sesClose => simp [Instr.opcode, sessionWriters] at h

/-- A command on values that ends with an error changes nothing but the response, and the kind is listed for it. -/
theorem valueCommand_error {i : Instr} {s s' : State} {e : ErrCode} {evs : List Event}
    (hop : i.opcode ∉ sessionWriters) (h : exec i s = .next s') (hresp : s'.response = some (.err e evs)) :
    i.opcode ∈ mayRaise e ∧ s' = { s with response := some (.err e []) } := by
  obtain ⟨r, he, hfails⟩ := exec_eq_finish_failsIn hop s
  rw [he] at h
  cases r with
  | ok vs =>
    cases h
    cases hresp
  | error e' =>
    cases h
    cases hresp
    exact ⟨valueErrors_listed _ _ (hfails _ rfl), rfl⟩

/-- Only the commands that write the session raise fatal errors (R272). -/
theorem isFatal_of_valueCommand {op : Opcode} {e : ErrCode} (hop : op ∉ sessionWriters) (h : op ∈ mayRaise e) :
    isFatal op e = false := by
  cases e with
  | conn => exact absurd ((by decide : mayRaise .conn ⊆ sessionWriters) h) hop
  | framing => exact absurd ((by decide : mayRaise .framing ⊆ sessionWriters) h) hop
  | handshake => exact absurd ((by decide : mayRaise .handshake ⊆ sessionWriters) h) hop
  | bounds | uninit | validation | state | illegal => rfl

end Sys2Proof.Machine
end

section
/-! Which error kinds the commands that write the session end with, fatal and not, and that none of them stops in a good
state (60_exceptions.md R270, R276, R277, R279 to R282). -/

namespace Sys2Proof.Machine

/-- A session command ends `Ok`, with an error of the given kinds, non-fatal or fatal, or with one of the given faults. -/
def SesEnd.endsIn (nonfatal fatal : List ErrCode) (faults : List Fault) : SesEnd → Prop
  | .done _ _ _ => True
  | .raised e => e ∈ nonfatal
  | .fatal e _ _ _ => e ∈ fatal
  | .fault f => f ∈ faults

theorem SesEnd.endsIn.mono {nonfatal nonfatal' fatal fatal' : List ErrCode} {faults faults' : List Fault} {r : SesEnd}
    (h : r.endsIn nonfatal fatal faults) (hn : nonfatal ⊆ nonfatal') (hf : fatal ⊆ fatal') (hs : faults ⊆ faults') :
    r.endsIn nonfatal' fatal' faults' := by
  cases r with
  | done t results sent => trivial
  | raised e => exact hn h
  | fatal e t evs sent => exact hf h
  | fault f => exact hs h

/-! ### Connecting and sending -/

theorem sesConnect_endsIn (t : SesState) (h : HostConnect) : (sesConnect t h).endsIn [.state, .conn] [] [] := by
  by_cases hm : t.mode = .disconnected
  case neg =>
    rw [sesConnect_state hm]
    exact (by decide : ErrCode.state ∈ [ErrCode.state, .conn])
  case pos =>
    cases h with
    | failed =>
      rw [sesConnect_failed hm]
      exact (by decide : ErrCode.conn ∈ [ErrCode.state, .conn])
    | opened =>
      rw [sesConnect_opened hm]
      trivial

/-- `SES_SEND` raises what its checks, the header and the encryption answer; only the socket's failure is fatal
(R259). -/
theorem sesSend_endsIn (p : Params) (t : SesState) (w : WrState) (h : HostWrite) :
    (sesSend p t w h).endsIn [.state, .uninit, .bounds] [.conn] [] := by
  unfold sesSend
  split
  · simp [SesEnd.endsIn]
  split
  · simp [SesEnd.endsIn]
  split
  · simp [SesEnd.endsIn]
  split
  · simp [SesEnd.endsIn]
  split
  case h_1 e he => exact List.mem_cons_of_mem _ (frameHeader_failsIn _ _ _ e he)
  split
  case h_1 e he => exact List.mem_cons_of_mem _ (scEncrypt_failsIn _ _ _ _ e he)
  cases h with
  | allAccepted => trivial
  | failedAfter k => exact List.mem_singleton_self _

/-! ### Receiving -/

/-- A frame fails to decrypt only on a cipher that is not ready (R250; log 14). -/
theorem frameLoop_failed {p : Params} {k : Nat} {c : ScState} {d : Bytes} {e : ErrCode}
    (h : (frameLoop p k c d).stop = .failed e) : e = .uninit := by
  induction k generalizing c d with
  | zero => cases h
  | succ k ih =>
    rcases frameLoop_cases p k c d with ⟨he, -⟩ | he | ⟨he, -⟩ | ⟨v, b0, b1, b2, b3, body, rfl, hi, hv, h2, hc, hb⟩
    · rw [he] at h
      cases h
    · rw [he] at h
      cases h
    · rw [he] at h
      cases h
      rfl
    · rw [frameLoop_frame p k hi hv b0 b1 b2 b3 body h2 hc hb] at h
      exact ih h

theorem receiveFrames_endsIn {p : Params} {t : SesState} {kinds : List ErrCode} (evs : List Event) (data : Bytes)
    (hfailed : ∀ e, (frameLoop p data.length t.inbound data).stop = .failed e → e ∈ kinds) :
    (receiveFrames p t evs data).endsIn kinds [.framing] [] := by
  simp only [receiveFrames]
  split
  case h_1 => trivial
  case h_2 => exact List.mem_singleton_self _
  case h_3 e he => exact hfailed e he

/-- The extraction raises only what the frame loop fails with; a handshake taken in the same read leaves the cipher
ready (R246, R250). -/
theorem receiveBytes_endsIn {p : Params} {t : SesState} {kinds : List ErrCode} {data : Bytes}
    (hfailed : t.handshaken = true → ∀ e, (frameLoop p data.length t.inbound data).stop = .failed e → e ∈ kinds) :
    (receiveBytes p t data).endsIn kinds [.framing, .handshake] [] := by
  rcases receiveBytes_cases p t data with
    ⟨hh, he⟩ | ⟨-, -, he⟩ | ⟨-, e, hkind, he⟩ | ⟨-, l0, l1, rest, f, -, -, -, -, he⟩
  · rw [he]
    exact (receiveFrames_endsIn [] data (hfailed hh)).mono (List.Subset.refl _) (by decide) (List.Subset.refl _)
  · rw [he]
    trivial
  · rw [he]
    rcases hkind with rfl | rfl <;> simp [SesEnd.endsIn]
  · rw [he]
    have hready := commitHandshake_inboundReady t f
    exact (receiveFrames_endsIn _ _ fun _ hstop => absurd hstop (frameLoop_ready hready.initialized hready.vector)).mono
      (List.Subset.refl _) (by decide) (List.Subset.refl _)

/-- `SES_RECEIVE` ends before it takes a byte in, or its read is not empty and fits (R250). -/
theorem sesReceive_intake (p : Params) (t : SesState) (h : HostRead) :
    (∃ e, (e = .state ∨ e = .illegal) ∧ sesReceive p t h = .raised e) ∨ sesReceive p t h = .fatal .conn t [] [] ∨
    sesReceive p t h = .done t [.events []] [] ∨
    ∃ d, h = .data d ∧ t.mode = .connected ∧ d ≠ [] ∧ d.length ≤ p.recvCapacity - t.fill := by
  by_cases hm : t.mode = .connected
  case neg => exact .inl ⟨.state, .inl rfl, sesReceive_notConnected p hm h⟩
  cases h with
  | failed => exact .inr (.inl (sesReceive_failed p hm))
  | data d =>
    by_cases hlong : p.recvCapacity - t.fill < d.length
    · exact .inl ⟨.illegal, .inr rfl, sesReceive_tooLong hm hlong⟩
    by_cases hd : d = []
    · rw [hd]
      exact .inr (.inr (.inl (sesReceive_nil p hm)))
    · exact .inr (.inr (.inr ⟨d, rfl, hm, hd, Nat.not_lt.mp hlong⟩))

/-- A read that is taken in stops at the receive buffer or reaches the extraction, in any state (R250; log 10). -/
theorem sesReceive_taken {p : Params} {t : SesState} {d : Bytes} (hm : t.mode = .connected) (hd : d ≠ [])
    (hfit : d.length ≤ p.recvCapacity - t.fill) :
    (∃ f, sesReceive p t (.data d) = .fault f) ∨
      ∃ rx data, sesReceive p t (.data d) = receiveBytes p { t with rx := rx } data := by
  simp only [sesReceive, if_neg (not_not_intro hm), if_neg (Nat.not_lt.mpr hfit),
    if_neg (mt List.length_eq_zero_iff.mp hd)]
  split
  · exact .inl ⟨_, rfl⟩
  split
  · exact .inl ⟨_, rfl⟩
  · exact .inr ⟨_, _, rfl⟩

/-- The ends of `SES_RECEIVE` in any state. -/
theorem sesReceive_endsIn (p : Params) (t : SesState) (h : HostRead) :
    (sesReceive p t h).endsIn [.state, .illegal, .uninit] [.conn, .framing, .handshake]
      [.rxNoValue, .rxOutOfRange] := by
  rcases sesReceive_intake p t h with ⟨e, hkind, he⟩ | he | he | ⟨d, rfl, hm, hd, hfit⟩
  · rw [he]
    rcases hkind with rfl | rfl <;> simp [SesEnd.endsIn]
  · simp [he, SesEnd.endsIn]
  · rw [he]
    trivial
  · rcases sesReceive_taken hm hd hfit with ⟨f, he⟩ | ⟨rx, data, he⟩
    · rw [he]
      cases f <;> simp [SesEnd.endsIn]
    · rw [he]
      exact (receiveBytes_endsIn (kinds := [.uninit]) fun _ e hstop => by simp [frameLoop_failed hstop]).mono
        (by decide) (by decide) (by decide)

/-- The ends of `SES_RECEIVE` in a good state: the cells it reads hold a value, and the inbound cipher of a handshaken
session is ready, so that neither a fault nor `UNINIT` is left (R33, R250, R270). -/
theorem sesReceive_endsIn_of_inv {p : Params} {t : SesState} (ht : SesInv p t) (h : HostRead) :
    (sesReceive p t h).endsIn [.state, .illegal] [.conn, .framing, .handshake] [] := by
  rcases sesReceive_intake p t h with ⟨e, hkind, he⟩ | he | he | ⟨d, rfl, hm, hd, hfit⟩
  · rw [he]
    rcases hkind with rfl | rfl <;> simp [SesEnd.endsIn]
  · simp [he, SesEnd.endsIn]
  · rw [he]
    trivial
  · have hfill := ht.fill_lt
    obtain ⟨data, -, he⟩ := sesReceive_eq ht hm hd (by omega)
    rw [he]
    refine (receiveBytes_endsIn (kinds := []) fun hh _ hstop => ?_).mono (by decide) (by decide) (by decide)
    have hready := ht.ciphers.inboundReady hh
    exact absurd hstop (frameLoop_ready hready.initialized hready.vector)

/-! ### The four commands -/

/-- The kinds that a command which writes the session raises without a teardown are those that are not fatal for it,
and those it tears the session down with are fatal (R280). -/
theorem exec_eq_finishSes {i : Instr} (h : i.opcode ∈ sessionWriters) (s : State) :
    ∃ r nonfatal fatal faults, exec i s = finishSes s r ∧ r.endsIn nonfatal fatal faults ∧
      (∀ e ∈ nonfatal, isFatal i.opcode e = false) ∧ ∀ e ∈ fatal, isFatal i.opcode e = true := by
  rcases opcode_mem_sessionWriters h with ⟨endpoint, a, rfl⟩ | ⟨a, rfl⟩ | ⟨w, a, rfl⟩ | rfl
  · exact ⟨_, _, _, _, exec_sesConnect endpoint a s, sesConnect_endsIn s.ses a, by simp [Instr.opcode, isFatal], nofun⟩
  · exact ⟨_, _, _, _, exec_sesReceive a s, sesReceive_endsIn Config.params s.ses a, by simp [isFatal],
      by simp [Instr.opcode, isFatal]⟩
  · exact ⟨_, _, _, _, exec_sesSend w a s, sesSend_endsIn Config.params s.ses w a, by simp [isFatal],
      by simp [Instr.opcode, isFatal]⟩
  · exact ⟨_, [], [], [], exec_sesClose s, trivial, nofun, nofun⟩

/-- In a good state such a command does not stop, and the kinds it ends with are listed for it (R270). -/
theorem exec_eq_finishSes_of_inv {i : Instr} (h : i.opcode ∈ sessionWriters) {s : State}
    (hs : SesInv Config.params s.ses) :
    ∃ r nonfatal fatal, exec i s = finishSes s r ∧ r.endsIn nonfatal fatal [] ∧
      (∀ e ∈ nonfatal, i.opcode ∈ mayRaise e) ∧ ∀ e ∈ fatal, i.opcode ∈ mayRaise e := by
  rcases opcode_mem_sessionWriters h with ⟨endpoint, a, rfl⟩ | ⟨a, rfl⟩ | ⟨w, a, rfl⟩ | rfl
  · exact ⟨_, _, _, exec_sesConnect endpoint a s, sesConnect_endsIn s.ses a, by simp [Instr.opcode, mayRaise], nofun⟩
  · exact ⟨_, _, _, exec_sesReceive a s, sesReceive_endsIn_of_inv hs a, by simp [Instr.opcode, mayRaise],
      by simp [Instr.opcode, mayRaise]⟩
  · exact ⟨_, _, _, exec_sesSend w a s, sesSend_endsIn Config.params s.ses w a, by simp [Instr.opcode, mayRaise],
      by simp [Instr.opcode, mayRaise]⟩
  · exact ⟨_, [], [], exec_sesClose s, trivial, nofun, nofun⟩

/-- A session command that ends with an error raised it and changed nothing else, or tore the session down with it
(R280). -/
theorem finishSes_error {s s' : State} {r : SesEnd} {nonfatal fatal : List ErrCode} {faults : List Fault}
    {e : ErrCode} {evs : List Event} (hr : r.endsIn nonfatal fatal faults) (h : finishSes s r = .next s')
    (hresp : s'.response = some (.err e evs)) :
    (e ∈ nonfatal ∧ s' = { s with response := some (.err e []) }) ∨
      (e ∈ fatal ∧ s'.pending = s.pending ∧ ∃ t : SesState, s'.ses = t.teardown) := by
  rcases finishSes_cases h with ⟨t, vs, sent, rfl, rfl⟩ | ⟨e', rfl, rfl⟩ | ⟨e', t, evs', sent, rfl, rfl⟩
  · cases hresp
  · cases hresp
    exact .inl ⟨hr, rfl⟩
  · cases hresp
    exact .inr ⟨hr, rfl, t, rfl⟩

/-- A session command without a fault answers a next state. -/
theorem finishSes_next {r : SesEnd} {nonfatal fatal : List ErrCode} (hr : r.endsIn nonfatal fatal []) (s : State) :
    ∃ s', finishSes s r = .next s' := by
  cases r with
  | done t results sent => exact ⟨_, rfl⟩
  | raised e => exact ⟨_, rfl⟩
  | fatal e t evs sent => exact ⟨_, rfl⟩
  | fault f => exact absurd hr List.not_mem_nil

end Sys2Proof.Machine
end

section
/-! The obligations of 60_exceptions.md. -/

namespace Sys2Proof.Machine

/-- The two classes of errors (R280): a command that ends with an error changed nothing but the response, when
the error is not fatal for it, and tore the session down, when it is. -/
theorem exec_error_cases {i : Instr} {s s' : State} {e : ErrCode} {evs : List Event} (h : exec i s = .next s')
    (hresp : s'.response = some (.err e evs)) :
    (isFatal i.opcode e = false ∧ s' = { s with response := some (.err e []) }) ∨
      (isFatal i.opcode e = true ∧ s'.pending = s.pending ∧ ∃ t : SesState, s'.ses = t.teardown) := by
  by_cases hop : i.opcode ∈ sessionWriters
  case neg =>
    obtain ⟨hlisted, hs'⟩ := valueCommand_error hop h hresp
    exact .inl ⟨isFatal_of_valueCommand hop hlisted, hs'⟩
  case pos =>
    obtain ⟨r, nonfatal, fatal, faults, he, hr, hnonfatal, hfatal⟩ := exec_eq_finishSes hop s
    rw [he] at h
    exact (finishSes_error hr h hresp).imp (fun ⟨hmem, hs'⟩ => ⟨hnonfatal e hmem, hs'⟩)
      fun ⟨hmem, htorn⟩ => ⟨hfatal e hmem, htorn⟩

/-- In a good state every instruction answers a next state (R270). -/
theorem exec_next {s : State} (hs : SesInv Config.params s.ses) (i : Instr) : ∃ s', exec i s = .next s' := by
  by_cases hop : i.opcode ∈ sessionWriters
  case neg =>
    obtain ⟨resp, he⟩ := valueCommandsKeepTheSession i s hop
    exact ⟨_, he⟩
  case pos =>
    obtain ⟨r, nonfatal, fatal, he, hr, -, -⟩ := exec_eq_finishSes_of_inv hop hs
    rw [he]
    exact finishSes_next hr s

/-- In a good state an instruction ends with an error only of a kind listed for it. -/
theorem exec_error_listed {i : Instr} {s s' : State} {e : ErrCode} {evs : List Event}
    (hs : SesInv Config.params s.ses) (h : exec i s = .next s') (hresp : s'.response = some (.err e evs)) :
    i.opcode ∈ mayRaise e := by
  by_cases hop : i.opcode ∈ sessionWriters
  case neg => exact (valueCommand_error hop h hresp).1
  case pos =>
    obtain ⟨r, nonfatal, fatal, he, hr, hnonfatal, hfatal⟩ := exec_eq_finishSes_of_inv hop hs
    rw [he] at h
    rcases finishSes_error hr h hresp with ⟨hmem, -⟩ | ⟨hmem, -⟩
    · exact hnonfatal e hmem
    · exact hfatal e hmem

/-- The kind that a code of the table stands for (R272). -/
def errorOfCode (code : BitVec 8) : Option ErrCode :=
  [.bounds, .uninit, .conn, .framing, .validation, .state, .handshake, .illegal][code.toNat - 1]?

theorem errorOfCode_code (e : ErrCode) : errorOfCode e.code = some e := by cases e <;> rfl

theorem code_injective {e e' : ErrCode} (h : e.code = e'.code) : e = e' :=
  Option.some.inj (by rw [← errorOfCode_code e, h, errorOfCode_code e'])

/-- The codes of the table are 1 to 8 (R272). -/
theorem code_range (e : ErrCode) : 1 ≤ e.code.toNat ∧ e.code.toNat ≤ 8 := by cases e <;> decide

/-- Settles O51: no command and a command that does not decode always complete, and a decoded one does in a good
state. -/
theorem goodStatesNeverStop : Obligations.GoodStatesNeverStop := by
  unfold Obligations.GoodStatesNeverStop
  intro s hs
  rcases step_cases s with ⟨-, he⟩ | ⟨c, rest, e, -, -, he⟩ | ⟨c, rest, i, -, -, he⟩
  · exact ⟨_, he⟩
  · exact ⟨_, he⟩
  · rw [he]
    exact exec_next (s := { s with pending := rest }) hs.ses i

/-- Settles O53: the first of the two classes of errors. -/
theorem nonfatalErrorsChangeNothing : Obligations.NonfatalErrorsChangeNothing := by
  unfold Obligations.NonfatalErrorsChangeNothing
  intro i s s' e evs h hresp hnonfatal
  rcases exec_error_cases h hresp with ⟨-, hs'⟩ | ⟨hfatal, -⟩
  · exact hs'
  · rw [hnonfatal] at hfatal
    cases hfatal

/-- Settles O54: the second of the two classes of errors; the flag stands by the session's transitions. -/
theorem fatalErrorsTearDown : Obligations.FatalErrorsTearDown := by
  unfold Obligations.FatalErrorsTearDown
  intro i s s' e evs h hresp hfatal
  rcases exec_error_cases h hresp with ⟨hnonfatal, -⟩ | ⟨-, hpending, t, hses⟩
  · rw [hfatal] at hnonfatal
    cases hnonfatal
  · exact ⟨by rw [hses, SesState.teardown_mode], by rw [hses, SesState.teardown_fill],
      by rw [hses, SesState.teardown_rx], hpending, sesMoves_keeps_handshaken (exec_moves h)⟩

/-- Settles O55: the kinds each command ends with, and a table read back from the codes. -/
theorem errorKindsPerCommand : Obligations.ErrorKindsPerCommand := by
  unfold Obligations.ErrorKindsPerCommand
  exact ⟨fun _ _ _ _ _ hs h hresp => exec_error_listed hs h hresp, rfl, rfl, rfl, rfl, rfl, rfl, rfl, rfl,
    code_range, fun _ _ => code_injective⟩

end Sys2Proof.Machine
end
